-- ==== Sys2Proof/Word.lean ====
section
/-! DEFINITION. The word types of the SpeckEx cipher core: bytes, byte strings, 64-bit physical registers
and 32-bit command words (spec 00_scope.md R9, R10). -/

namespace Sys2Proof

/-- An 8-bit byte, the unit of every operand buffer (R50). -/
abbrev Byte := BitVec 8

/-- A byte string: `s[0]` is the first byte (R10). -/
abbrev Bytes := List Byte

/-- A physical 64-bit register; a `w`-bit word sits in its low `w` bits (R23, R29). -/
abbrev Word64 := BitVec 64

/-- The 32-bit command word (R70). -/
abbrev CmdWord := BitVec 32

end Sys2Proof
end

