-- ==== Sys2Proof/Syntax.lean ====
section
/-! DEFINITION. The eight commands (spec 30_encoding.md R72, opcode_table.json), one constructor per row, with the
two 4-bit operand fields of the command word (R71). The byte-string operands travel in the input buffers of State. -/

namespace Sys2Proof

/-- A command, as the command word gives it: `var` is the `VAR` field [7:4], `slot` the `SLOT` field [11:8]. -/
inductive Instr where
  /-- `OP` 0 (R93). -/
  | variantInfo (var : BitVec 4)
  /-- `OP` 1 (R104). -/
  | schedule (var : BitVec 4) (slot : BitVec 4)
  /-- `OP` 2 (R106). -/
  | release (slot : BitVec 4)
  /-- `OP` 3 (R124). -/
  | encryptBlock (slot : BitVec 4)
  /-- `OP` 4 (R125). -/
  | decryptBlock (slot : BitVec 4)
  /-- `OP` 5 (R146). -/
  | ctrCrypt (var : BitVec 4)
  /-- `OP` 6 (R183). -/
  | aeadEncrypt (var : BitVec 4)
  /-- `OP` 7 (R184). -/
  | aeadDecrypt (var : BitVec 4)
  deriving DecidableEq, Repr

end Sys2Proof
end

