-- ==== Sys2Proof/WellFormed.lean ====
section
/-! DEFINITION. Which commands name an existing slot: the one check the decoder cannot make on the command word
alone, because `NSLOT` is a parameter (spec 30_encoding.md R74, R76, R77). -/

namespace Sys2Proof

/-- The slot a command names, if it uses the `SLOT` field (R72). -/
def Instr.slotField : Instr → Option (BitVec 4)
  | .schedule _ slot => some slot
  | .release slot => some slot
  | .encryptBlock slot => some slot
  | .decryptBlock slot => some slot
  | .variantInfo _ => none
  | .ctrCrypt _ => none
  | .aeadEncrypt _ => none
  | .aeadDecrypt _ => none

/-- The command is legal on a core with `nslot` slots: a slot it names exists (R76, last condition). Every value of
`VAR` is well formed: codes that name no variant fail in the registry, not in the encoding (R73). -/
def Instr.wf (nslot : Nat) (i : Instr) : Bool :=
  match i.slotField with
  | some slot => decide (slot.toNat < nslot)
  | none => true

end Sys2Proof
end

