-- ==== Sys2Proof/Decode.lean ====
section
/-! DEFINITION. Decoding and encoding of the 32-bit command word (spec 30_encoding.md R70 to R78, opcode_table.json). -/

namespace Sys2Proof

/-- Why a command word selects no row of the opcode table (R76). Each is the status `ILLEGAL_COMMAND` (R217). -/
inductive DecodeError where
  /-- `ZERO` [31:12] is not 0. -/
  | zeroFieldSet
  /-- `OP` is 8 to 15. -/
  | reservedOp
  /-- The command does not use `VAR` and `VAR` is not 0. -/
  | unusedVarSet
  /-- The command does not use `SLOT` and `SLOT` is not 0. -/
  | unusedSlotSet
  deriving DecidableEq, Repr

/-- `OP`, bits [3:0] (R71). -/
def opOf (c : CmdWord) : BitVec 4 := c.extractLsb' 0 4

/-- `VAR`, bits [7:4] (R71). -/
def varOf (c : CmdWord) : BitVec 4 := c.extractLsb' 4 4

/-- `SLOT`, bits [11:8] (R71). -/
def slotOf (c : CmdWord) : BitVec 4 := c.extractLsb' 8 4

/-- `ZERO`, bits [31:12] (R71). -/
def zeroOf (c : CmdWord) : BitVec 20 := c.extractLsb' 12 20

/-- A command that uses `VAR` only: `SLOT` must be 0 (R76). -/
def decodeVarOnly (mk : BitVec 4 → Instr) (c : CmdWord) : Except DecodeError Instr :=
  if slotOf c = 0 then .ok (mk (varOf c)) else .error .unusedSlotSet

/-- A command that uses `SLOT` only: `VAR` must be 0 (R76). -/
def decodeSlotOnly (mk : BitVec 4 → Instr) (c : CmdWord) : Except DecodeError Instr :=
  if varOf c = 0 then .ok (mk (slotOf c)) else .error .unusedVarSet

/-- The decoder: total on command words, every word that matches no row rejected by name (R76, R77). The test
`SLOT < NSLOT` is made after it, by the command's meaning (R77). -/
def decode (c : CmdWord) : Except DecodeError Instr :=
  if zeroOf c ≠ 0 then .error .zeroFieldSet else
  match (opOf c).toNat with
  | 0 => decodeVarOnly .variantInfo c
  | 1 => .ok (.schedule (varOf c) (slotOf c))
  | 2 => decodeSlotOnly .release c
  | 3 => decodeSlotOnly .encryptBlock c
  | 4 => decodeSlotOnly .decryptBlock c
  | 5 => decodeVarOnly .ctrCrypt c
  | 6 => decodeVarOnly .aeadEncrypt c
  | 7 => decodeVarOnly .aeadDecrypt c
  | _ => .error .reservedOp

/-- The host's view of the decoder: an instruction of `nbits` bits with value `w`, bit 0 the least significant. A
command is exactly one 32-bit word (R78), so wider words are none; the bits above `nbits` are 0 (log 17). -/
def decodeTableWord (nbits w : Nat) : Option Instr :=
  if nbits ≤ 32 then (decode (BitVec.ofNat 32 (w % 2 ^ nbits))).toOption else none

/-- Format C: `ZERO`, `SLOT`, `VAR`, `OP`, most significant first (R71). -/
def formatC (slot var op : BitVec 4) : CmdWord := 0#20 ++ slot ++ var ++ op

/-- The encoder: the one word of each command (R71, R72, R77). -/
def encode : Instr → CmdWord
  | .variantInfo var => formatC 0 var 0
  | .schedule var slot => formatC slot var 1
  | .release slot => formatC slot 0 2
  | .encryptBlock slot => formatC slot 0 3
  | .decryptBlock slot => formatC slot 0 4
  | .ctrCrypt var => formatC 0 var 5
  | .aeadEncrypt var => formatC 0 var 6
  | .aeadDecrypt var => formatC 0 var 7

/-- One row of the opcode table: the word `c` selects the row when `c AND mask = pattern` (R77). -/
structure OpRow where
  mnemonic : String
  pattern : CmdWord
  mask : CmdWord
  deriving DecidableEq, Repr

/-- The opcode table, row by row as opcode_table.json prints `match` and `mask` (R72, R77). -/
def opcodeTable : List OpRow :=
  [⟨"variant_info", 0x00000000, 0xFFFFFF0F⟩,
   ⟨"schedule", 0x00000001, 0xFFFFF00F⟩,
   ⟨"release", 0x00000002, 0xFFFFF0FF⟩,
   ⟨"encrypt_block", 0x00000003, 0xFFFFF0FF⟩,
   ⟨"decrypt_block", 0x00000004, 0xFFFFF0FF⟩,
   ⟨"ctr_crypt", 0x00000005, 0xFFFFFF0F⟩,
   ⟨"aead_encrypt", 0x00000006, 0xFFFFFF0F⟩,
   ⟨"aead_decrypt", 0x00000007, 0xFFFFFF0F⟩]

/-- The word `c` selects the row (R77). -/
def OpRow.selects (r : OpRow) (c : CmdWord) : Bool := c &&& r.mask = r.pattern

/-- The table row of a command (opcode_table.json). -/
def Instr.mnemonic : Instr → String
  | .variantInfo _ => "variant_info"
  | .schedule _ _ => "schedule"
  | .release _ => "release"
  | .encryptBlock _ => "encrypt_block"
  | .decryptBlock _ => "decrypt_block"
  | .ctrCrypt _ => "ctr_crypt"
  | .aeadEncrypt _ => "aead_encrypt"
  | .aeadDecrypt _ => "aead_decrypt"

/-- The command word is legal on a core with `nslot` slots: the negation of R76. -/
def legalWord (nslot : Nat) (c : CmdWord) : Bool :=
  match decode c with
  | .ok i => i.wf nslot
  | .error _ => false

end Sys2Proof
end

