-- ==== Sys2Proof/Config.lean ====
section
/-! DEFINITION. What an implementation fixes: the variant names and the open parameters of 00_scope.md R8
(`MAXLEN`, the `T` column, the `UHASH` instance). `NSLOT` is the length of the slot store in State. -/

namespace Sys2Proof

/-- The ten variants, in the order of their codes 0 to 9 (40_variant_registry.md R90). -/
inductive Variant where
  | speck32_64 | speck48_72 | speck48_96 | speck64_96 | speck64_128
  | speck96_96 | speck96_144 | speck128_128 | speck128_192 | speck128_256
  deriving DecidableEq, Repr

/-- The round-count column `T` of the registry, one number per variant: an open parameter (R8, R96). -/
structure Rounds where
  speck32_64 : Nat
  speck48_72 : Nat
  speck48_96 : Nat
  speck64_96 : Nat
  speck64_128 : Nat
  speck96_96 : Nat
  speck96_144 : Nat
  speck128_128 : Nat
  speck128_192 : Nat
  speck128_256 : Nat
  deriving DecidableEq, Repr

/-- Which instance of the hash parameter `UHASH` the core is built with (44_mac.md R163): the default instance
of R168, or another one, known by a number only. -/
inductive UHash where
  | poly1305
  | other (n : Nat)
  deriving DecidableEq, Repr

/-- The open parameters of R8 as plain data. They are configuration, not state (10_state.md R22(c)); State carries
them because `step` has no other argument, and no step changes them (log 1). -/
structure Config where
  /-- `MAXLEN`, the largest length of `IN.data` and `IN.aad` (20_memory.md R60). -/
  maxlen : Nat
  /-- The `T` column (R96). -/
  rounds : Rounds
  /-- The `UHASH` instance (R163). -/
  uhash : UHash
  deriving DecidableEq, Repr

/-- Every other instance of `UHASH`: any function from a subkey and a message to a 16-byte tag, here the tag as
a 128-bit number. Nothing in Lean knows a value of it, so a claim about it holds for every such function
(R163; log 4). -/
opaque Config.otherUHash : Nat → Bytes → Bytes → BitVec 128

end Sys2Proof
end

