-- ==== Sys2Proof/Machine/Registry.lean ====
section
/-! DEFINITION. The variant registry (spec 40_variant_registry.md R90 to R92, R96): a constant table, written as one
function per column, and the defaults of the open parameters. -/

namespace Sys2Proof

/-- The variant code, column `code` of R90. -/
def Variant.code : Variant → BitVec 4
  | .speck32_64 => 0
  | .speck48_72 => 1
  | .speck48_96 => 2
  | .speck64_96 => 3
  | .speck64_128 => 4
  | .speck96_96 => 5
  | .speck96_144 => 6
  | .speck128_128 => 7
  | .speck128_192 => 8
  | .speck128_256 => 9

/-- The variant a code names; codes 10 to 15 name none (R73, R95). -/
def Variant.ofCode (c : BitVec 4) : Option Variant :=
  match c.toNat with
  | 0 => some .speck32_64
  | 1 => some .speck48_72
  | 2 => some .speck48_96
  | 3 => some .speck64_96
  | 4 => some .speck64_128
  | 5 => some .speck96_96
  | 6 => some .speck96_144
  | 7 => some .speck128_128
  | 8 => some .speck128_192
  | 9 => some .speck128_256
  | _ => none

/-- Column `w`: the word size in bits (R90). -/
def Variant.w : Variant → Nat
  | .speck32_64 => 16
  | .speck48_72 => 24
  | .speck48_96 => 24
  | .speck64_96 => 32
  | .speck64_128 => 32
  | .speck96_96 => 48
  | .speck96_144 => 48
  | .speck128_128 => 64
  | .speck128_192 => 64
  | .speck128_256 => 64

/-- Column `m`: the key word count (R90). -/
def Variant.m : Variant → Nat
  | .speck32_64 => 4
  | .speck48_72 => 3
  | .speck48_96 => 4
  | .speck64_96 => 3
  | .speck64_128 => 4
  | .speck96_96 => 2
  | .speck96_144 => 3
  | .speck128_128 => 2
  | .speck128_192 => 3
  | .speck128_256 => 4

/-- Rotation constant `α` (R91). -/
def Variant.alpha (v : Variant) : Nat := if v.w = 16 then 7 else 8

/-- Rotation constant `β` (R91). -/
def Variant.beta (v : Variant) : Nat := if v.w = 16 then 2 else 3

/-- `n = w/8`, the bytes of a word (R90, R92). -/
def Variant.wordBytes (v : Variant) : Nat := v.w / 8

/-- `B = 2w/8`, the bytes of a block and of a nonce (R90, R92). -/
def Variant.blockBytes (v : Variant) : Nat := 2 * v.w / 8

/-- `m·w/8`, the bytes of a key (R90, R92). -/
def Variant.keyBytes (v : Variant) : Nat := v.m * v.w / 8

/-- Column `stream-capable`: the six variants CTR and AEAD admit, codes 0, 3, 4, 7, 8, 9 (43_ctr.md R140). -/
def Variant.streamCapable : Variant → Bool
  | .speck32_64 => true
  | .speck48_72 => false
  | .speck48_96 => false
  | .speck64_96 => true
  | .speck64_128 => true
  | .speck96_96 => false
  | .speck96_144 => false
  | .speck128_128 => true
  | .speck128_192 => true
  | .speck128_256 => true

/-- The variant a code names to the stream unit; every other code is unrecognised (R95, R140). -/
def Variant.ofStreamCode (c : BitVec 4) : Option Variant :=
  match Variant.ofCode c with
  | some v => if v.streamCapable then some v else none
  | none => none

/-- Column `T` of a variant (R96). -/
def Rounds.get (r : Rounds) : Variant → Nat
  | .speck32_64 => r.speck32_64
  | .speck48_72 => r.speck48_72
  | .speck48_96 => r.speck48_96
  | .speck64_96 => r.speck64_96
  | .speck64_128 => r.speck64_128
  | .speck96_96 => r.speck96_96
  | .speck96_144 => r.speck96_144
  | .speck128_128 => r.speck128_128
  | .speck128_192 => r.speck128_192
  | .speck128_256 => r.speck128_256

/-- The ten round counts of R90. PRESUMED: the spec takes them from general knowledge (R96; log 5). -/
def Rounds.published : Rounds :=
  { speck32_64 := 22, speck48_72 := 22, speck48_96 := 23, speck64_96 := 26, speck64_128 := 27
    speck96_96 := 28, speck96_144 := 29, speck128_128 := 32, speck128_192 := 33, speck128_256 := 34 }

/-- Every round count lies in the range 22 to 34 that the source fixes (R8, R96). -/
def Rounds.wf (r : Rounds) : Bool :=
  [r.speck32_64, r.speck48_72, r.speck48_96, r.speck64_96, r.speck64_128,
   r.speck96_96, r.speck96_144, r.speck128_128, r.speck128_192, r.speck128_256].all
    fun t => decide (22 ≤ t) && decide (t ≤ 34)

/-- The parameters lie in the ranges of R8 and R60. -/
def Config.wf (c : Config) : Bool := c.rounds.wf && decide (c.maxlen ≤ 2 ^ 61 - 1)

/-- The defaults of R8: `MAXLEN = 2^61 - 1`, the `T` column of R90, the `UHASH` instance of R168. -/
def Config.default : Config := { maxlen := 2 ^ 61 - 1, rounds := Rounds.published, uhash := .poly1305 }

/-- The default number of key-schedule slots (R8, D5). -/
def Config.defaultNslot : Nat := 1

/-- `T` of a variant under a configuration. -/
def Config.t (c : Config) (v : Variant) : Nat := c.rounds.get v

/-- The parameters `(w, m, T, α, β)` the registry returns (R90, R93). -/
structure Params where
  w : Nat
  m : Nat
  t : Nat
  alpha : Nat
  beta : Nat
  deriving DecidableEq, Repr

/-- `Params(v)`, the registry lookup (R90). -/
def params (c : Config) (v : Variant) : Params :=
  { w := v.w, m := v.m, t := c.t v, alpha := v.alpha, beta := v.beta }

end Sys2Proof
end

