-- ==== Sys2Proof/Machine/State.lean ====
section
/-! DEFINITION. The state of the SpeckEx cipher core as plain data: the key-schedule slot store, the status register,
the operand buffers and the working registers of spec 10_state.md and 20_memory.md, the open parameters of R8, and
the host's pending accesses. -/

namespace Sys2Proof.Machine

/-- One of the eight status codes (60_exceptions.md R210). -/
inductive Status where
  | ok
  | unknownVariant
  | invalidKeySize
  | invalidBlockSize
  | invalidNonceSize
  | authenticationFailed
  | noSchedule
  | illegalCommand
  deriving DecidableEq, Repr

/-- The controller's phase register `PHASE` (10_state.md R41). -/
inductive Phase where
  | idle | check | expand | subkey | crypt | macAad | macCt | macLen | compare | block
  deriving DecidableEq, Repr

/-- Thirty-four entries of 64 bits: the layout of `RK[s]` and of `TK` (R23, R34). -/
abbrev RoundKeys := Vector Word64 34

/-- One key-schedule slot (R23). `VAR` is one of the ten variants rather than four free bits (R25; log 8). -/
structure Slot where
  /-- `VALID[s]`. -/
  valid : Bool
  /-- `VAR[s]`, meaningful only when `valid`. -/
  var : Variant
  /-- `RK[s][0..33]`; each round key in the low `w` bits. -/
  rk : RoundKeys
  deriving DecidableEq, Repr

/-- An empty slot: the reset value, and what `release` leaves (R23, R46, R106). -/
def Slot.empty : Slot := { valid := false, var := .speck32_64, rk := Vector.replicate 34 0 }

/-- The accumulator `ACC` of the universal hash; its type belongs to the instance (R36, R164). -/
inductive Acc where
  /-- The default instance: multiplier `r`, addend `s`, and the running value `acc` below 2^130 - 5 (R168). -/
  | poly (r s : BitVec 128) (acc : Nat)
  /-- Another instance `n`: the subkey and the message so far (R164 lets an instance buffer; log 4). -/
  | buffered (n : Nat) (key msg : Bytes)
  deriving DecidableEq, Repr

/-- The working registers of R29 to R41. They are at their reset values between commands (R44; log 7). -/
structure Work where
  /-- `PHASE` (R41). -/
  phase : Phase
  /-- `X` (R29). -/
  x : Word64
  /-- `Y` (R29). -/
  y : Word64
  /-- `K` (R30). -/
  k : Word64
  /-- `L[0..2]` (R30). -/
  l : Vector Word64 3
  /-- `RND`, 6 bits (R31). -/
  rnd : BitVec 6
  /-- `CTRV`, 128 bits, `2w` logically (R32). -/
  ctrv : BitVec 128
  /-- `KS`, 16 bytes, `2w/8` logically (R33). -/
  ks : Vector Byte 16
  /-- `J`, a natural number (R33; log 13). -/
  j : Nat
  /-- `TK[0..33]` (R34). -/
  tk : RoundKeys
  /-- `MACKEY`, 32 bytes (R35). -/
  mackey : Vector Byte 32
  /-- `ACC` (R36). -/
  acc : Acc
  /-- `MBUF`, 16 bytes (R37). -/
  mbuf : Vector Byte 16
  /-- `MFILL`, 0 to 16 (R37; log 13). -/
  mfill : Nat
  /-- `AADBITS` (R37). -/
  aadbits : BitVec 64
  /-- `CTBITS` (R37). -/
  ctbits : BitVec 64
  /-- `TAGREG`, 16 bytes (R39). -/
  tagreg : Vector Byte 16
  /-- `TAGOK` (R39). -/
  tagok : Bool
  deriving DecidableEq, Repr

/-- The working registers after reset and at every command boundary (R44, R46). -/
def Work.reset : Work :=
  { phase := .idle, x := 0, y := 0, k := 0, l := Vector.replicate 3 0, rnd := 0, ctrv := 0
    ks := Vector.replicate 16 0, j := 0, tk := Vector.replicate 34 0, mackey := Vector.replicate 32 0
    acc := .poly 0 0 0, mbuf := Vector.replicate 16 0, mfill := 0, aadbits := 0, ctbits := 0
    tagreg := Vector.replicate 16 0, tagok := false }

/-- The six input buffers (20_memory.md R50). -/
structure InBufs where
  key : Bytes
  nonce : Bytes
  block : Bytes
  data : Bytes
  aad : Bytes
  tag : Bytes
  deriving DecidableEq, Repr

/-- All six input buffers empty (R46). -/
def InBufs.empty : InBufs := { key := [], nonce := [], block := [], data := [], aad := [], tag := [] }

/-- The four output buffers (R50). -/
structure OutBufs where
  block : Bytes
  data : Bytes
  tag : Bytes
  info : Bytes
  deriving DecidableEq, Repr

/-- All four output buffers empty (R46, R61). -/
def OutBufs.empty : OutBufs := { block := [], data := [], tag := [], info := [] }

/-- The name of an input buffer. -/
inductive InBuf where
  | key | nonce | block | data | aad | tag
  deriving DecidableEq, Repr

/-- The name of an output buffer. -/
inductive OutBuf where
  | block | data | tag | info
  deriving DecidableEq, Repr

/-- One access of the host (R27, R28, R50, R62, R240; log 2). -/
inductive HostReq where
  /-- Write a register; a write of register 0 issues a command (R27). -/
  | writeReg (n : Nat) (v : BitVec 32)
  /-- Read a register (R26, R28). -/
  | readReg (n : Nat)
  /-- Fill an input buffer (R50). -/
  | fill (b : InBuf) (s : Bytes)
  /-- Read an output buffer (R43, R50). -/
  | readOut (b : OutBuf)
  /-- Power-on or platform reset (R240). -/
  | reset
  deriving DecidableEq, Repr

/-- What the host's latest read returned; the model's own field (log 3). -/
inductive Reply where
  | none
  | word (v : BitVec 32)
  | bytes (s : Bytes)
  deriving DecidableEq, Repr

/-- The state: persistent state, working registers, buffers, parameters, and the host's pending accesses. -/
structure State where
  /-- The open parameters of R8; constant (log 1). -/
  cfg : Config
  /-- The slot store; its length is `NSLOT` (R23). -/
  slots : List Slot
  /-- `STATUS` (R26). -/
  status : BitVec 32
  /-- The working registers (R29 to R41). -/
  work : Work
  /-- The input buffers (R50). -/
  inp : InBufs
  /-- The output buffers (R50). -/
  out : OutBufs
  /-- The host's accesses not yet served, oldest first (log 2). -/
  host : List HostReq
  /-- What the host's latest read returned (log 3). -/
  reply : Reply
  deriving DecidableEq, Repr

/-- Why the machine would stop with a fault: it never does. "No behaviour of the core is stuck"
(93_implementation_defined.md part 1); a failed command is a next state with a status code (R214), so this type
has no constructor (log 12). -/
inductive Fault where
  deriving DecidableEq, Repr

/-- Inputs the spec gives no meaning ("refuse" in 93_implementation_defined.md); all safe: nothing is claimed of
them. -/
inductive Refusal where
  /-- An instruction with no meaning yet; raised by a refused arm of `exec` only. Safe. -/
  | notModelled (mnemonic : String)
  /-- Raised by `ctr_crypt`, `aead_encrypt`, `aead_decrypt` when `IN.data` or `IN.aad` is longer than `MAXLEN`
  (R60, U13). Safe. -/
  | operandTooLong
  /-- Raised by a host read of `CMD` (R27, U15). Safe. -/
  | readOfCmd
  /-- Raised by a host write of `STATUS` or `SLOTINFO[s]` (U15). Safe. -/
  | writeOfReadOnly
  /-- Raised by a host write of a reserved register (U16). Safe. -/
  | writeOfReserved
  /-- Raised by a host access to a register number above 31, which names nothing (R62; log 10). Safe. -/
  | noSuchRegister
  deriving DecidableEq, Repr

/-- The outcome of a step or of a command. -/
abbrev Result := Host.Outcome State Fault Refusal

/-- The machine right after reset (R46, R240), with the default parameters of R8 and no access pending. -/
def State.reset : State :=
  { cfg := Config.default, slots := List.replicate Config.defaultNslot Slot.empty, status := 0
    work := Work.reset, inp := InBufs.empty, out := OutBufs.empty, host := [], reply := .none }

end Sys2Proof.Machine
end

