-- ==== Sys2Proof/Machine/Flags.lean ====
section
/-! DEFINITION. Status codes, the register views and the one-bit conditions (spec 10_state.md R26, R28, R39, R42,
60_exceptions.md R210, 45_aead.md R186). There are no arithmetic flags (R42). -/

namespace Sys2Proof.Machine

/-- The 8-bit status code (R210). -/
def Status.code : Status → BitVec 8
  | .ok => 0
  | .unknownVariant => 1
  | .invalidKeySize => 2
  | .invalidBlockSize => 3
  | .invalidNonceSize => 4
  | .authenticationFailed => 5
  | .noSchedule => 6
  | .illegalCommand => 7

/-- The content of `STATUS`: `CODE` in bits [7:0], bits [31:8] zero (R26). -/
def Status.word (st : Status) : BitVec 32 := 0#24 ++ st.code

/-- The value of `PHASE` (R41). -/
def Phase.code : Phase → BitVec 4
  | .idle => 0
  | .check => 1
  | .expand => 2
  | .subkey => 3
  | .crypt => 4
  | .macAad => 5
  | .macCt => 6
  | .macLen => 7
  | .compare => 8
  | .block => 9

/-- `SLOTINFO`, the view of one slot: bit [0] `VALID`, bits [7:4] `VAR` when valid, every other bit 0 (R28). -/
def Slot.info (sl : Slot) : BitVec 32 :=
  if sl.valid then 0#24 ++ sl.var.code ++ 0#3 ++ 1#1 else 0

/-- `TagEq(t, u)`: the OR over all positions of `t[i] XOR u[i]`, tested against 0 once (R186). Applied to two
16-byte strings only (R185). -/
def tagEq (t u : Bytes) : Bool :=
  (List.zipWith (fun a b => a ^^^ b) t u).foldl (fun d e => d ||| e) 0 = (0 : Byte)

end Sys2Proof.Machine
end

