-- ==== Sys2Proof/Machine/Ops.lean ====
section
/-! DEFINITION. The named operations everything else is written over: integers and byte strings (spec 00_scope.md R11),
word arithmetic and rotations (R12, R13), register access, slot access (10_state.md R24), and how a command begins, ends
and fails (60_exceptions.md R214, 20_memory.md R61, 10_state.md R44). -/

namespace Sys2Proof.Machine

/-! ## Integers and byte strings -/

/-- `BE(s)`: first byte most significant (R11). -/
def be : Bytes → Nat
  | [] => 0
  | b :: s => b.toNat * 256 ^ s.length + be s

/-- `LE(s)`: first byte least significant (R11). -/
def le : Bytes → Nat
  | [] => 0
  | b :: s => b.toNat + 256 * le s

/-- `BEbytes_n(v)` (R11). -/
def beBytes : Nat → Nat → Bytes
  | 0, _ => []
  | n + 1, v => BitVec.ofNat 8 (v / 256 ^ n) :: beBytes n v

/-- `LEbytes_n(v)` (R11). -/
def leBytes : Nat → Nat → Bytes
  | 0, _ => []
  | n + 1, v => BitVec.ofNat 8 v :: leBytes n (v / 256)

/-- `MemRead(buf, off, n)`: the bytes `buf[off..off+n)` (R14, R51). -/
def memRead (buf : Bytes) (off n : Nat) : Bytes := (buf.drop off).take n

/-- `MemWrite(buf, off, bytes)`: bytes `off` on of the buffer become `bytes` (R14). -/
def memWrite (buf : Bytes) (off : Nat) (bytes : Bytes) : Bytes :=
  buf.take off ++ bytes ++ buf.drop (off + bytes.length)

/-- `n` zero bytes, `0^n` (R10). -/
def zeros (n : Nat) : Bytes := List.replicate n 0

/-- Byte by byte exclusive or; the result is as long as the shorter string. -/
def xorBytes (s t : Bytes) : Bytes := List.zipWith (fun a b => a ^^^ b) s t

/-- The pieces of `s`, each of `n` bytes but for a shorter last one (R59); the second argument bounds their number. -/
def piecesUpTo (n : Nat) : Nat → Bytes → List Bytes
  | 0, _ => []
  | _ + 1, [] => []
  | k + 1, b :: s => (b :: s).take n :: piecesUpTo n k ((b :: s).drop n)

/-- All pieces of `n` bytes of `s`, the last one possibly shorter (R59). -/
def pieces (n : Nat) (s : Bytes) : List Bytes := piecesUpTo n s.length s

/-! ## Words and registers -/

/-- `ROTR(v, r)`: bit `i` moves to bit `(i - r) mod w`, for `0 < r < w` (R13). -/
def rotr {w : Nat} (v : BitVec w) (r : Nat) : BitVec w := v >>> r ||| v <<< (w - r)

/-- `ROTL(v, r)`: bit `i` moves to bit `(i + r) mod w`, for `0 < r < w` (R13). -/
def rotl {w : Nat} (v : BitVec w) (r : Nat) : BitVec w := v <<< r ||| v >>> (w - r)

/-- The `w`-bit word in the low bits of a 64-bit register (R29). -/
def low (w : Nat) (r : Word64) : BitVec w := r.setWidth w

/-- `zext_64`: a `w`-bit word in a 64-bit register, the upper bits zero (R9, R23). -/
def zext64 {w : Nat} (v : BitVec w) : Word64 := v.setWidth 64

/-- Entry `i` of a register array. -/
def entry {n : Nat} (v : Vector Word64 n) (i : Nat) : Word64 := v.toList.getD i 0

/-- A byte register of `n` bytes loaded with a byte string. -/
def loadReg (n : Nat) (s : Bytes) : Vector Byte n := Vector.ofFn fun i => s.getD i 0

/-! ## Slots -/

/-- `NSLOT` (R23). -/
def State.nslot (s : State) : Nat := s.slots.length

/-- Replace slot `n` (R24). -/
def State.setSlot (s : State) (n : Nat) (sl : Slot) : State := { s with slots := s.slots.set n sl }

/-! ## How a command begins, ends and fails -/

/-- The phase register is set (R41, R188). -/
def State.enter (s : State) (p : Phase) : State := { s with work := { s.work with phase := p } }

/-- A command is issued: the four output buffers are emptied before it runs (R61), and its checks begin (R188). -/
def State.begin (s : State) : State := { s with out := OutBufs.empty }.enter .check

/-- `finish`: the status is recorded (R26) and every working register returns to its reset value (R44). -/
def State.finish (s : State) (st : Status) : State := { s with status := st.word, work := Work.reset }

/-- `raise`, the one way a command fails (R214): the code goes to `STATUS`, every output buffer is empty, every slot is
as it was, the working registers are cleared. It is no trap: nothing is saved and no control is transferred (R219), so
there is no return from it either (R220). -/
def State.raise (s : State) (st : Status) : State := { s with out := OutBufs.empty }.finish st

end Sys2Proof.Machine
end

