-- ==== Sys2Proof/Machine/Operands.lean ====
section
/-! DEFINITION. How operand bytes become words and how operands are checked: byte order (spec 20_memory.md R53 to R55),
exact lengths (R58), length limits (R60), and the checks CTR and AEAD share (43_ctr.md R141). -/

namespace Sys2Proof.Machine

/-- The left word `x` of a block: its first `w/8` bytes, first byte most significant (R53). -/
def blockX (w : Nat) (b : Bytes) : BitVec w := BitVec.ofNat w (be (memRead b 0 (w / 8)))

/-- The right word `y` of a block: its last `w/8` bytes, first byte most significant (R53). -/
def blockY (w : Nat) (b : Bytes) : BitVec w := BitVec.ofNat w (be (memRead b (w / 8) (w / 8)))

/-- The block of two words, `x` first (R53). -/
def wordsBlock {w : Nat} (x y : BitVec w) : Bytes := beBytes (w / 8) x.toNat ++ beBytes (w / 8) y.toNat

/-- Key word `k_i` of a key of `m` words: taken from the END of the key string, big-endian (R54). -/
def keyWord (w m : Nat) (key : Bytes) (i : Nat) : BitVec w :=
  BitVec.ofNat w (be (memRead key ((m - 1 - i) * (w / 8)) (w / 8)))

/-- `StreamChecks`: variant, then key length, then nonce length, the first failure reported (R141). -/
def streamChecks (var : BitVec 4) (inp : InBufs) : Except Status Variant :=
  match Variant.ofStreamCode var with
  | none => .error .unknownVariant
  | some v =>
    if inp.key.length ≠ v.keyBytes then .error .invalidKeySize
    else if inp.nonce.length ≠ v.blockBytes then .error .invalidNonceSize
    else .ok v

/-- The data operand is longer than `MAXLEN` (R60). -/
def State.dataTooLong (s : State) : Bool := decide (s.cfg.maxlen < s.inp.data.length)

/-- The associated data is longer than `MAXLEN` (R60). -/
def State.aadTooLong (s : State) : Bool := decide (s.cfg.maxlen < s.inp.aad.length)

end Sys2Proof.Machine
end

