-- ==== Sys2Proof/Machine/KeySchedule.lean ====
section
/-! DEFINITION. The key schedule: `Expand` (spec 41_key_schedule.md R100), its register-level form (R103), and the
commands `schedule` (R104) and `release` (R106). -/

namespace Sys2Proof.Machine

/-! ## The function -/

/-- The expansion loop of R100 from step `i` on, `n` steps to go: `k` is `K_i`, `l` holds `l_i .. l_{i+m-2}`, and the
result is `K_i, K_{i+1}, ...`. -/
def expandFrom {w : Nat} (alpha beta : Nat) : Nat → Nat → BitVec w → List (BitVec w) → List (BitVec w)
  | 0, _, k, _ => [k]
  | n + 1, i, k, l =>
    let link := (k + rotr (l.headD 0) alpha) ^^^ BitVec.ofNat w i
    k :: expandFrom alpha beta n (i + 1) (rotl k beta ^^^ link) (l.tail ++ [link])

/-- `Expand(key, v)`: the round keys `K_0 .. K_{T-1}` (R100). -/
def expand (c : Config) (v : Variant) (key : Bytes) : List (BitVec v.w) :=
  expandFrom v.alpha v.beta (c.t v - 1) 0 (keyWord v.w v.m key 0)
    ((List.range (v.m - 1)).map fun t => keyWord v.w v.m key (t + 1))

/-! ## The register-level form -/

/-- `K <- k_0`; `L[t] <- k_{t+1}` for `t` in 0 to `m - 2`; `RK[0] <- K` (R103). -/
def expandLoad (v : Variant) (key : Bytes) (wk : Work) (rk : RoundKeys) : Work × RoundKeys :=
  let k := zext64 (keyWord v.w v.m key 0)
  let l := (List.range (v.m - 1)).foldl
    (fun l t => l.setIfInBounds t (zext64 (keyWord v.w v.m key (t + 1)))) wk.l
  ({ wk with k := k, l := l }, rk.setIfInBounds 0 k)

/-- One step of the loop of R103, with `RND = i` and the circular link buffer position `p = RND mod (m - 1)`. -/
def expandStep (v : Variant) (st : Work × RoundKeys) (i : Nat) : Work × RoundKeys :=
  let rnd := BitVec.ofNat 6 i
  let p := rnd.toNat % (v.m - 1)
  let k := low v.w st.1.k
  let link := (k + rotr (low v.w (entry st.1.l p)) v.alpha) ^^^ rnd.setWidth v.w
  let k' := rotl k v.beta ^^^ link
  ({ st.1 with rnd := rnd, l := st.1.l.setIfInBounds p (zext64 link), k := zext64 k' },
   st.2.setIfInBounds (rnd.toNat + 1) (zext64 k'))

/-- The whole expansion in registers: `RND` runs from 0 to `T - 2` (R103). Entries `T` to 33 keep the zeros they start
with (R23, R104). -/
def expandRegs (c : Config) (v : Variant) (key : Bytes) (wk : Work) : Work × RoundKeys :=
  (List.range (c.t v - 1)).foldl (expandStep v) (expandLoad v key wk (Vector.replicate 34 0))

/-- Phase `EXPAND` into slot `n`: all three parts of the slot are written (R104, R188). -/
def State.expandIntoSlot (s : State) (v : Variant) (n : Nat) : State :=
  let s := s.enter .expand
  let r := expandRegs s.cfg v s.inp.key s.work
  { s.setSlot n { valid := true, var := v, rk := r.2 } with work := r.1 }

/-- Phase `EXPAND` into `TK`, for the commands that take a key and no slot (R34, R188). -/
def State.expandIntoTK (s : State) (v : Variant) : State :=
  let s := s.enter .expand
  let r := expandRegs s.cfg v s.inp.key s.work
  { s with work := { r.1 with tk := r.2 } }

/-! ## The commands -/

/-- `schedule var=v, slot=s` (R104). -/
def execSchedule (var slot : BitVec 4) (s : State) : Result :=
  if slot.toNat < s.nslot then
    match Variant.ofCode var with
    | none => .next (s.begin.raise .unknownVariant)
    | some v =>
      if s.inp.key.length ≠ v.keyBytes then .next (s.begin.raise .invalidKeySize)
      else .next ((s.begin.expandIntoSlot v slot.toNat).finish .ok)
  else .next (s.begin.raise .illegalCommand)

/-- `release slot=s`: releasing an empty slot is `OK` too (R106). -/
def execRelease (slot : BitVec 4) (s : State) : Result :=
  if slot.toNat < s.nslot then .next ((s.begin.setSlot slot.toNat Slot.empty).finish .ok)
  else .next (s.begin.raise .illegalCommand)

end Sys2Proof.Machine
end

