-- ==== Sys2Proof/Machine/BlockCipher.lean ====
section
/-! DEFINITION. The round function and its inverse (spec 42_block_cipher.md R120, R121), the whole-block functions
`Encrypt` and `Decrypt` (R122, R123), their register-level form, and the commands `encrypt_block` (R124) and
`decrypt_block` (R125). -/

namespace Sys2Proof.Machine

/-! ## The functions -/

/-- `Rf(x, y, k)`, with the rotation amounts `α`, `β` (R120). -/
def rf {w : Nat} (alpha beta : Nat) (x y k : BitVec w) : BitVec w × BitVec w :=
  let x := rotr x alpha + y
  let x := x ^^^ k
  let y := rotl y beta ^^^ x
  (x, y)

/-- `Rinv(x, y, k)` (R121). -/
def rinv {w : Nat} (alpha beta : Nat) (x y k : BitVec w) : BitVec w × BitVec w :=
  let y := rotr (y ^^^ x) beta
  let x := x ^^^ k
  let x := rotl (x - y) alpha
  (x, y)

/-- `Encrypt(K, b, v)`: one round per round key, first to last (R122). -/
def encrypt (v : Variant) (ks : List (BitVec v.w)) (b : Bytes) : Bytes :=
  let r := ks.foldl (fun xy k => rf v.alpha v.beta xy.1 xy.2 k) (blockX v.w b, blockY v.w b)
  wordsBlock r.1 r.2

/-- `Decrypt(K, b, v)`: one inverse round per round key, last to first (R123). -/
def decrypt (v : Variant) (ks : List (BitVec v.w)) (b : Bytes) : Bytes :=
  let r := ks.reverse.foldl (fun xy k => rinv v.alpha v.beta xy.1 xy.2 k) (blockX v.w b, blockY v.w b)
  wordsBlock r.1 r.2

/-- The schedule a register array holds for variant `v`: `RK[0][w-1:0], ..., RK[T-1][w-1:0]` (R124). -/
def storedKeys (c : Config) (v : Variant) (rk : RoundKeys) : List (BitVec v.w) :=
  (List.range (c.t v)).map fun i => low v.w (entry rk i)

/-! ## The register-level form -/

/-- One round on `X` and `Y` with the round key `RK[RND]` (R29, R31, R120). -/
def roundStep (v : Variant) (rk : RoundKeys) (wk : Work) (i : Nat) : Work :=
  let rnd := BitVec.ofNat 6 i
  let r := rf v.alpha v.beta (low v.w wk.x) (low v.w wk.y) (low v.w (entry rk rnd.toNat))
  { wk with rnd := rnd, x := zext64 r.1, y := zext64 r.2 }

/-- One inverse round on `X` and `Y` with the round key `RK[RND]` (R121). -/
def invRoundStep (v : Variant) (rk : RoundKeys) (wk : Work) (i : Nat) : Work :=
  let rnd := BitVec.ofNat 6 i
  let r := rinv v.alpha v.beta (low v.w wk.x) (low v.w wk.y) (low v.w (entry rk rnd.toNat))
  { wk with rnd := rnd, x := zext64 r.1, y := zext64 r.2 }

/-- All rounds on `X` and `Y`: `RND` counts 0 up to `T - 1` (R31, R122). -/
def encryptXY (c : Config) (v : Variant) (rk : RoundKeys) (wk : Work) : Work :=
  (List.range (c.t v)).foldl (roundStep v rk) wk

/-- All inverse rounds on `X` and `Y`: `RND` counts `T - 1` down to 0 (R31, R123). -/
def decryptXY (c : Config) (v : Variant) (rk : RoundKeys) (wk : Work) : Work :=
  (List.range (c.t v)).reverse.foldl (invRoundStep v rk) wk

/-- `X` and `Y` are loaded from a block (R29, R53). -/
def loadXY (v : Variant) (b : Bytes) (wk : Work) : Work :=
  { wk with x := zext64 (blockX v.w b), y := zext64 (blockY v.w b) }

/-- The block `X` and `Y` hold (R29, R53). -/
def storeXY (v : Variant) (wk : Work) : Bytes := wordsBlock (low v.w wk.x) (low v.w wk.y)

/-- Phase `BLOCK` with a direction: `IN.block` through the rounds to `OUT.block` (R188). -/
def State.blockPhase (s : State) (v : Variant) (run : Work → Work) : State :=
  let s := s.enter .block
  let wk := run (loadXY v s.inp.block s.work)
  { s with work := wk, out := { s.out with block := storeXY v wk } }

/-! ## The commands -/

/-- What `encrypt_block` and `decrypt_block` share: the checks in the order of R124, then phase `BLOCK`. -/
def blockCommand (slot : BitVec 4) (run : Config → Variant → RoundKeys → Work → Work) (s : State) : Result :=
  match s.slots[slot.toNat]? with
  | none => .next (s.begin.raise .illegalCommand)
  | some sl =>
    if sl.valid then
      if s.inp.block.length ≠ sl.var.blockBytes then .next (s.begin.raise .invalidBlockSize)
      else .next ((s.begin.blockPhase sl.var (run s.cfg sl.var sl.rk)).finish .ok)
    else .next (s.begin.raise .noSchedule)

/-- `encrypt_block slot=s` (R124). -/
def execEncryptBlock (slot : BitVec 4) (s : State) : Result := blockCommand slot encryptXY s

/-- `decrypt_block slot=s` (R125). -/
def execDecryptBlock (slot : BitVec 4) (s : State) : Result := blockCommand slot decryptXY s

end Sys2Proof.Machine
end

