-- ==== Sys2Proof/Machine/Ctr.lean ====
section
/-! DEFINITION. Counter mode: counter blocks, keystream and `CtrStream` (spec 43_ctr.md R142 to R145, R151), the register
form of the CTR unit (R143, 10_state.md R32 to R34), and the command `ctr_crypt` (R146). -/

namespace Sys2Proof.Machine

/-! ## The functions -/

/-- `CtrBlock(N, j) = BEbytes_B((BE(N) + j) mod 2^(2w))` (R142). -/
def ctrBlock (v : Variant) (nonce : Bytes) (j : Nat) : Bytes :=
  beBytes v.blockBytes ((be nonce + j) % 2 ^ (2 * v.w))

/-- Keystream block `KS_j` of the stream with start offset `t` (R144). -/
def keystreamBlock (v : Variant) (ks : List (BitVec v.w)) (nonce : Bytes) (t j : Nat) : Bytes :=
  encrypt v ks (ctrBlock v nonce (t + j))

/-- `CtrStream(K, N, t, d)`: byte `p` of the output is `d[p] XOR KS_{p div B}[p mod B]` (R151). -/
def ctrStream (v : Variant) (ks : List (BitVec v.w)) (nonce : Bytes) (t : Nat) (d : Bytes) : Bytes :=
  d.mapIdx fun p b => b ^^^ (keystreamBlock v ks nonce t (p / v.blockBytes)).getD (p % v.blockBytes) 0

/-! ## The register form -/

/-- `CTRV <- (BE(N) + t) mod 2^(2w)`; `J <- 0` (R32, R33, R143). -/
def ctrLoad (v : Variant) (nonce : Bytes) (t : Nat) (wk : Work) : Work :=
  { wk with ctrv := BitVec.ofNat 128 ((be nonce + t) % 2 ^ (2 * v.w)), j := 0 }

/-- The counter's high word to `X`, its low word to `Y` (R32, R55). -/
def ctrToXY (v : Variant) (wk : Work) : Work :=
  { wk with
    x := zext64 (BitVec.ofNat v.w (wk.ctrv.toNat / 2 ^ v.w))
    y := zext64 (BitVec.ofNat v.w wk.ctrv.toNat) }

/-- `KS` takes the encrypted counter block, its bytes in order (R33, R144). -/
def ctrKeystream (c : Config) (v : Variant) (wk : Work) : Work :=
  let wk := encryptXY c v wk.tk (ctrToXY v wk)
  { wk with ks := loadReg 16 (storeXY v wk) }

/-- `CTRV <- (CTRV + 1) mod 2^(2w)` and `J <- J + 1` after each block (R143). -/
def ctrAdvance (v : Variant) (wk : Work) : Work :=
  { wk with ctrv := BitVec.ofNat 128 ((wk.ctrv.toNat + 1) % 2 ^ (2 * v.w)), j := wk.j + 1 }

/-- One piece of the data: a fresh keystream block, its leading bytes XORed with the piece and written at byte `J·B` of
the destination (R59, R145, R151). -/
def ctrPiece (c : Config) (v : Variant) (st : Work × Bytes) (piece : Bytes) : Work × Bytes :=
  let wk := ctrKeystream c v st.1
  (ctrAdvance v wk, memWrite st.2 (wk.j * v.blockBytes) (xorBytes piece wk.ks.toList))

/-- The CTR unit on a whole operand: the pieces in order, from an empty destination (R143, R151). -/
def ctrRegs (c : Config) (v : Variant) (nonce : Bytes) (t : Nat) (d : Bytes) (wk : Work) : Work × Bytes :=
  (pieces v.blockBytes d).foldl (ctrPiece c v) (ctrLoad v nonce t wk, [])

/-- Phase `CRYPT`: `IN.data` through the CTR unit, from counter `nonce + t`, to `OUT.data` (R182, R188). -/
def State.cryptPhase (s : State) (v : Variant) (t : Nat) : State :=
  let s := s.enter .crypt
  let r := ctrRegs s.cfg v s.inp.nonce t s.inp.data s.work
  { s with work := r.1, out := { s.out with data := r.2 } }

/-! ## The command -/

/-- `ctr_crypt var=v` (R146); data longer than `MAXLEN` has no meaning (R60; log 6). -/
def execCtrCrypt (var : BitVec 4) (s : State) : Result :=
  if s.dataTooLong then .refused .operandTooLong else
  match streamChecks var s.inp with
  | .error st => .next (s.begin.raise st)
  | .ok v => .next (((s.begin.expandIntoTK v).cryptPhase v 0).finish .ok)

end Sys2Proof.Machine
end

