-- ==== Sys2Proof/Machine/Mac.lean ====
section
/-! DEFINITION. The universal-hash MAC accumulator (spec 44_mac.md): the message it sees (R160 to R162), the hash
parameter and its accumulator form (R163, R164), the feeding sequence (R165), and the default instance (R168). It has no
command of its own. -/

namespace Sys2Proof.Machine

/-! ## The message -/

/-- `pad16(s)`: zero bytes up to a multiple of 16, none when the length is one (R160). -/
def pad16 (s : Bytes) : Bytes := s ++ zeros ((16 - s.length % 16) % 16)

/-- `MacMsg(aad, ct)`: both padded, then both lengths in bits, each 8 bytes little-endian (R161, R162). -/
def macMsg (aad ct : Bytes) : Bytes :=
  pad16 aad ++ pad16 ct ++ leBytes 8 (8 * aad.length) ++ leBytes 8 (8 * ct.length)

/-! ## The accumulator -/

/-- The prime `2^130 - 5` of the default instance (R168). -/
def polyPrime : Nat := 2 ^ 130 - 5

/-- The mask on the multiplier of the default instance (R168). -/
def polyMask : BitVec 128 := 0x0ffffffc0ffffffc0ffffffc0fffffff

/-- `mac_init(subkey)` (R164, R168). PRESUMED for the default instance: Poly1305 is general knowledge (log 4). -/
def macInit (h : UHash) (subkey : Bytes) : Acc :=
  match h with
  | .poly1305 =>
    .poly (BitVec.ofNat 128 (le (memRead subkey 0 16)) &&& polyMask)
      (BitVec.ofNat 128 (le (memRead subkey 16 16))) 0
  | .other n => .buffered n subkey []

/-- `mac_absorb(ACC, u)` for one 16-byte unit (R164, R168). -/
def macAbsorb (a : Acc) (u : Bytes) : Acc :=
  match a with
  | .poly r s acc => .poly r s ((acc + (le u + 2 ^ 128)) * r.toNat % polyPrime)
  | .buffered n key msg => .buffered n key (msg ++ u)

/-- `mac_final(ACC)`: 16 bytes (R164, R168). -/
def macFinal (a : Acc) : Bytes :=
  match a with
  | .poly _ s acc => leBytes 16 ((acc + s.toNat) % 2 ^ 128)
  | .buffered n key msg => leBytes 16 (Config.otherUHash n key msg).toNat

/-- The default instance on a whole message, by its recursion over 16-byte units (R168). -/
def poly1305From (r : Nat) : Nat → List Bytes → Nat
  | acc, [] => acc
  | acc, u :: us => poly1305From r ((acc + (le u + 2 ^ 128)) * r % polyPrime) us

/-- The default instance of `UHASH` as a function of the subkey and the message (R168). -/
def poly1305 (subkey msg : Bytes) : Bytes :=
  let r := BitVec.ofNat 128 (le (memRead subkey 0 16)) &&& polyMask
  leBytes 16 ((poly1305From r.toNat 0 (pieces 16 msg) + le (memRead subkey 16 16)) % 2 ^ 128)

/-- `UHASH(subkey, msg)`, the hash parameter as a function (R163). -/
def uhash (h : UHash) (subkey msg : Bytes) : Bytes :=
  match h with
  | .poly1305 => poly1305 subkey msg
  | .other n => leBytes 16 (Config.otherUHash n subkey msg).toNat

/-! ## The feeding sequence -/

/-- `push(b)`: the byte goes to `MBUF[MFILL]`; sixteen bytes are absorbed as one unit (R165). -/
def push (wk : Work) (b : Byte) : Work :=
  let mbuf := wk.mbuf.setIfInBounds wk.mfill b
  if wk.mfill + 1 = 16 then { wk with mbuf := mbuf, mfill := 0, acc := macAbsorb wk.acc mbuf.toList }
  else { wk with mbuf := mbuf, mfill := wk.mfill + 1 }

/-- `while MFILL ≠ 0: push(0x00)`; at most 15 turns are ever needed (R160, R165). -/
def pushPadding : Nat → Work → Work
  | 0, wk => wk
  | n + 1, wk => if wk.mfill = 0 then wk else pushPadding n (push wk 0)

/-- `ACC <- mac_init(MACKEY)`; `MFILL`, `AADBITS`, `CTBITS` to 0 (R165). -/
def macStart (h : UHash) (wk : Work) : Work :=
  { wk with acc := macInit h wk.mackey.toList, mfill := 0, aadbits := 0, ctbits := 0 }

/-- One byte of associated data: `push(byte)`; `AADBITS <- AADBITS + 8` (R165). -/
def pushAad (wk : Work) (b : Byte) : Work :=
  let wk := push wk b
  { wk with aadbits := wk.aadbits + 8 }

/-- One byte of ciphertext: `push(byte)`; `CTBITS <- CTBITS + 8` (R165). -/
def pushCt (wk : Work) (b : Byte) : Work :=
  let wk := push wk b
  { wk with ctbits := wk.ctbits + 8 }

/-- `MAC_AAD` on the working registers (R165). -/
def macAadRegs (h : UHash) (aad : Bytes) (wk : Work) : Work :=
  pushPadding 15 (aad.foldl pushAad (macStart h wk))

/-- `MAC_CT` on the working registers (R165). -/
def macCtRegs (ct : Bytes) (wk : Work) : Work := pushPadding 15 (ct.foldl pushCt wk)

/-- `MAC_LEN` on the working registers: the two length fields, then `TAGREG <- mac_final(ACC)` (R165). -/
def macLenRegs (wk : Work) : Work :=
  let wk := (leBytes 8 wk.aadbits.toNat ++ leBytes 8 wk.ctbits.toNat).foldl push wk
  { wk with tagreg := loadReg 16 (macFinal wk.acc) }

/-- Phase `MAC_AAD`: the accumulator starts and absorbs `IN.aad` (R165, R166, R188). -/
def State.macAadPhase (s : State) : State :=
  let s := s.enter .macAad
  { s with work := macAadRegs s.cfg.uhash s.inp.aad s.work }

/-- Phase `MAC_CT` over the ciphertext `ct`: `OUT.data` when encrypting, `IN.data` when decrypting (R165, R166). -/
def State.macCtPhase (s : State) (ct : Bytes) : State :=
  let s := s.enter .macCt
  { s with work := macCtRegs ct s.work }

/-- Phase `MAC_LEN` (R165, R188). -/
def State.macLenPhase (s : State) : State :=
  let s := s.enter .macLen
  { s with work := macLenRegs s.work }

end Sys2Proof.Machine
end

