-- ==== Sys2Proof/Machine/Aead.lean ====
section
/-! DEFINITION. The AEAD controller (spec 45_aead.md): the composition (R181, R182, R190), its phases (R188), and the
commands `aead_encrypt` (R183) and `aead_decrypt` (R184). -/

namespace Sys2Proof.Machine

/-! ## The functions -/

/-- The MAC subkey: the first 32 keystream bytes at the nonce (R181). -/
def macSubkey (v : Variant) (ks : List (BitVec v.w)) (nonce : Bytes) : Bytes :=
  ctrStream v ks nonce 0 (zeros 32)

/-- The tag of associated data and ciphertext (R190). -/
def aeadTag (h : UHash) (v : Variant) (ks : List (BitVec v.w)) (nonce aad ct : Bytes) : Bytes :=
  uhash h (macSubkey v ks nonce) (macMsg aad ct)

/-! ## The phases -/

/-- Phase `SUBKEY`: 32 zero bytes through the CTR unit at counter `nonce + 0`, to `MACKEY` (R181, R188). -/
def State.subkeyPhase (s : State) (v : Variant) : State :=
  let s := s.enter .subkey
  let r := ctrRegs s.cfg v s.inp.nonce 0 (zeros 32) s.work
  { s with work := { r.1 with mackey := loadReg 32 r.2 } }

/-- Phase `COMPARE`: `TAGOK <- TagEq(TAGREG, IN.tag)` (R186, R188). -/
def State.comparePhase (s : State) : State :=
  let s := s.enter .compare
  { s with work := { s.work with tagok := tagEq s.work.tagreg.toList s.inp.tag } }

/-- `OUT.tag <- TAGREG` (R183, R190). -/
def State.outTag (s : State) : State := { s with out := { s.out with tag := s.work.tagreg.toList } }

/-- The phases of `aead_encrypt` after `CHECK` (R188). -/
def State.sealPhases (s : State) (v : Variant) : State :=
  let s := s.expandIntoTK v
  let s := s.subkeyPhase v
  let s := s.cryptPhase v 1
  let s := s.macAadPhase
  let s := s.macCtPhase s.out.data
  let s := s.macLenPhase
  s.outTag

/-- The phases of `aead_decrypt` after `CHECK`, up to `COMPARE` (R188). -/
def State.verifyPhases (s : State) (v : Variant) : State :=
  let s := s.expandIntoTK v
  let s := s.subkeyPhase v
  let s := s.macAadPhase
  let s := s.macCtPhase s.inp.data
  let s := s.macLenPhase
  s.comparePhase

/-! ## The commands -/

/-- `aead_encrypt var=v` (R183); data or associated data longer than `MAXLEN` has no meaning (R60; log 6). -/
def execAeadEncrypt (var : BitVec 4) (s : State) : Result :=
  if s.dataTooLong || s.aadTooLong then .refused .operandTooLong else
  match streamChecks var s.inp with
  | .error st => .next (s.begin.raise st)
  | .ok v => .next ((s.begin.sealPhases v).finish .ok)

/-- `aead_decrypt var=v` (R184): the tag length is tested before the cipher runs (R185), and `OUT.data` is written only
after the tag matched (R192). -/
def execAeadDecrypt (var : BitVec 4) (s : State) : Result :=
  if s.dataTooLong || s.aadTooLong then .refused .operandTooLong else
  match streamChecks var s.inp with
  | .error st => .next (s.begin.raise st)
  | .ok v =>
    if s.inp.tag.length ≠ 16 then .next (s.begin.raise .authenticationFailed)
    else
      let s := s.begin.verifyPhases v
      if s.work.tagok then .next ((s.cryptPhase v 1).finish .ok)
      else .next (s.raise .authenticationFailed)

end Sys2Proof.Machine
end

