-- ==== Sys2Proof/Machine/VariantInfo.lean ====
section
/-! DEFINITION. The command `variant_info`, the registry lookup (spec 40_variant_registry.md R93). -/

namespace Sys2Proof.Machine

/-- The 8 bytes of `OUT.info`: block bits, key bits (two bytes, big-endian), `w`, `m`, `T`, `α`, `β` (R93). -/
def infoBytes (p : Params) : Bytes :=
  beBytes 1 (2 * p.w) ++ beBytes 2 (p.m * p.w) ++ beBytes 1 p.w ++ beBytes 1 p.m ++ beBytes 1 p.t ++
    beBytes 1 p.alpha ++ beBytes 1 p.beta

/-- `variant_info var=v` (R93). -/
def execVariantInfo (var : BitVec 4) (s : State) : Result :=
  match Variant.ofCode var with
  | none => .next (s.begin.raise .unknownVariant)
  | some v =>
    let s := s.begin
    .next ({ s with out := { s.out with info := infoBytes (params s.cfg v) } }.finish .ok)

end Sys2Proof.Machine
end

