-- ==== Sys2Proof/Machine/Dispatch.lean ====
section
/-! DEFINITION. One arm per command: which meaning each constructor of Instr has (spec 30_encoding.md R72). -/

namespace Sys2Proof.Machine

def exec (i : Instr) (s : State) : Host.Outcome State Fault Refusal :=
  match i with
  | .variantInfo var => Sys2Proof.Machine.execVariantInfo var s
  | .schedule var slot => Sys2Proof.Machine.execSchedule var slot s
  | .release slot => Sys2Proof.Machine.execRelease slot s
  | .encryptBlock slot => Sys2Proof.Machine.execEncryptBlock slot s
  | .decryptBlock slot => Sys2Proof.Machine.execDecryptBlock slot s
  | .ctrCrypt var => Sys2Proof.Machine.execCtrCrypt var s
  | .aeadEncrypt var => Sys2Proof.Machine.execAeadEncrypt var s
  | .aeadDecrypt var => Sys2Proof.Machine.execAeadDecrypt var s

end Sys2Proof.Machine
end

