-- ==== Sys2Proof/Machine/HostPort.lean ====
section
/-! DEFINITION. What each access of the host does: register numbers (spec 20_memory.md R62), `CMD`, `STATUS`,
`SLOTINFO[s]` (10_state.md R26 to R28), the operand buffers (R50) and reset (70_reset_and_hazards.md R240). -/

namespace Sys2Proof.Machine

/-- A write of the command word `c` to `CMD`: an illegal word ends with `ILLEGAL_COMMAND`, tested on the word alone;
a legal one runs to completion (R27, R76, R217). -/
def issue (c : CmdWord) (s : State) : Result :=
  match decode c with
  | .error _ => .next (s.begin.raise .illegalCommand)
  | .ok i => exec i s

/-- A host write of register `n`: `CMD` issues a command; `STATUS` and `SLOTINFO[s]` are read-only and reserved numbers
are not writable, so a write of either is refused (R26 to R28, U15, U16). -/
def writeRegister (n : Nat) (v : BitVec 32) (s : State) : Result :=
  if n = 0 then issue v s
  else if n = 1 then .refused .writeOfReadOnly
  else if 16 ≤ n ∧ n < 16 + s.nslot then .refused .writeOfReadOnly
  else if n < 32 then .refused .writeOfReserved
  else .refused .noSuchRegister

/-- What a host read of register `n` returns: `STATUS`, a view `SLOTINFO[s]`, or 0 for a reserved number; `CMD` keeps no
value and its read is refused (R26 to R28, U15, U16). -/
def readRegister (n : Nat) (s : State) : Except Refusal (BitVec 32) :=
  if n = 0 then .error .readOfCmd
  else if n = 1 then .ok s.status
  else if 16 ≤ n ∧ n < 16 + s.nslot then .ok ((s.slots[n - 16]?.map Slot.info).getD 0)
  else if n < 32 then .ok 0
  else .error .noSuchRegister

/-- An input buffer takes the host's bytes; the length is part of the operand (R50). -/
def InBufs.fill (i : InBufs) (b : InBuf) (s : Bytes) : InBufs :=
  match b with
  | .key => { i with key := s }
  | .nonce => { i with nonce := s }
  | .block => { i with block := s }
  | .data => { i with data := s }
  | .aad => { i with aad := s }
  | .tag => { i with tag := s }

/-- The content of an output buffer (R50, R61). -/
def OutBufs.get (o : OutBufs) (b : OutBuf) : Bytes :=
  match b with
  | .block => o.block
  | .data => o.data
  | .tag => o.tag
  | .info => o.info

/-- The reset event: every piece of state takes its value of R46; the parameters are not state, and the host's own
queue and what it has already read are not the core's (R240; log 9). -/
def State.resetEvent (s : State) : State :=
  { cfg := s.cfg, slots := List.replicate s.nslot Slot.empty, status := 0, work := Work.reset
    inp := InBufs.empty, out := OutBufs.empty, host := s.host, reply := s.reply }

/-- One access of the host, served to completion (R27, R64). -/
def serve (r : HostReq) (s : State) : Result :=
  match r with
  | .writeReg n v => writeRegister n v s
  | .readReg n =>
    match readRegister n s with
    | .ok v => .next { s with reply := .word v }
    | .error e => .refused e
  | .fill b bytes => .next { s with inp := s.inp.fill b bytes }
  | .readOut b => .next { s with reply := .bytes (s.out.get b) }
  | .reset => .next s.resetEvent

end Sys2Proof.Machine
end

