-- ==== Sys2Proof/Machine/Step.lean ====
section
/-! DEFINITION. One step: the host's oldest pending access is served (spec 20_memory.md R64, 00_scope.md R7). -/

namespace Sys2Proof.Machine

/-- Serve the oldest access; with none pending the core waits (R240; log 2). -/
def step (s : State) : Host.Outcome State Fault Refusal :=
  match s.host with
  | [] => .next s
  | r :: rest => serve r { s with host := rest }

/-- The command word `w` of `nbits` bits placed where the next step takes it: a write of `CMD` at the head of the host's
queue (R27; log 2). -/
def State.withFetchWord (s : State) (nbits w : Nat) : State :=
  { s with host := .writeReg 0 (BitVec.ofNat 32 (w % 2 ^ nbits)) :: s.host }

end Sys2Proof.Machine
end

