-- ==== Sys2Proof/Machine/Wrapper.lean ====
section
/-! DEFINITION. The high-level safety wrapper (spec 46_wrapper.md R200 to R204): a collaborator on the host's side, outside
the core. Its three pseudo-instructions are what the host does to the core, so they are functions to lists of host
accesses. -/

namespace Sys2Proof.Machine

/-- A call of a wrapper entry point (R203). The caller may leave the 12-byte nonce out when encrypting (R201, R204). -/
inductive HlCall where
  | ctrCrypt (var : BitVec 4) (key : Bytes) (nonce : Option Bytes) (data : Bytes)
  | aeadEncrypt (var : BitVec 4) (key : Bytes) (nonce : Option Bytes) (data aad : Bytes)
  | aeadDecrypt (var : BitVec 4) (key : Bytes) (nonce : Bytes) (data aad tag : Bytes)
  deriving DecidableEq, Repr

/-- The variant code of a call. -/
def HlCall.var : HlCall → BitVec 4
  | .ctrCrypt var _ _ _ => var
  | .aeadEncrypt var _ _ _ _ => var
  | .aeadDecrypt var _ _ _ _ _ => var

/-- The 12-byte nonce of a call: the caller's, or the 96-bit draw when none is given. The draw is free: any 12 bytes under
no law (R204; log 16). -/
def HlCall.nonce96 (c : HlCall) (draw : BitVec 96) : Bytes :=
  match c with
  | .ctrCrypt _ _ n _ => n.getD (beBytes 12 draw.toNat)
  | .aeadEncrypt _ _ n _ _ => n.getD (beBytes 12 draw.toNat)
  | .aeadDecrypt _ _ n _ _ _ => n

/-- The wrapper admits the three 128-bit-block variants only, codes 7, 8 and 9 (R200). -/
def hlAdmits (var : BitVec 4) : Bool := var = 7 || var = 8 || var = 9

/-- The core's nonce operand: the 12 bytes followed by a 32-bit zero counter suffix (R201). -/
def hlNonce (n96 : Bytes) : Bytes := n96 ++ zeros 4

/-- The core command of a call (R203). -/
def HlCall.instr : HlCall → Instr
  | .ctrCrypt var _ _ _ => .ctrCrypt var
  | .aeadEncrypt var _ _ _ _ => .aeadEncrypt var
  | .aeadDecrypt var _ _ _ _ _ => .aeadDecrypt var

/-- The buffers the wrapper fills before the command, other than the nonce (R203). DESIGN CHOICE: R203 says nothing of the
buffers it does not list, and the wrapper leaves them as they were; the command does not read them (R52; log 20). -/
def HlCall.fills : HlCall → List HostReq
  | .ctrCrypt _ key _ data => [.fill .key key, .fill .data data]
  | .aeadEncrypt _ key _ data aad => [.fill .key key, .fill .data data, .fill .aad aad]
  | .aeadDecrypt _ key _ data aad tag => [.fill .key key, .fill .data data, .fill .aad aad, .fill .tag tag]

/-- The expansion of a call: refused by the wrapper without a core command when the variant is not admitted (R200) or the
nonce is not 12 bytes (R201), otherwise the buffer fills and one core command (R203). No capacity check is made. DESIGN
CHOICE: the spec orders no two of the wrapper's refusals; the variant is tested first, then the nonce length, and the key
not at all: its length is the core's check (R141; log 19). -/
def HlCall.expand (c : HlCall) (draw : BitVec 96) : Except Status (List HostReq) :=
  if hlAdmits c.var then
    if (c.nonce96 draw).length ≠ 12 then .error .invalidNonceSize
    else .ok (c.fills ++ [.fill .nonce (hlNonce (c.nonce96 draw)), .writeReg 0 (encode c.instr)])
  else .error .unknownVariant

/-- The core's operands of a call, over the buffers `inp` the wrapper leaves alone (R203). -/
def HlCall.operands (c : HlCall) (draw : BitVec 96) (inp : InBufs) : InBufs :=
  let nonce := hlNonce (c.nonce96 draw)
  match c with
  | .ctrCrypt _ key _ data => { inp with key := key, nonce := nonce, data := data }
  | .aeadEncrypt _ key _ data aad => { inp with key := key, nonce := nonce, data := data, aad := aad }
  | .aeadDecrypt _ key _ data aad tag => { inp with key := key, nonce := nonce, data := data, aad := aad, tag := tag }

/-- What a wrapper call returns (R203). -/
structure HlReturn where
  status : BitVec 32
  data : Bytes
  tag : Bytes
  nonce : Option Bytes
  deriving DecidableEq, Repr

/-- The return of a call from the core's state `t` after its command: the outputs, and for the two encrypting entry points
the 12-byte nonce (R201, R203). -/
def HlCall.returned (c : HlCall) (draw : BitVec 96) (t : State) : HlReturn :=
  match c with
  | .aeadDecrypt _ _ _ _ _ _ => { status := t.status, data := t.out.data, tag := [], nonce := none }
  | .ctrCrypt _ _ _ _ => { status := t.status, data := t.out.data, tag := [], nonce := some (c.nonce96 draw) }
  | .aeadEncrypt _ _ _ _ _ =>
    { status := t.status, data := t.out.data, tag := t.out.tag, nonce := some (c.nonce96 draw) }

end Sys2Proof.Machine
end

