-- ==== Sys2Proof/Safety.lean ====
section
/-! DEFINITION. What claims are stated in terms of: the machine invariant (spec 10_state.md R23, R25, R26, R44), what the
host can and cannot distinguish (R43), the accesses the spec gives a meaning (R60, 93_implementation_defined.md U13, U15,
U16), and the premises of security claims (70_reset_and_hazards.md R243, R244, R248). -/

namespace Sys2Proof.Machine

/-! ## The invariant -/

/-- The register image of a schedule: round keys zero-extended to 64 bits, then zeros up to 34 entries (R23). -/
def scheduleImage {w : Nat} (ks : List (BitVec w)) : List Word64 :=
  ks.map zext64 ++ List.replicate (34 - ks.length) 0

/-- A slot is empty, or holds the expansion of some key of its variant's length (R23, R25). -/
def Slot.Wf (c : Config) (sl : Slot) : Prop :=
  (sl.valid = false ∧ sl = Slot.empty) ∨
    (sl.valid = true ∧ ∃ key : Bytes, key.length = sl.var.keyBytes ∧
      sl.rk.toList = scheduleImage (expand c sl.var key))

/-- The machine invariant: parameters in range (R8), 1 to 16 slots (R23), every slot well formed (R25), `STATUS` one of
the eight codes with bits [31:8] zero (R26, R210), every working register at its reset value (R44). -/
structure State.Inv (s : State) : Prop where
  cfg : s.cfg.wf = true
  nslot : 1 ≤ s.nslot ∧ s.nslot ≤ 16
  slots : ∀ sl ∈ s.slots, Slot.Wf s.cfg sl
  status : ∃ st : Status, s.status = st.word
  work : s.work = Work.reset

/-! ## What the host can observe -/

/-- Two slots the host cannot tell apart: both empty, or both valid with the same variant and the same logical round keys
`RK[s][0..T-1]` (R43). -/
def Slot.Alike (c : Config) (a b : Slot) : Prop :=
  a.valid = b.valid ∧
    (a.valid = true → a.var = b.var ∧ ∀ i, i < c.t a.var → low a.var.w (entry a.rk i) = low a.var.w (entry b.rk i))

/-- Two states that agree on everything R43 lets the host's commands depend on. The working registers, the upper bits and
the unused entries of `RK`, and the contents of empty slots may differ. -/
structure State.Alike (s t : State) : Prop where
  cfg : s.cfg = t.cfg
  nslot : s.nslot = t.nslot
  slots : ∀ (n : Nat) (a b : Slot), s.slots[n]? = some a → t.slots[n]? = some b → Slot.Alike s.cfg a b
  status : s.status = t.status
  inp : s.inp = t.inp
  out : s.out = t.out
  host : s.host = t.host
  reply : s.reply = t.reply

/-- The same outcome as far as the host can see: the same refusal, or next states that are alike. -/
def SameOutcome (a b : Result) : Prop :=
  match a, b with
  | .next s, .next t => State.Alike s t
  | .refused r, .refused q => r = q
  | .fault r, .fault q => r = q
  | _, _ => False

/-! ## Accesses with a meaning -/

/-- The lengths of the operands a command reads are within `MAXLEN` (R52, R60). -/
def withinMaxlen (i : Instr) (s : State) : Bool :=
  match i with
  | .ctrCrypt _ => !s.dataTooLong
  | .aeadEncrypt _ => !s.dataTooLong && !s.aadTooLong
  | .aeadDecrypt _ => !s.dataTooLong && !s.aadTooLong
  | .variantInfo _ => true
  | .schedule _ _ => true
  | .release _ => true
  | .encryptBlock _ => true
  | .decryptBlock _ => true

/-- The spec gives the access a meaning: everything but the inputs of U13, U15 and U16 and the register numbers above 31. -/
def HostReq.meaningful (r : HostReq) (s : State) : Bool :=
  match r with
  | .writeReg n c =>
    decide (n = 0) &&
      match decode c with
      | .ok i => withinMaxlen i s
      | .error _ => true
  | .readReg n => decide (n ≠ 0) && (decide (n < 32) || decide (n < 16 + s.nslot))
  | .fill _ _ => true
  | .readOut _ => true
  | .reset => true

/-- The operands of a stream command for variant `v` pass every check: the variant is stream-capable (R140), key and nonce
have its lengths (R141), the data is within `MAXLEN` (R60), and the parameters are in range (R8). -/
structure State.StreamReady (s : State) (v : Variant) : Prop where
  cfg : s.cfg.wf = true
  capable : v.streamCapable = true
  key : s.inp.key.length = v.keyBytes
  nonce : s.inp.nonce.length = v.blockBytes
  data : s.inp.data.length ≤ s.cfg.maxlen

/-! ## Which status a command ends with -/

/-- The key has not the length the variant code asks for (R58); false when the code names no variant. -/
def keySizeWrong (var : BitVec 4) (inp : InBufs) : Bool :=
  match Variant.ofCode var with
  | some v => decide (inp.key.length ≠ v.keyBytes)
  | none => false

/-- The nonce has not the length the variant code asks for (R58); false when the code names no variant. -/
def nonceSizeWrong (var : BitVec 4) (inp : InBufs) : Bool :=
  match Variant.ofCode var with
  | some v => decide (inp.nonce.length ≠ v.blockBytes)
  | none => false

/-- The tag given differs from the tag recomputed over the received ciphertext (R184); false when the code names no
variant. -/
def tagMismatch (var : BitVec 4) (s : State) : Bool :=
  match Variant.ofCode var with
  | some v => decide (s.inp.tag ≠
      aeadTag s.cfg.uhash v (expand s.cfg v s.inp.key) s.inp.nonce s.inp.aad s.inp.data)
  | none => false

/-- The code is not in the stream set 0, 3, 4, 7, 8, 9 (R140). -/
def notStreamCode (var : BitVec 4) : Bool := !([0, 3, 4, 7, 8, 9] : List Nat).contains var.toNat

/-- The conditions of the table of R211 for one command, in the order of R216. -/
def statusConditions (i : Instr) (s : State) : List (Status × Bool) :=
  match i with
  | .variantInfo var => [(.unknownVariant, decide (9 < var.toNat))]
  | .schedule var slot =>
    [(.illegalCommand, decide (s.nslot ≤ slot.toNat)), (.unknownVariant, decide (9 < var.toNat)),
     (.invalidKeySize, keySizeWrong var s.inp)]
  | .release slot => [(.illegalCommand, decide (s.nslot ≤ slot.toNat))]
  | .encryptBlock slot => blockConditions slot
  | .decryptBlock slot => blockConditions slot
  | .ctrCrypt var => streamConditions var
  | .aeadEncrypt var => streamConditions var
  | .aeadDecrypt var =>
    streamConditions var ++
      [(.authenticationFailed, decide (s.inp.tag.length ≠ 16)), (.authenticationFailed, tagMismatch var s)]
where
  blockConditions (slot : BitVec 4) : List (Status × Bool) :=
    let sl := (s.slots[slot.toNat]?).getD Slot.empty
    [(.illegalCommand, decide (s.nslot ≤ slot.toNat)), (.noSchedule, !sl.valid),
     (.invalidBlockSize, decide (s.inp.block.length ≠ sl.var.blockBytes))]
  streamConditions (var : BitVec 4) : List (Status × Bool) :=
    [(.unknownVariant, notStreamCode var), (.invalidKeySize, keySizeWrong var s.inp),
     (.invalidNonceSize, nonceSizeWrong var s.inp)]

/-- The status of the first condition that holds, `OK` when none does (R216). -/
def firstFailure (l : List (Status × Bool)) : Status :=
  match l with
  | [] => .ok
  | (st, true) :: _ => st
  | (_, false) :: l => firstFailure l

/-! ## Which buffers a command reads -/

/-- The two operand sets agree on every buffer the command reads (R52). -/
def SameReads (i : Instr) (a b : InBufs) : Prop :=
  match i with
  | .variantInfo _ => True
  | .schedule _ _ => a.key = b.key
  | .release _ => True
  | .encryptBlock _ => a.block = b.block
  | .decryptBlock _ => a.block = b.block
  | .ctrCrypt _ => a.key = b.key ∧ a.nonce = b.nonce ∧ a.data = b.data
  | .aeadEncrypt _ => a.key = b.key ∧ a.nonce = b.nonce ∧ a.data = b.data ∧ a.aad = b.aad
  | .aeadDecrypt _ => a.key = b.key ∧ a.nonce = b.nonce ∧ a.data = b.data ∧ a.aad = b.aad ∧ a.tag = b.tag

/-- The output buffers the command does not write are empty (R52). -/
def UnlistedEmpty (i : Instr) (o : OutBufs) : Prop :=
  match i with
  | .variantInfo _ => o.block = [] ∧ o.data = [] ∧ o.tag = []
  | .schedule _ _ => o = OutBufs.empty
  | .release _ => o = OutBufs.empty
  | .encryptBlock _ => o.data = [] ∧ o.tag = [] ∧ o.info = []
  | .decryptBlock _ => o.data = [] ∧ o.tag = [] ∧ o.info = []
  | .ctrCrypt _ => o.block = [] ∧ o.tag = [] ∧ o.info = []
  | .aeadEncrypt _ => o.block = [] ∧ o.info = []
  | .aeadDecrypt _ => o.block = [] ∧ o.tag = [] ∧ o.info = []

/-! ## Premises of security claims -/

/-- The counter values of one stream of `n` bytes from offset `t`: one per block (R244). -/
def streamRange (v : Variant) (nonce : Bytes) (t n : Nat) : List Nat :=
  (List.range ((n + v.blockBytes - 1) / v.blockBytes)).map fun j => (be nonce + (t + j)) % 2 ^ (2 * v.w)

/-- The counter range of `ctr_crypt` (R244). -/
def ctrRange (v : Variant) (nonce : Bytes) (n : Nat) : List Nat := streamRange v nonce 0 n

/-- The counter range of `aead_encrypt` and `aead_decrypt` (R244). -/
def aeadRange (v : Variant) (nonce : Bytes) (n : Nat) : List Nat :=
  (List.range (max (32 / v.blockBytes) (1 + (n + v.blockBytes - 1) / v.blockBytes))).map fun j =>
    (be nonce + j) % 2 ^ (2 * v.w)

/-- Two commands under one key use no counter value in common: the premise of R243, which the core does not check. -/
def disjointRanges (a b : List Nat) : Bool := a.all fun c => !b.contains c

/-- The capacity a host of the wrapper must respect: 2^32 counter blocks of 16 bytes after the nonce, of which an AEAD
message has one block less for its data (R202, R248). -/
def HlCall.withinCapacity : HlCall → Bool
  | .ctrCrypt _ _ _ data => decide (data.length ≤ 2 ^ 32 * 16)
  | .aeadEncrypt _ _ _ data _ => decide (data.length ≤ (2 ^ 32 - 1) * 16)
  | .aeadDecrypt _ _ _ data _ _ => decide (data.length ≤ (2 ^ 32 - 1) * 16)

end Sys2Proof.Machine
end

