-- ==== Sys2Proof/Certificates/Slice0/Obligations.lean ====
section
/-! DEFINITION. The statements for the provers. Each docstring names the rules of spec/ it formalises; where it rests on a
choice of the model it names the log entry (notes/assumptions). -/

section
open Sys2Proof Sys2Proof.Machine

/-! ## Command words -/

/-- R71, R72, R77: every command has exactly one word, and that word decodes to it, whatever its operand fields. Marked
by the spec as its own: R71 (D2), R72 (D3), R77 (D26). -/
def Obligations.DecodeExactlyInvertsEncode : Prop :=
  ∀ (c : CmdWord) (i : Instr), decode c = .ok i ↔ encode i = c

/-- R77: a word selects a row of the opcode table exactly when it decodes to a command of that row, and it selects at
most one row. Marked by the spec as its own: R77 (D26). -/
def Obligations.TableRowSelectsItsCommands : Prop :=
  ∀ c : CmdWord,
    (∀ r ∈ opcodeTable, r.selects c = true ↔ ∃ i, decode c = .ok i ∧ i.mnemonic = r.mnemonic) ∧
      (opcodeTable.filter fun r => r.selects c).length ≤ 1

/-- R71, R72, R82: the word for operation `op`, variant `v`, slot `s` is `op + 16·v + 256·s`; every legal word is below
`0x1000`, on a core with any number of slots, and with one slot there are 83 of them. Marked by the spec as its own:
R71 (D2), R72 (D3), R82 (derived). -/
def Obligations.WordsAreFieldSums : Prop :=
  (∀ var slot : BitVec 4,
    (encode (.variantInfo var)).toNat = 16 * var.toNat ∧
    (encode (.schedule var slot)).toNat = 1 + 16 * var.toNat + 256 * slot.toNat ∧
    (encode (.release slot)).toNat = 2 + 256 * slot.toNat ∧
    (encode (.encryptBlock slot)).toNat = 3 + 256 * slot.toNat ∧
    (encode (.decryptBlock slot)).toNat = 4 + 256 * slot.toNat ∧
    (encode (.ctrCrypt var)).toNat = 5 + 16 * var.toNat ∧
    (encode (.aeadEncrypt var)).toNat = 6 + 16 * var.toNat ∧
    (encode (.aeadDecrypt var)).toNat = 7 + 16 * var.toNat) ∧
  (∀ (n : Nat) (c : CmdWord), legalWord n c = true → c.toNat < 0x1000) ∧
  ((List.range 0x1000).filter fun k => legalWord 1 (BitVec.ofNat 32 k)).length = 83

/-- The example words of R93, R104, R106, R124, R125, R146, R183 and R184 and the words of the table of V61 decode to the
commands they stand for, or to none; three words of V61 decode and are illegal on the two slots of V61, as R77 makes
the slot test after the match. The words 0x000000c1 of P4, 0x00000103 of P3 and 0x00000075 of V20 decode too. Marked
by the spec as its own: R77 (D26). -/
def Obligations.PrintedWordsDecode : Prop :=
  (decode 0x00000000 = .ok (.variantInfo 0) ∧ decode 0x00000001 = .ok (.schedule 0 0) ∧
    decode 0x00000002 = .ok (.release 0) ∧ decode 0x00000003 = .ok (.encryptBlock 0) ∧
    decode 0x00000004 = .ok (.decryptBlock 0) ∧ decode 0x00000005 = .ok (.ctrCrypt 0) ∧
    decode 0x00000076 = .ok (.aeadEncrypt 7) ∧ decode 0x00000077 = .ok (.aeadDecrypt 7)) ∧
  (decode 0x000000a1 = .ok (.schedule 10 0) ∧ decode 0x000000a5 = .ok (.ctrCrypt 10) ∧
    decode 0x00000015 = .ok (.ctrCrypt 1) ∧ decode 0x00000025 = .ok (.ctrCrypt 2) ∧
    decode 0x00000055 = .ok (.ctrCrypt 5) ∧ decode 0x00000065 = .ok (.ctrCrypt 6) ∧
    decode 0x00000102 = .ok (.release 1) ∧ decode 0x00000203 = .ok (.encryptBlock 2) ∧
    decode 0x00000201 = .ok (.schedule 0 2) ∧ decode 0x00000202 = .ok (.release 2)) ∧
  ([0x00000008, 0x0000000f, 0x00001000, 0x80000000, 0x00000105, 0x00000106, 0x00000107, 0x00000012, 0x00000072,
      0x00000074, 0x000000a3] : List CmdWord).map (fun c => (decode c).toOption) = List.replicate 11 none ∧
  ([0x00000203, 0x00000201, 0x00000202] : List CmdWord).map (legalWord 2) = [false, false, false] ∧
  decode 0x000000c1 = .ok (.schedule 12 0) ∧ decode 0x00000103 = .ok (.encryptBlock 1) ∧
  decode 0x00000075 = .ok (.ctrCrypt 7)

/-- R76, R217: the five ways a word is illegal, each tested on the word alone. Such a command ends with `ILLEGAL_COMMAND`
(7), reads no buffer, leaves every slot, and leaves the output buffers empty (R61, R214). Marked by the spec as its
own: R76 (D26), R217 (D26), R61 (D7), R214 (D7). -/
def Obligations.IllegalWordsEndIllegal : Prop :=
  ∀ (c : CmdWord) (s : State) (rest : List HostReq),
    s.host = .writeReg 0 c :: rest →
    zeroOf c ≠ 0 ∨ 8 ≤ (opOf c).toNat ∨
      ((opOf c).toNat ∉ [0, 1, 5, 6, 7] ∧ varOf c ≠ 0) ∨
      ((opOf c).toNat ∉ [1, 2, 3, 4] ∧ slotOf c ≠ 0) ∨
      ((opOf c).toNat ∈ [1, 2, 3, 4] ∧ s.nslot ≤ (slotOf c).toNat) →
    step s = .next { s with host := rest, status := 7, out := OutBufs.empty, work := Work.reset }

/-! ## The host's accesses -/

/-- R27: a step whose pending access writes a legal command word to `CMD` is `exec` of the decoded command, the access
taken from the queue (log 2). `withFetchWord` puts exactly that access first. Marked by the spec as its own: R27
(D2). -/
def Obligations.StepRunsDecodedCommand : Prop :=
  (∀ (s : State) (c : CmdWord) (i : Instr) (rest : List HostReq),
    s.host = .writeReg 0 c :: rest → decode c = .ok i → step s = exec i { s with host := rest }) ∧
  (∀ (s : State) (c : CmdWord) (i : Instr), decode c = .ok i → step (s.withFetchWord 32 c.toNat) = exec i s)

/-- R26, R28, U15, U16: what a host read of each register returns. `SLOTINFO` is bit [0] `VALID`, bits [7:4] `VAR` when
valid; reserved numbers read as zero; `CMD` has nothing to read back. Numbers above 31 are refused by the model's own
choice (log 10). Marked by the spec as its own: R26 (D6), R28 (D5). -/
def Obligations.HostReadsRegisters : Prop :=
  ∀ (s : State) (n : Nat) (rest : List HostReq), s.host = .readReg n :: rest →
    (n = 0 → step s = .refused .readOfCmd) ∧
    (n = 1 → step s = .next { s with host := rest, reply := .word s.status }) ∧
    (∀ (k : Nat) (sl : Slot), n = 16 + k → s.slots[k]? = some sl →
      step s = .next { s with
        host := rest
        reply := .word (if sl.valid then BitVec.ofNat 32 (1 + 16 * sl.var.code.toNat) else 0) }) ∧
    (2 ≤ n → n < 32 → (n < 16 ∨ 16 + s.nslot ≤ n) →
      step s = .next { s with host := rest, reply := .word 0 }) ∧
    (32 ≤ n → 16 + s.nslot ≤ n → step s = .refused .noSuchRegister)

/-- R50, R61: filling an input buffer sets that buffer only, its length included; reading an output buffer returns it and
changes nothing else. Marked by the spec as its own: R50 (D20), R61 (D7). -/
def Obligations.HostBufferAccesses : Prop :=
  ∀ (s : State) (b : Bytes) (rest : List HostReq),
    (s.host = .fill .key b :: rest → step s = .next { s with host := rest, inp := { s.inp with key := b } }) ∧
    (s.host = .fill .nonce b :: rest → step s = .next { s with host := rest, inp := { s.inp with nonce := b } }) ∧
    (s.host = .fill .block b :: rest → step s = .next { s with host := rest, inp := { s.inp with block := b } }) ∧
    (s.host = .fill .data b :: rest → step s = .next { s with host := rest, inp := { s.inp with data := b } }) ∧
    (s.host = .fill .aad b :: rest → step s = .next { s with host := rest, inp := { s.inp with aad := b } }) ∧
    (s.host = .fill .tag b :: rest → step s = .next { s with host := rest, inp := { s.inp with tag := b } }) ∧
    (s.host = .readOut .block :: rest → step s = .next { s with host := rest, reply := .bytes s.out.block }) ∧
    (s.host = .readOut .data :: rest → step s = .next { s with host := rest, reply := .bytes s.out.data }) ∧
    (s.host = .readOut .tag :: rest → step s = .next { s with host := rest, reply := .bytes s.out.tag }) ∧
    (s.host = .readOut .info :: rest → step s = .next { s with host := rest, reply := .bytes s.out.info })

/-- R60, U13, U15, U16: a step completes exactly when the pending access is one of those `HostReq.meaningful` admits, and
no access faults. Where the spec draws no line the model does: register numbers above 31 are refused (log 10), and an
over-long operand is refused whatever the checks of R141 would say (log 6). Marked by the spec as its own: R60 (D17),
R141 (D8). -/
def Obligations.StepCompletesExactlyWhenMeaningful : Prop :=
  ∀ (s : State) (r : HostReq) (rest : List HostReq), s.host = r :: rest →
    ((∃ t, step s = .next t) ↔ r.meaningful s = true) ∧ ((∃ q, step s = .refused q) ↔ r.meaningful s = false)

/-- R46, R240: the reset event gives every piece of state its value of R46, and `State.reset` has those values too. The
parameters and the host's own queue are not the core's state (log 9). Marked by the spec as its own: R46 (D18), R240
(D18). -/
def Obligations.ResetEventState : Prop :=
  (∀ (s : State) (rest : List HostReq), s.host = .reset :: rest →
    step s = .next
      { cfg := s.cfg
        slots := List.replicate s.nslot { valid := false, var := .speck32_64, rk := Vector.replicate 34 0 }
        status := 0, work := Work.reset
        inp := { key := [], nonce := [], block := [], data := [], aad := [], tag := [] }
        out := { block := [], data := [], tag := [], info := [] }, host := rest, reply := s.reply }) ∧
  State.reset.status = 0 ∧ State.reset.slots = List.replicate State.reset.nslot Slot.empty ∧
  State.reset.work = Work.reset ∧ State.reset.inp = InBufs.empty ∧ State.reset.out = OutBufs.empty ∧
  Work.reset.phase = .idle ∧ Work.reset.x = 0 ∧ Work.reset.y = 0 ∧ Work.reset.k = 0 ∧
  Work.reset.l = Vector.replicate 3 0 ∧ Work.reset.rnd = 0 ∧ Work.reset.ctrv = 0 ∧
  Work.reset.ks = Vector.replicate 16 0 ∧ Work.reset.j = 0 ∧ Work.reset.tk = Vector.replicate 34 0 ∧
  Work.reset.mackey = Vector.replicate 32 0 ∧ Work.reset.acc = .poly 0 0 0 ∧
  Work.reset.mbuf = Vector.replicate 16 0 ∧ Work.reset.mfill = 0 ∧ Work.reset.aadbits = 0 ∧ Work.reset.ctbits = 0 ∧
  Work.reset.tagreg = Vector.replicate 16 0 ∧ Work.reset.tagok = false

/-! ## The registry and byte order -/

/-- R90, R91: the ten rows, as code, `w`, `m`, `T`, `α`, `β`, block bytes, key bytes, word bytes, stream-capable. The
column `T` is the default of the configuration (log 5). -/
def Obligations.RegistryRows : Prop :=
  ([.speck32_64, .speck48_72, .speck48_96, .speck64_96, .speck64_128, .speck96_96, .speck96_144, .speck128_128,
    .speck128_192, .speck128_256] : List Variant).map (fun v =>
      ([v.code.toNat, v.w, v.m, Config.default.t v, v.alpha, v.beta, v.blockBytes, v.keyBytes, v.wordBytes],
        v.streamCapable)) =
    [([0, 16, 4, 22, 7, 2, 4, 8, 2], true), ([1, 24, 3, 22, 8, 3, 6, 9, 3], false),
     ([2, 24, 4, 23, 8, 3, 6, 12, 3], false), ([3, 32, 3, 26, 8, 3, 8, 12, 4], true),
     ([4, 32, 4, 27, 8, 3, 8, 16, 4], true), ([5, 48, 2, 28, 8, 3, 12, 12, 6], false),
     ([6, 48, 3, 29, 8, 3, 12, 18, 6], false), ([7, 64, 2, 32, 8, 3, 16, 16, 8], true),
     ([8, 64, 3, 33, 8, 3, 16, 24, 8], true), ([9, 64, 4, 34, 8, 3, 16, 32, 8], true)]

/-- R93: `variant_info` on each of the ten codes returns the eight bytes of `OUT.info` with status `OK`; on codes 10 to
15 it ends with `UNKNOWN_VARIANT` (1). Nothing else changes. -/
def Obligations.VariantInfoResult : Prop :=
  (∀ (s : State) (v : Variant),
    exec (.variantInfo v.code) s = .next { s with
      status := 0
      work := Work.reset
      out := { block := [], data := [], tag := []
               info := [BitVec.ofNat 8 (2 * v.w), BitVec.ofNat 8 (v.m * v.w / 256), BitVec.ofNat 8 (v.m * v.w),
                        BitVec.ofNat 8 v.w, BitVec.ofNat 8 v.m, BitVec.ofNat 8 (s.cfg.t v),
                        BitVec.ofNat 8 v.alpha, BitVec.ofNat 8 v.beta] } }) ∧
  (∀ (s : State) (var : BitVec 4), 9 < var.toNat →
    exec (.variantInfo var) s = .next { s with status := 1, work := Work.reset, out := OutBufs.empty })

/-- R11: `BE` and `LE` are the sums the rule writes, and `BEbytes_n`, `LEbytes_n` are their inverses. Marked by the spec
as its own: R11 (derived). -/
def Obligations.ByteStringsAndIntegersInverse : Prop :=
  (∀ s : Bytes,
    be s = ((List.range s.length).map fun i => (s.getD i 0).toNat * 256 ^ (s.length - 1 - i)).sum ∧
    le s = ((List.range s.length).map fun i => (s.getD i 0).toNat * 256 ^ i).sum ∧
    beBytes s.length (be s) = s ∧ leBytes s.length (le s) = s) ∧
  (∀ n v : Nat, v < 256 ^ n →
    be (beBytes n v) = v ∧ le (leBytes n v) = v ∧ (beBytes n v).length = n ∧ (leBytes n v).length = n)

/-- R13: rotations by an amount strictly between 0 and the width are circular, equal the two formulas of the rule, and
cancel. The definition is the spec's from general knowledge (log 18). Marked by the spec as its own: R13 (D13,
general knowledge). -/
def Obligations.RotationsAreCircular : Prop :=
  ∀ (w : Nat) (v : BitVec w) (r : Nat), 0 < r → r < w →
    (∀ i, i < w → (rotr v r).getLsbD i = v.getLsbD ((i + r) % w)) ∧
    (∀ i, i < w → (rotl v r).getLsbD ((i + r) % w) = v.getLsbD i) ∧
    (rotr v r).toNat = v.toNat / 2 ^ r + v.toNat % 2 ^ r * 2 ^ (w - r) ∧
    (rotl v r).toNat = v.toNat * 2 ^ r % 2 ^ w + v.toNat / 2 ^ (w - r) ∧
    rotl (rotr v r) r = v ∧ rotr (rotl v r) r = v

/-- R53: a block is two words, the left one first, each with its first byte most significant; the mapping is one to one.
Marked by the spec as its own: R53 (D11). -/
def Obligations.BlockWordsByteOrder : Prop :=
  ∀ v : Variant,
    (∀ b : Bytes, b.length = v.blockBytes →
      (blockX v.w b).toNat = be (b.take v.wordBytes) ∧ (blockY v.w b).toNat = be (b.drop v.wordBytes) ∧
      wordsBlock (blockX v.w b) (blockY v.w b) = b) ∧
    (∀ x y : BitVec v.w, (wordsBlock x y).length = v.blockBytes ∧
      blockX v.w (wordsBlock x y) = x ∧ blockY v.w (wordsBlock x y) = y)

/-- R54: key word `k_i` is `(BE(key) div 2^(w·i)) mod 2^w`, the `i`-th word from the end of the key string. Marked by the
spec as its own: R54 (D11). -/
def Obligations.KeyWordsComeFromTheEnd : Prop :=
  ∀ (v : Variant) (key : Bytes) (i : Nat), key.length = v.keyBytes → i < v.m →
    (keyWord v.w v.m key i).toNat = be key / 2 ^ (v.w * i) % 2 ^ v.w ∧
    (keyWord v.w v.m key i).toNat = be ((key.drop ((v.m - 1 - i) * v.wordBytes)).take v.wordBytes)

/-! ## The key schedule -/

/-- R100, R102: `Expand` gives `T` round keys with a link sequence of `T + m - 2` words, and every expansion step is the
round function with the index for the round key. That both sequences start with the key words taken from the END of
the key is R54, which the spec fixed by a test vector (log 18). Marked by the spec as its own: R54 (D11). -/
def Obligations.ExpandRecurrence : Prop :=
  ∀ (c : Config) (v : Variant) (key : Bytes), c.wf = true → key.length = v.keyBytes →
    (expand c v key).length = c.t v ∧
    ∃ l : List (BitVec v.w), l.length = c.t v + v.m - 2 ∧
      ((expand c v key).getD 0 0).toNat = be key % 2 ^ v.w ∧
      (∀ t, t < v.m - 1 → (l.getD t 0).toNat = be key / 2 ^ (v.w * (t + 1)) % 2 ^ v.w) ∧
      ∀ i, i + 1 < c.t v →
        l.getD (i + v.m - 1) 0 =
          ((expand c v key).getD i 0 + rotr (l.getD i 0) v.alpha) ^^^ BitVec.ofNat v.w i ∧
        (expand c v key).getD (i + 1) 0 =
          rotl ((expand c v key).getD i 0) v.beta ^^^ l.getD (i + v.m - 1) 0 ∧
        (l.getD (i + v.m - 1) 0, (expand c v key).getD (i + 1) 0) =
          rf v.alpha v.beta (l.getD i 0) ((expand c v key).getD i 0) (BitVec.ofNat v.w i)

/-- R107: for the all-zero key of any variant `K_0 = 0`, `K_1 = 0`, `K_2 = 1`. Two variants of one word size, the same or
not, whose keys agree in their last two words agree in `K_0` and `K_1`, compared as numbers; which words are the last
rests on R54 (log 18). Marked by the spec as its own: R107 (derived), R54 (D11). -/
def Obligations.EarlyRoundKeys : Prop :=
  (∀ (c : Config) (v : Variant), c.wf = true →
    (expand c v (zeros v.keyBytes)).take 3 = [0, 0, 1]) ∧
  (∀ (c : Config) (v1 v2 : Variant) (a b : Bytes), c.wf = true → v1.w = v2.w →
    a.length = v1.keyBytes → b.length = v2.keyBytes → be a % 2 ^ (2 * v1.w) = be b % 2 ^ (2 * v2.w) →
    ((expand c v1 a).take 2).map BitVec.toNat = ((expand c v2 b).take 2).map BitVec.toNat)

/-- R104, R23: `schedule` with a known variant, an existing slot and a key of the right length ends with `OK`; the slot
becomes valid, of that variant, with the `T` round keys zero-extended to 64 bits and zeros up to entry 33. No other
slot and nothing else but the status changes; the output buffers are empty. Marked by the spec as its own: R23 (D5).
-/
def Obligations.ScheduleFillsSlot : Prop :=
  ∀ (s : State) (v : Variant) (slot : BitVec 4),
    s.cfg.wf = true → slot.toNat < s.nslot → s.inp.key.length = v.keyBytes →
    ∃ rk : RoundKeys,
      rk.toList = (expand s.cfg v s.inp.key).map zext64 ++ List.replicate (34 - s.cfg.t v) 0 ∧
      exec (.schedule v.code slot) s = .next { s with
        slots := s.slots.set slot.toNat { valid := true, var := v, rk := rk }
        status := 0, out := OutBufs.empty, work := Work.reset }

/-- R106: `release` of an existing slot, empty or not, ends with `OK` and clears all three parts of the slot; afterwards
a block command on it gives `NO_SCHEDULE` (6) whatever the block. -/
def Obligations.ReleaseEmptiesSlot : Prop :=
  ∀ (s : State) (slot : BitVec 4), slot.toNat < s.nslot →
    exec (.release slot) s = .next { s with
      slots := s.slots.set slot.toNat { valid := false, var := .speck32_64, rk := Vector.replicate 34 0 }
      status := 0, out := OutBufs.empty, work := Work.reset } ∧
    ∀ (t : State) (b : Bytes), exec (.release slot) s = .next t →
      exec (.encryptBlock slot) { t with inp := { t.inp with block := b } } =
        .next { t with inp := { t.inp with block := b }, status := 6 } ∧
      exec (.decryptBlock slot) { t with inp := { t.inp with block := b } } =
        .next { t with inp := { t.inp with block := b }, status := 6 }

/-! ## The block cipher -/

/-- R120, R121: the round function and its inverse, as the one expression each rule gives. -/
def Obligations.RoundFormulas : Prop :=
  ∀ (v : Variant) (x y k : BitVec v.w),
    rf v.alpha v.beta x y k =
      ((rotr x v.alpha + y) ^^^ k, rotl y v.beta ^^^ ((rotr x v.alpha + y) ^^^ k)) ∧
    rinv v.alpha v.beta x y k =
      (rotl ((x ^^^ k) - rotr (y ^^^ x) v.beta) v.alpha, rotr (y ^^^ x) v.beta)

/-- R126: a round and its inverse cancel, in both orders, for every variant. Marked by the spec as its own: R126
(derived). -/
def Obligations.RoundAndInverseCancel : Prop :=
  ∀ (v : Variant) (x y k : BitVec v.w),
    rinv v.alpha v.beta (rf v.alpha v.beta x y k).1 (rf v.alpha v.beta x y k).2 k = (x, y) ∧
    rf v.alpha v.beta (rinv v.alpha v.beta x y k).1 (rinv v.alpha v.beta x y k).2 k = (x, y)

/-- R122, R123: `Encrypt` runs one round per round key, first to last, between the words of the block and the bytes of
the result; `Decrypt` runs one inverse round per round key, last to first. That a word is the big-endian reading of
its bytes, the left word first, is R53, which the spec fixed by a test vector (log 18). Marked by the spec as its
own: R53 (D11). -/
def Obligations.CipherRunsRoundsInOrder : Prop :=
  ∀ (v : Variant) (ks : List (BitVec v.w)) (b : Bytes), b.length = v.blockBytes →
    (∃ x y : Nat → BitVec v.w,
      (x 0).toNat = be (b.take v.wordBytes) ∧ (y 0).toNat = be (b.drop v.wordBytes) ∧
      (∀ i, i < ks.length → (x (i + 1), y (i + 1)) = rf v.alpha v.beta (x i) (y i) (ks.getD i 0)) ∧
      encrypt v ks b =
        beBytes v.wordBytes (x ks.length).toNat ++ beBytes v.wordBytes (y ks.length).toNat) ∧
    (∃ x y : Nat → BitVec v.w,
      (x ks.length).toNat = be (b.take v.wordBytes) ∧ (y ks.length).toNat = be (b.drop v.wordBytes) ∧
      (∀ i, i < ks.length → (x i, y i) = rinv v.alpha v.beta (x (i + 1)) (y (i + 1)) (ks.getD i 0)) ∧
      decrypt v ks b = beBytes v.wordBytes (x 0).toNat ++ beBytes v.wordBytes (y 0).toNat)

/-- R129: `Encrypt` and `Decrypt` under one schedule are inverse bijections on blocks. Marked by the spec as its own:
R129 (derived). -/
def Obligations.EncryptDecryptBijection : Prop :=
  ∀ (v : Variant) (ks : List (BitVec v.w)) (b : Bytes), b.length = v.blockBytes →
    decrypt v ks (encrypt v ks b) = b ∧ encrypt v ks (decrypt v ks b) = b ∧
      (encrypt v ks b).length = v.blockBytes ∧ (decrypt v ks b).length = v.blockBytes

/-- R124, R125, R130: `encrypt_block` and `decrypt_block` on a valid slot and a block of its variant's size end with `OK`
and the block through the cipher, forward or inverse, under the round keys the slot holds; only the status and the
output buffers change. -/
def Obligations.BlockCommandResults : Prop :=
  ∀ (s : State) (slot : BitVec 4) (sl : Slot),
    s.cfg.wf = true → s.slots[slot.toNat]? = some sl → sl.valid = true →
    s.inp.block.length = sl.var.blockBytes →
    let ks := (List.range (s.cfg.t sl.var)).map fun i => low sl.var.w (entry sl.rk i)
    exec (.encryptBlock slot) s = .next { s with
      status := 0, work := Work.reset
      out := { OutBufs.empty with block := encrypt sl.var ks s.inp.block } } ∧
    exec (.decryptBlock slot) s = .next { s with
      status := 0, work := Work.reset
      out := { OutBufs.empty with block := decrypt sl.var ks s.inp.block } }

/-- R104, R124, R125, R129: for every key of the right length, after `schedule` into a slot, `encrypt_block` gives
`Encrypt(Expand(key), block)` and `decrypt_block` of that output gives the block back. Marked by the spec as its own:
R129 (derived). -/
def Obligations.ScheduledBlockRoundTrip : Prop :=
  ∀ (s : State) (v : Variant) (slot : BitVec 4) (b : Bytes),
    s.cfg.wf = true → slot.toNat < s.nslot → s.inp.key.length = v.keyBytes → b.length = v.blockBytes →
    ∃ t u w : State,
      exec (.schedule v.code slot) s = .next t ∧
      exec (.encryptBlock slot) { t with inp := { t.inp with block := b } } = .next u ∧
      u.status = 0 ∧ u.out.block = encrypt v (expand s.cfg v s.inp.key) b ∧
      exec (.decryptBlock slot) { u with inp := { u.inp with block := u.out.block } } = .next w ∧
      w.status = 0 ∧ w.out.block = b ∧ w.slots = t.slots

/-! ## Counter mode -/

/-- R142, R55: the counter block for index `j` is the big-endian block of `(BE(N) + j) mod 2^(2w)`; its left word is the
counter's high half, its right word the low half, and the nonce is its own first counter block. -/
def Obligations.CounterBlocks : Prop :=
  ∀ (v : Variant) (nonce : Bytes) (j : Nat), nonce.length = v.blockBytes →
    be nonce < 2 ^ (2 * v.w) ∧ ctrBlock v nonce 0 = nonce ∧
    ctrBlock v nonce j = beBytes v.blockBytes ((be nonce + j) % 2 ^ (2 * v.w)) ∧
    be (ctrBlock v nonce j) = (be nonce + j) % 2 ^ (2 * v.w) ∧
    (blockX v.w (ctrBlock v nonce j)).toNat = (be nonce + j) % 2 ^ (2 * v.w) / 2 ^ v.w ∧
    (blockY v.w (ctrBlock v nonce j)).toNat = (be nonce + j) % 2 ^ v.w

/-- R143: after a stream of `q = ceil(n/B)` blocks from offset `t` the register `CTRV` holds `(BE(N) + t + q) mod
2^(2w)`; after the all-ones counter block comes the zero block. That `J`, the block index of R33, ends at `q` is the
model's reading of the register (log 7, log 13). Marked by the spec as its own: R33 (D19). -/
def Obligations.CounterRegisterWraps : Prop :=
  (∀ (c : Config) (v : Variant) (nonce d : Bytes) (t : Nat) (wk : Work), c.wf = true →
    (ctrRegs c v nonce t d wk).1.ctrv.toNat =
      (be nonce + t + (d.length + v.blockBytes - 1) / v.blockBytes) % 2 ^ (2 * v.w) ∧
    (ctrRegs c v nonce t d wk).1.j = (d.length + v.blockBytes - 1) / v.blockBytes) ∧
  (∀ v : Variant, ctrBlock v (List.replicate v.blockBytes 0xFF) 1 = zeros v.blockBytes)

/-- R144, R151: byte `p` of a stream is `d[p]` XOR byte `p mod B` of keystream block `p div B`, the encryption of counter
block `t + p div B`; the output is as long as the input. That a partial last block takes the leading bytes of its
keystream block is R145. Marked by the spec as its own: R145 (D14). -/
def Obligations.StreamBytes : Prop :=
  ∀ (v : Variant) (ks : List (BitVec v.w)) (nonce : Bytes) (t : Nat) (d : Bytes),
    (ctrStream v ks nonce t d).length = d.length ∧
    ∀ p, p < d.length →
      (ctrStream v ks nonce t d).getD p 0 =
        d.getD p 0 ^^^ (encrypt v ks (ctrBlock v nonce (t + p / v.blockBytes))).getD (p % v.blockBytes) 0

/-- R147: a stream is its own inverse, a stream of a prefix is the prefix of the stream, and starting one block later is
the stream of the next counter block. Marked by the spec as its own: R147 (derived). -/
def Obligations.StreamProperties : Prop :=
  ∀ (v : Variant) (ks : List (BitVec v.w)) (nonce : Bytes) (t : Nat) (d : Bytes),
    ctrStream v ks nonce t (ctrStream v ks nonce t d) = d ∧
    (∀ q, q ≤ d.length → (ctrStream v ks nonce t d).take q = ctrStream v ks nonce t (d.take q)) ∧
    (nonce.length = v.blockBytes → ctrStream v ks nonce (t + 1) d = ctrStream v ks (ctrBlock v nonce 1) t d)

/-- R149: under one schedule, two streams of at least one block whose first counter values differ, differ in their first
block. Marked by the spec as its own: R149 (derived). -/
def Obligations.DistinctCountersDistinctStreams : Prop :=
  ∀ (v : Variant) (ks : List (BitVec v.w)) (n1 n2 : Bytes) (t1 t2 : Nat) (d : Bytes),
    n1.length = v.blockBytes → n2.length = v.blockBytes → v.blockBytes ≤ d.length →
    (be n1 + t1) % 2 ^ (2 * v.w) ≠ (be n2 + t2) % 2 ^ (2 * v.w) →
    (ctrStream v ks n1 t1 d).take v.blockBytes ≠ (ctrStream v ks n2 t2 d).take v.blockBytes

/-- R146: `ctr_crypt` on operands that pass the checks ends with `OK` and `OUT.data` the stream from the nonce under the
expanded key; only the status and the output buffers change. -/
def Obligations.CtrCryptResult : Prop :=
  ∀ (s : State) (v : Variant), s.StreamReady v →
    exec (.ctrCrypt v.code) s = .next { s with
      status := 0, work := Work.reset
      out := { OutBufs.empty with
        data := ctrStream v (expand s.cfg v s.inp.key) s.inp.nonce 0 s.inp.data } }

/-- R147: `ctr_crypt` applied to its own output with the same key and nonce gives the data back, for every length. Marked
by the spec as its own: R147 (derived). -/
def Obligations.CtrCryptSelfInverse : Prop :=
  ∀ (s : State) (v : Variant), s.StreamReady v →
    ∃ t u : State,
      exec (.ctrCrypt v.code) s = .next t ∧ t.out.data.length = s.inp.data.length ∧
      exec (.ctrCrypt v.code) { t with inp := { t.inp with data := t.out.data } } = .next u ∧
      u.status = 0 ∧ u.out.data = s.inp.data

/-! ## The MAC -/

/-- R163, R164: the hash of a message of whole 16-byte units is what absorbing the units in order leaves, for every
instance, and it is 16 bytes long. Marked by the spec as its own: R163 (D16), R164 (D16). -/
def Obligations.HashIsAbsorbedUnitByUnit : Prop :=
  ∀ (h : UHash) (key : Bytes) (us : List Bytes), (∀ u ∈ us, u.length = 16) →
    uhash h key us.flatten = macFinal (us.foldl macAbsorb (macInit h key)) ∧
      (uhash h key us.flatten).length = 16

/-- R160, R161, R162: the message is both operands, each zero-padded to a multiple of 16 bytes, then both lengths in
bits, 8 bytes each, little-endian; it is a whole number of units, at least one; and within the length limit it
determines both operands. Marked by the spec as its own: R160 (D15, general knowledge), R162 (D33, general
knowledge). -/
def Obligations.MacMessageShapeAndUniqueness : Prop :=
  (∀ aad ct : Bytes,
    macMsg aad ct = aad ++ zeros ((16 - aad.length % 16) % 16) ++ (ct ++ zeros ((16 - ct.length % 16) % 16)) ++
      (leBytes 8 (8 * aad.length) ++ leBytes 8 (8 * ct.length)) ∧
    (macMsg aad ct).length % 16 = 0 ∧ 16 ≤ (macMsg aad ct).length) ∧
  (∀ a1 c1 a2 c2 : Bytes,
    a1.length ≤ 2 ^ 61 - 1 → c1.length ≤ 2 ^ 61 - 1 → a2.length ≤ 2 ^ 61 - 1 → c2.length ≤ 2 ^ 61 - 1 →
    macMsg a1 c1 = macMsg a2 c2 → a1 = a2 ∧ c1 = c2)

/-- R165: the feeding sequence on the registers leaves `UHASH(MACKEY, MacMsg(a, c))` in `TAGREG`; `MFILL` is 0 after each
part, the bit counters hold the lengths in bits, and `MACKEY` is only read (R166). -/
def Obligations.FeedingComputesTheTag : Prop :=
  ∀ (h : UHash) (wk : Work) (aad ct : Bytes),
    let w1 := macAadRegs h aad wk
    let w2 := macCtRegs ct w1
    let w3 := macLenRegs w2
    w3.tagreg.toList = uhash h wk.mackey.toList (macMsg aad ct) ∧
    w1.mfill = 0 ∧ w2.mfill = 0 ∧ w3.mfill = 0 ∧
    w3.aadbits = BitVec.ofNat 64 (8 * aad.length) ∧ w3.ctbits = BitVec.ofNat 64 (8 * ct.length) ∧
    w3.mackey = wk.mackey

/-- R169: with a zero multiplier the tag of the default instance is bytes 16 to 31 of the subkey, whatever the message;
with multiplier 1 and addend 0 the tag of one unit is the unit. The default instance is PRESUMED by the spec (log 4).
Marked by the spec as its own: R169 (D16, general knowledge). -/
def Obligations.DefaultHashCorners : Prop :=
  (∀ a msg : Bytes, a.length = 16 → uhash .poly1305 (zeros 16 ++ a) msg = a) ∧
  (∀ u : Bytes, u.length = 16 → uhash .poly1305 (1 :: zeros 31) u = u)

/-- R186: the tag comparison of two 16-byte strings is true exactly when the strings are equal. Marked by the spec as its
own: R186 (D29). -/
def Obligations.TagComparisonIsExact : Prop :=
  ∀ t u : Bytes, t.length = 16 → u.length = 16 → (tagEq t u = true ↔ t = u)

/-! ## The AEAD commands -/

/-- R183: `aead_encrypt` on operands that pass the checks ends with `OK`; the ciphertext is the stream from the counter
after the nonce, and the tag is the hash, under the first 32 keystream bytes at the nonce, of the MAC message of the
associated data and the ciphertext. Only the status and the output buffers change. -/
def Obligations.AeadEncryptResult : Prop :=
  ∀ (s : State) (v : Variant), s.StreamReady v → s.inp.aad.length ≤ s.cfg.maxlen →
    let ks := expand s.cfg v s.inp.key
    let ct := ctrStream v ks s.inp.nonce 1 s.inp.data
    exec (.aeadEncrypt v.code) s = .next { s with
      status := 0, work := Work.reset
      out := { block := [], data := ct, info := []
               tag := uhash s.cfg.uhash (ctrStream v ks s.inp.nonce 0 (zeros 32)) (macMsg s.inp.aad ct) } }

/-- R184: `aead_decrypt` on operands that pass the checks and the tag recomputed over the received ciphertext ends with
`OK` and the plaintext; `OUT.tag` is not written. -/
def Obligations.AeadDecryptResult : Prop :=
  ∀ (s : State) (v : Variant), s.StreamReady v → s.inp.aad.length ≤ s.cfg.maxlen →
    let ks := expand s.cfg v s.inp.key
    s.inp.tag =
      uhash s.cfg.uhash (ctrStream v ks s.inp.nonce 0 (zeros 32)) (macMsg s.inp.aad s.inp.data) →
    exec (.aeadDecrypt v.code) s = .next { s with
      status := 0, work := Work.reset
      out := { OutBufs.empty with data := ctrStream v ks s.inp.nonce 1 s.inp.data } }

/-- R185, R187, R191: any other tag, of 16 bytes or of another length, ends `aead_decrypt` with `AUTHENTICATION_FAILED`
(5): no plaintext, and nothing changed but the status. Marked by the spec as its own: R185 (D10), R191 (derived). -/
def Obligations.WrongTagRejected : Prop :=
  ∀ (s : State) (v : Variant), s.StreamReady v → s.inp.aad.length ≤ s.cfg.maxlen →
    s.inp.tag ≠ uhash s.cfg.uhash (ctrStream v (expand s.cfg v s.inp.key) s.inp.nonce 0 (zeros 32))
      (macMsg s.inp.aad s.inp.data) →
    exec (.aeadDecrypt v.code) s = .next { s with status := 5, work := Work.reset, out := OutBufs.empty }

/-- R191: `aead_decrypt` of what `aead_encrypt` returned, with the same key, nonce and associated data, ends with `OK`
and the plaintext, for every instance of the hash. Marked by the spec as its own: R191 (derived). -/
def Obligations.AeadRoundTrip : Prop :=
  ∀ (s : State) (v : Variant), s.StreamReady v → s.inp.aad.length ≤ s.cfg.maxlen →
    ∃ t u : State,
      exec (.aeadEncrypt v.code) s = .next t ∧
      exec (.aeadDecrypt v.code) { t with inp := { t.inp with data := t.out.data, tag := t.out.tag } } = .next u ∧
      u.status = 0 ∧ u.out.data = s.inp.data ∧ u.slots = s.slots

/-- R182: the ciphertext of `aead_encrypt` is `CtrStream(TK, N, 1, pt)`, block `j` of which uses counter `(BE(N) + 1 + j)
mod 2^(2w)`; it is as long as the plaintext and equals the output of `ctr_crypt` started at the counter block after
the nonce. The byte by byte form is that of R151, the leading bytes of a partial last block R145. Marked by the spec
as its own: R145 (D14). -/
def Obligations.AeadDataIsCtrFromNextCounter : Prop :=
  ∀ (s : State) (v : Variant), s.StreamReady v → s.inp.aad.length ≤ s.cfg.maxlen →
    ∃ t u : State,
      exec (.aeadEncrypt v.code) s = .next t ∧
      t.out.data = ctrStream v (expand s.cfg v s.inp.key) s.inp.nonce 1 s.inp.data ∧
      t.out.data.length = s.inp.data.length ∧
      (∀ p, p < s.inp.data.length → t.out.data.getD p 0 = s.inp.data.getD p 0 ^^^
        (encrypt v (expand s.cfg v s.inp.key) (beBytes v.blockBytes
          ((be s.inp.nonce + 1 + p / v.blockBytes) % 2 ^ (2 * v.w)))).getD (p % v.blockBytes) 0) ∧
      exec (.ctrCrypt v.code) { s with inp := { s.inp with nonce := ctrBlock v s.inp.nonce 1 } } = .next u ∧
      u.out.data = t.out.data

/-- R181: the hash key of `aead_encrypt` is what `ctr_crypt` of 32 zero bytes with the same key and nonce returns: the
first `32 / B` keystream blocks at counters `N`, `N + 1` and on (2, 4 or 8 blocks). -/
def Obligations.SubkeyIsFirstKeystream : Prop :=
  ∀ (s : State) (v : Variant), s.StreamReady v → s.inp.aad.length ≤ s.cfg.maxlen → 32 ≤ s.cfg.maxlen →
    ∃ t u : State,
      exec (.aeadEncrypt v.code) s = .next t ∧
      exec (.ctrCrypt v.code) { s with inp := { s.inp with data := zeros 32 } } = .next u ∧
      t.out.tag = uhash s.cfg.uhash u.out.data (macMsg s.inp.aad t.out.data) ∧
      u.out.data = ((List.range (32 / v.blockBytes)).map fun j =>
        encrypt v (expand s.cfg v s.inp.key) (ctrBlock v s.inp.nonce j)).flatten ∧
      u.out.data.length = 32

/-- R189, R245: from byte `B` on, the MAC subkey is the keystream that masks the data: the two streams overlap. Marked by
the spec as its own: R189 (D30, derived), R245 (derived). -/
def Obligations.SubkeyOverlapsDataKeystream : Prop :=
  ∀ (v : Variant) (ks : List (BitVec v.w)) (nonce pt : Bytes) (p : Nat),
    p < pt.length → v.blockBytes + p < 32 →
    (ctrStream v ks nonce 0 (zeros 32)).getD (v.blockBytes + p) 0 =
      pt.getD p 0 ^^^ (ctrStream v ks nonce 1 pt).getD p 0

/-- R244: the counter range of an AEAD command is the union of the subkey's and the data's. Marked by the spec as its
own: R244 (derived). -/
def Obligations.AeadCounterRange : Prop :=
  ∀ (v : Variant) (nonce : Bytes) (n c : Nat), v.streamCapable = true →
    (c ∈ aeadRange v nonce n ↔ c ∈ streamRange v nonce 0 32 ∨ c ∈ streamRange v nonce 1 n)

/-! ## Every command -/

/-- R211, R216: within the length limits, every command ends, with the status of the first condition of R211 that holds
in the order of R216, `OK` when none does. Marked by the spec as its own: R216 (D8). -/
def Obligations.FirstFailureIsReported : Prop :=
  ∀ (i : Instr) (s : State), s.cfg.wf = true → withinMaxlen i s = true →
    ∃ t, exec i s = .next t ∧ t.status = (firstFailure (statusConditions i s)).word

/-- R214: a command that ends with a status other than `OK` leaves every slot and every buffer the host fills, empties
the outputs, clears the working registers, and its code is one of the eight. Marked by the spec as its own: R214
(D7). -/
def Obligations.FailureTouchesStatusOnly : Prop :=
  ∀ (i : Instr) (s t : State), exec i s = .next t →
    t.status.toNat < 8 ∧
    (t.status ≠ 0 → t = { s with status := t.status, out := OutBufs.empty, work := Work.reset })

/-- R44, R52, R61: the frame of every command. The parameters, the input buffers, the host's queue and reply are
unchanged, the working registers are cleared, outputs the command does not list are empty, and only `schedule` and
`release` change a slot, each only the one it names. Marked by the spec as its own: R44 (D19), R52 (derived), R61
(D7). -/
def Obligations.CommandFrame : Prop :=
  ∀ (i : Instr) (s t : State), exec i s = .next t →
    t.cfg = s.cfg ∧ t.inp = s.inp ∧ t.host = s.host ∧ t.reply = s.reply ∧ t.work = Work.reset ∧
    UnlistedEmpty i t.out ∧ t.nslot = s.nslot ∧
    (match i with
      | .schedule _ slot => ∀ k, k ≠ slot.toNat → t.slots[k]? = s.slots[k]?
      | .release slot => ∀ k, k ≠ slot.toNat → t.slots[k]? = s.slots[k]?
      | .variantInfo _ => t.slots = s.slots
      | .encryptBlock _ => t.slots = s.slots
      | .decryptBlock _ => t.slots = s.slots
      | .ctrCrypt _ => t.slots = s.slots
      | .aeadEncrypt _ => t.slots = s.slots
      | .aeadDecrypt _ => t.slots = s.slots)

/-- R24, R105: over one step, a slot changes only by a reset, by a `schedule` naming it that ended with `OK`, or by a
`release` naming it. -/
def Obligations.SlotWriters : Prop :=
  ∀ (s t : State) (k : Nat), step s = .next t → t.slots[k]? ≠ s.slots[k]? →
    ∃ rest : List HostReq,
      s.host = .reset :: rest ∨
      (∃ (c : CmdWord) (var slot : BitVec 4), s.host = .writeReg 0 c :: rest ∧
        decode c = .ok (.schedule var slot) ∧ slot.toNat = k ∧ t.status = 0) ∨
      (∃ (c : CmdWord) (slot : BitVec 4), s.host = .writeReg 0 c :: rest ∧
        decode c = .ok (.release slot) ∧ slot.toNat = k ∧ t.status = 0)

/-- R52, U14: an input buffer the command does not list has no effect on the outcome. Marked by the spec as its own: R52
(derived). -/
def Obligations.UnlistedBuffersIgnored : Prop :=
  ∀ (i : Instr) (s : State) (b : InBufs), SameReads i s.inp b →
    (∀ t, exec i s = .next t → exec i { s with inp := b } = .next { t with inp := b }) ∧
    (∀ r, exec i s = .refused r → exec i { s with inp := b } = .refused r)

/-- R24, R34: `variant_info`, `ctr_crypt`, `aead_encrypt` and `aead_decrypt` read no slot: with any other slot store they
do the same. Marked by the spec as its own: R34 (D19). -/
def Obligations.StreamCommandsIgnoreSlots : Prop :=
  ∀ (i : Instr) (s : State) (slots : List Slot), i.slotField = none →
    (∀ t, exec i s = .next t → exec i { s with slots := slots } = .next { t with slots := slots }) ∧
    (∀ r, exec i s = .refused r → exec i { s with slots := slots } = .refused r)

/-- R60: operands longer than `MAXLEN` are outside the spec and refused, before the checks of R141 (log 6); `ctr_crypt`
does not look at the associated data. Marked by the spec as its own: R60 (D17), R141 (D8). -/
def Obligations.OverlongOperandsRefused : Prop :=
  ∀ (s : State) (var : BitVec 4),
    (s.cfg.maxlen < s.inp.data.length →
      exec (.ctrCrypt var) s = .refused .operandTooLong ∧ exec (.aeadEncrypt var) s = .refused .operandTooLong ∧
      exec (.aeadDecrypt var) s = .refused .operandTooLong) ∧
    (s.cfg.maxlen < s.inp.aad.length →
      exec (.aeadEncrypt var) s = .refused .operandTooLong ∧ exec (.aeadDecrypt var) s = .refused .operandTooLong) ∧
    (s.inp.data.length ≤ s.cfg.maxlen → ∃ t, exec (.ctrCrypt var) s = .next t)

/-! ## The whole machine -/

/-- R46: the invariant holds right after reset. Marked by the spec as its own: R46 (D18). -/
def Obligations.ResetStateInvariant : Prop := State.reset.Inv

/-- R25, R23, R26, R44: every step keeps the invariant, from every state that has it: a valid slot holds the expansion of
a key of its variant's length, an empty slot is zero, `STATUS` is one of the eight codes with its upper bits zero,
the working registers are at their reset values, and the number of slots stays between 1 and 16. Marked by the spec
as its own: R25 (derived), R23 (D5), R26 (D6), R44 (D19). -/
def Obligations.StepKeepsInvariant : Prop :=
  ∀ s t : State, s.Inv → step s = .next t → t.Inv

/-- R43: two states that agree on what the host can observe and on the logical round keys of valid slots cannot be told
apart by any sequence of accesses: after any number of steps the outcomes agree in the same way. Marked by the spec
as its own: R43 (derived). -/
def Obligations.AlikeStatesIndistinguishable : Prop :=
  ∀ (k : Nat) (s t : State), s.cfg.wf = true → s.Alike t →
    SameOutcome (core.run k s) (core.run k t)

/-! ## The wrapper -/

/-- R203: a wrapper call that is not refused is buffer fills and one core command, so running its accesses is that
command on the call's operands, the nonce extended by four zero bytes (log 16). The buffers the call does not list
stay as they were, which is the model's choice (log 20). Marked by the spec as its own: R203 (D31). -/
def Obligations.WrapperRunsOneCommand : Prop :=
  ∀ (call : HlCall) (draw : BitVec 96) (reqs rest : List HostReq) (s : State),
    call.expand draw = .ok reqs → s.host = reqs ++ rest →
    core.run reqs.length s = exec call.instr { s with inp := call.operands draw s.inp, host := rest }

/-- R200, R201: the wrapper refuses every variant but 7, 8 and 9, and every nonce that is not 12 bytes, without a core
command; anything else it expands. That the variant is tested before the nonce, and the key not at all, is the
model's choice (log 19). Marked by the spec as its own: R200 (D31), R201 (derived). -/
def Obligations.WrapperRefusals : Prop :=
  ∀ (call : HlCall) (draw : BitVec 96),
    (call.var.toNat ∉ [7, 8, 9] → call.expand draw = .error .unknownVariant) ∧
    (call.var.toNat ∈ [7, 8, 9] → (call.nonce96 draw).length ≠ 12 → call.expand draw = .error .invalidNonceSize) ∧
    (call.var.toNat ∈ [7, 8, 9] → (call.nonce96 draw).length = 12 → ∃ reqs, call.expand draw = .ok reqs)

/-- R201, R202: with the four zero bytes appended, counter block `j` below 2^32 is the 12-byte nonce followed by `j` as
four big-endian bytes, so blocks under different 12-byte nonces never meet. Marked by the spec as its own: R201
(derived), R202 (derived). -/
def Obligations.WrapperCounterSuffix : Prop :=
  ∀ (v : Variant) (n96 : Bytes) (j : Nat), v.blockBytes = 16 → n96.length = 12 → j < 2 ^ 32 →
    ctrBlock v (hlNonce n96) j = n96 ++ beBytes 4 j ∧
    ∀ (m96 : Bytes) (k : Nat), m96.length = 12 → k < 2 ^ 32 →
      ctrBlock v (hlNonce n96) j = ctrBlock v (hlNonce m96) k → n96 = m96 ∧ j = k

/-- R191, R201, R203: what the wrapper's encrypting call returned, given to its decrypting call with the same key and
associated data, gives the plaintext back. Marked by the spec as its own: R191 (derived), R201 (derived), R203 (D31).
-/
def Obligations.WrapperAeadRoundTrip : Prop :=
  ∀ (s : State) (v : Variant) (key data aad : Bytes) (nonce : Option Bytes) (draw : BitVec 96) (reqs : List HostReq),
    s.cfg.wf = true → key.length = v.keyBytes → data.length ≤ s.cfg.maxlen → aad.length ≤ s.cfg.maxlen →
    (HlCall.aeadEncrypt v.code key nonce data aad).expand draw = .ok reqs → s.host = reqs →
    ∃ (t u : State) (n96 : Bytes) (reqs' : List HostReq),
      core.run reqs.length s = .next t ∧
      ((HlCall.aeadEncrypt v.code key nonce data aad).returned draw t).nonce = some n96 ∧
      (HlCall.aeadDecrypt v.code key n96 t.out.data aad t.out.tag).expand 0 = .ok reqs' ∧
      core.run reqs'.length { t with host := reqs' } = .next u ∧ u.status = 0 ∧ u.out.data = data

end
end

