-- ==== Sys2Proof/Laws/Bytes.lean ====
section
/-! SUPPORT. Integers and byte strings (spec 00_scope.md R11): lengths, bounds, and how `BE` and `BEbytes` undo each other
on the parts a block and a counter are made of (20_memory.md R53, R55). -/

namespace Sys2Proof.Machine

@[simp] theorem beBytes_length (n v : Nat) : (beBytes n v).length = n := by
  induction n generalizing v with
  | zero => rfl
  | succ n ih => simp [beBytes, ih]

@[simp] theorem leBytes_length (n v : Nat) : (leBytes n v).length = n := by
  induction n generalizing v with
  | zero => rfl
  | succ n ih => simp [leBytes, ih]

@[simp] theorem zeros_length (n : Nat) : (zeros n).length = n := by simp [zeros]

/-- `BE` of `n` bytes is below `256^n`. -/
theorem be_lt (s : Bytes) : be s < 256 ^ s.length := by
  induction s with
  | nil => simp [be]
  | cons b s ih =>
    have hb : b.toNat < 256 := b.isLt
    simp only [be, List.length_cons, pow_succ]
    nlinarith [pow_pos (show (0 : Nat) < 256 by norm_num) s.length]

theorem be_append (s t : Bytes) : be (s ++ t) = be s * 256 ^ t.length + be t := by
  induction s with
  | nil => simp [be]
  | cons b s ih => simp [be, ih, pow_add]; ring

/-- `BE` undoes `BEbytes_n` up to reduction modulo `256^n`. -/
theorem be_beBytes (n v : Nat) : be (beBytes n v) = v % 256 ^ n := by
  induction n with
  | zero => simp [beBytes, be, Nat.mod_one]
  | succ n ih =>
    simp only [beBytes, be, beBytes_length, ih, BitVec.toNat_ofNat, pow_succ]
    rw [Nat.mod_mul (x := v) (a := 256 ^ n) (b := 256)]
    show v / 256 ^ n % 256 * 256 ^ n + v % 256 ^ n = _
    ring

/-- `BEbytes_n` reads its number modulo `256^n` only. -/
theorem beBytes_mod (n v : Nat) : beBytes n (v % 256 ^ n) = beBytes n v := by
  suffices h : ∀ k, n ≤ k → beBytes n (v % 256 ^ k) = beBytes n v from h n le_rfl
  induction n with
  | zero => intros; rfl
  | succ n ih =>
    intro k hk
    simp only [beBytes, List.cons.injEq]
    refine ⟨?_, ih k (by omega)⟩
    obtain ⟨d, rfl⟩ := Nat.exists_eq_add_of_le hk
    apply BitVec.eq_of_toNat_eq
    simp only [BitVec.toNat_ofNat]
    have : 256 ^ (n + 1 + d) = 256 ^ n * 256 ^ (1 + d) := by ring
    rw [this, Nat.mod_mul_right_div_self, pow_add, pow_one]
    exact Nat.mod_mul_right_mod _ 256 _

/-- The first `a` of `a + b` bytes are the number's high part. -/
theorem take_beBytes (a b v : Nat) : (beBytes (a + b) v).take a = beBytes a (v / 256 ^ b) := by
  induction a with
  | zero => simp [beBytes]
  | succ a ih =>
    rw [show a + 1 + b = (a + b) + 1 by ring]
    simp only [beBytes, List.take_succ_cons, ih]
    rw [Nat.div_div_eq_div_mul, show 256 ^ b * 256 ^ a = 256 ^ (a + b) by ring]

/-- The last `b` of `a + b` bytes are the number's low part. -/
theorem drop_beBytes (a b v : Nat) : (beBytes (a + b) v).drop a = beBytes b v := by
  induction a with
  | zero => simp
  | succ a ih => rw [show a + 1 + b = (a + b) + 1 by ring]; simpa [beBytes] using ih

/-- `LEbytes_8` of a number reduced to 64 bits (44_mac.md R162). -/
theorem leBytes_mod (n v : Nat) : leBytes n (v % 256 ^ n) = leBytes n v := by
  induction n generalizing v with
  | zero => rfl
  | succ n ih =>
    simp only [leBytes, List.cons.injEq]
    constructor
    · apply BitVec.eq_of_toNat_eq
      simp only [BitVec.toNat_ofNat, pow_succ']
      exact Nat.mod_mul_right_mod _ 256 _
    · rw [pow_succ', Nat.mod_mul_right_div_self, ih]

@[simp] theorem memRead_length (b : Bytes) (off n : Nat) : (memRead b off n).length = min n (b.length - off) := by
  simp [memRead]

/-- Writing at the end of a buffer appends. -/
theorem memWrite_end (buf bytes : Bytes) (off : Nat) (h : off = buf.length) :
    memWrite buf off bytes = buf ++ bytes := by
  subst h; simp [memWrite]

theorem xorBytes_length (s t : Bytes) : (xorBytes s t).length = min s.length t.length := by simp [xorBytes]

/-- A byte register loaded with exactly its number of bytes holds them. -/
theorem loadReg_toList (n : Nat) (s : Bytes) (h : s.length = n) : (loadReg n s).toList = s := by
  subst h
  apply List.ext_getElem
  · simp [loadReg]
  · intro i h1 h2
    simp [loadReg, Vector.getElem_ofFn]

/-- A byte register longer than the byte string starts with it. -/
theorem take_loadReg (n : Nat) (s : Bytes) (h : s.length ≤ n) : (loadReg n s).toList.take s.length = s := by
  apply List.ext_getElem
  · simp [loadReg, h]
  · intro i h1 h2
    simp [loadReg, Vector.getElem_ofFn, h2]

end Sys2Proof.Machine
end

