-- ==== Sys2Proof/Laws/Words.lean ====
section
/-! SUPPORT. The registry's columns as facts, words in 64-bit registers, and register arrays (spec 10_state.md R23, R29,
40_variant_registry.md R90 to R92). -/

namespace Sys2Proof

theorem Variant.w_le (v : Variant) : v.w ≤ 64 := by cases v <;> decide

theorem Variant.six_le_w (v : Variant) : 6 ≤ v.w := by cases v <;> decide

theorem Variant.w_eq (v : Variant) : v.w = 8 * (v.w / 8) := by cases v <;> decide

/-- `B = 2n` bytes for `n = w/8`. -/
theorem Variant.blockBytes_eq (v : Variant) : v.blockBytes = v.w / 8 + v.w / 8 := by cases v <;> decide

theorem Variant.blockBytes_pos (v : Variant) : 0 < v.blockBytes := by cases v <;> decide

theorem Variant.blockBytes_le (v : Variant) : v.blockBytes ≤ 16 := by cases v <;> decide

theorem Variant.m_bounds (v : Variant) : 2 ≤ v.m ∧ v.m ≤ 4 := by cases v <;> decide

@[simp] theorem Variant.ofCode_code (v : Variant) : Variant.ofCode v.code = some v := by cases v <;> rfl

theorem Variant.ofStreamCode_code (v : Variant) (h : v.streamCapable = true) :
    Variant.ofStreamCode v.code = some v := by simp [Variant.ofStreamCode, h]

/-- A well-formed parameter set has every `T` between 22 and 34 (R96). -/
theorem Config.t_bounds (c : Config) (h : c.wf = true) (v : Variant) : 22 ≤ c.t v ∧ c.t v ≤ 34 := by
  simp only [Config.wf, Rounds.wf, Bool.and_eq_true, List.all_eq_true, decide_eq_true_eq] at h
  apply h.1
  cases v <;> simp [Config.t, Rounds.get]

end Sys2Proof

namespace Sys2Proof.Machine

/-- A word of at most 64 bits survives the trip through a register. -/
theorem low_zext64 {w : Nat} (hw : w ≤ 64) (v : BitVec w) : low w (zext64 v) = v := by
  simp only [low, zext64]
  exact BitVec.setWidth_setWidth_of_le v hw |>.trans (BitVec.setWidth_eq v)

@[simp] theorem low_zext64_variant (v : Variant) (x : BitVec v.w) : low v.w (zext64 x) = x :=
  low_zext64 v.w_le x

theorem entry_eq {n : Nat} (v : Vector Word64 n) (i : Nat) (h : i < n) : entry v i = v[i] := by
  simp [entry, h]

theorem entry_setIfInBounds {n : Nat} (v : Vector Word64 n) (i j : Nat) (x : Word64) :
    entry (v.setIfInBounds i x) j = if i = j ∧ i < n then x else entry v j := by
  simp only [entry, List.getD_eq_getElem?_getD, Vector.toList_setIfInBounds, List.getElem?_set, Vector.length_toList]
  by_cases hij : i = j
  · by_cases hn : i < n
    · simp [hij, hij ▸ hn]
    · subst hij; simp [hn]
  · simp [hij]

@[simp] theorem entry_replicate (n i : Nat) : entry (Vector.replicate n (0 : Word64)) i = 0 := by
  by_cases h : i < n
  · rw [entry_eq _ _ h]; simp
  · simp [entry, List.getD_eq_getElem?_getD, h]

/-- A loop that writes the entries 0 to `k - 1` of a register array, one each. -/
theorem entry_foldl_set {n : Nat} (f : Nat → Word64) (v : Vector Word64 n) (k j : Nat) :
    entry ((List.range k).foldl (fun v t => v.setIfInBounds t (f t)) v) j =
      if j < k ∧ j < n then f j else entry v j := by
  induction k with
  | zero => simp
  | succ k ih =>
    rw [List.range_succ, List.foldl_append, List.foldl_cons, List.foldl_nil, entry_setIfInBounds, ih]
    by_cases hj : k = j
    · subst hj; by_cases hn : k < n <;> simp [hn]
    · have : (j < k + 1) = (j < k) := by apply propext; omega
      simp [hj, this]

/-- A register array is known by its entries. -/
theorem toList_eq_of_entry {n : Nat} (v : Vector Word64 n) (l : List Word64) (hl : l.length = n)
    (h : ∀ i, i < n → entry v i = l.getD i 0) : v.toList = l := by
  apply List.ext_getElem
  · simp [hl]
  · intro i h1 h2
    have hi : i < n := by simpa using h1
    have := h i hi
    rw [entry_eq _ _ hi] at this
    simp only [Vector.getElem_toList]
    rw [this]; simp [h2]

end Sys2Proof.Machine
end

