-- ==== Sys2Proof/Laws/KeySchedule.lean ====
section
/-! SUPPORT. The register-level key expansion of spec 41_key_schedule.md R103 computes `Expand` of R100, and leaves every
other working register alone. -/

namespace Sys2Proof.Machine

/-! ## The function, step by step -/

/-- One step of R100 on the pair (`K_i`, the link words `l_i .. l_{i+m-2}`). -/
def linkStep {w : Nat} (alpha beta i : Nat) (p : BitVec w × List (BitVec w)) : BitVec w × List (BitVec w) :=
  let link := (p.1 + rotr (p.2.headD 0) alpha) ^^^ BitVec.ofNat w i
  (rotl p.1 beta ^^^ link, p.2.tail ++ [link])

/-- The pair after `j` steps from step `i` on. -/
def linkState {w : Nat} (alpha beta i : Nat) (p : BitVec w × List (BitVec w)) : Nat → BitVec w × List (BitVec w)
  | 0 => p
  | j + 1 => linkStep alpha beta (i + j) (linkState alpha beta i p j)

theorem linkState_shift {w : Nat} (alpha beta i : Nat) (p : BitVec w × List (BitVec w)) (j : Nat) :
    linkState alpha beta (i + 1) (linkStep alpha beta i p) j = linkState alpha beta i p (j + 1) := by
  induction j with
  | zero => rfl
  | succ j ih =>
    rw [linkState, ih, show i + 1 + j = i + (j + 1) by omega]
    rfl

/-- `Expand`'s loop lists the first components of the successive pairs. -/
theorem expandFrom_eq {w : Nat} (alpha beta n i : Nat) (k : BitVec w) (l : List (BitVec w)) :
    expandFrom alpha beta n i k l = (List.range (n + 1)).map fun j => (linkState alpha beta i (k, l) j).1 := by
  induction n generalizing i k l with
  | zero => rfl
  | succ n ih =>
    rw [expandFrom, ih, List.range_succ_eq_map (n := n + 1), List.map_cons, List.map_map]
    refine congrArg₂ List.cons rfl (List.map_congr_left fun j _ => ?_)
    exact congrArg Prod.fst (linkState_shift alpha beta i (k, l) j)

theorem linkState_length {w : Nat} (alpha beta i : Nat) (p : BitVec w × List (BitVec w)) (hp : p.2 ≠ [])
    (j : Nat) : (linkState alpha beta i p j).2.length = p.2.length := by
  have hpos := List.length_pos_of_ne_nil hp
  induction j with
  | zero => rfl
  | succ j ih => simp only [linkState, linkStep, List.length_append, List.length_tail, List.length_singleton, ih]; omega

/-- The pair `Expand` starts from (R100). -/
def expandStart (v : Variant) (key : Bytes) : BitVec v.w × List (BitVec v.w) :=
  (keyWord v.w v.m key 0, (List.range (v.m - 1)).map fun t => keyWord v.w v.m key (t + 1))

/-- The pair (`K_i`, link words) of `Expand` at step `i` (R100). -/
def expandState (v : Variant) (key : Bytes) (i : Nat) : BitVec v.w × List (BitVec v.w) :=
  linkState v.alpha v.beta 0 (expandStart v key) i

theorem expand_eq (c : Config) (v : Variant) (key : Bytes) (ht : 1 ≤ c.t v) :
    expand c v key = (List.range (c.t v)).map fun i => (expandState v key i).1 := by
  rw [expand, expandFrom_eq, Nat.sub_add_cancel ht]; rfl

@[simp] theorem expand_length (c : Config) (v : Variant) (key : Bytes) (ht : 1 ≤ c.t v) :
    (expand c v key).length = c.t v := by simp [expand_eq c v key ht]

theorem expandState_length (v : Variant) (key : Bytes) (i : Nat) :
    (expandState v key i).2.length = v.m - 1 := by
  have := v.m_bounds
  rw [expandState, linkState_length]
  · simp [expandStart]
  · simp only [expandStart, ne_eq, List.map_eq_nil_iff, List.range_eq_nil]; omega

/-! ## The register-level form -/

/-- What the registers hold before step `i` of R103. -/
structure ExpandInv (v : Variant) (key : Bytes) (i : Nat) (st : Work × RoundKeys) : Prop where
  k : st.1.k = zext64 (expandState v key i).1
  l : ∀ j, j < v.m - 1 → entry st.1.l ((i + j) % (v.m - 1)) = zext64 ((expandState v key i).2.getD j 0)
  rk : ∀ j, entry st.2 j = if j ≤ i ∧ j < 34 then zext64 (expandState v key j).1 else 0

theorem expandLoad_inv (v : Variant) (key : Bytes) (wk : Work) :
    ExpandInv v key 0 (expandLoad v key wk (Vector.replicate 34 0)) := by
  have hm := v.m_bounds
  refine ⟨rfl, fun j hj => ?_, fun j => ?_⟩
  · simp only [expandLoad, Nat.zero_add, Nat.mod_eq_of_lt hj, entry_foldl_set]
    rw [if_pos ⟨hj, by omega⟩]
    simp [expandState, linkState, expandStart, List.getD_eq_getElem?_getD, hj]
  · simp only [expandLoad, entry_setIfInBounds, entry_replicate]
    by_cases h : j = 0
    · subst h; simp [expandState, linkState, expandStart]
    · rw [if_neg (by omega), if_neg (by omega)]

theorem add_mod_ne {i a d : Nat} (ha : 0 < a) (hd : a < d) : (i + a) % d ≠ i % d := by
  intro h
  have h1 : a ≡ 0 [MOD d] := Nat.ModEq.add_left_cancel' i (by simpa [Nat.ModEq] using h)
  rw [Nat.ModEq, Nat.mod_eq_of_lt hd, Nat.zero_mod] at h1
  omega

theorem setWidth_rnd {w i : Nat} (hw : 6 ≤ w) (hi : i < 64) : (BitVec.ofNat 6 i).setWidth w = BitVec.ofNat w i := by
  apply BitVec.eq_of_toNat_eq
  have : 64 ≤ 2 ^ w := le_trans (by norm_num) (Nat.pow_le_pow_right (by norm_num) hw)
  simp only [BitVec.toNat_setWidth, BitVec.toNat_ofNat]
  rw [Nat.mod_eq_of_lt (show i < 2 ^ 6 by omega)]

theorem expandStep_inv (v : Variant) (key : Bytes) (i : Nat) (hi : i < 33) (st : Work × RoundKeys)
    (h : ExpandInv v key i st) : ExpandInv v key (i + 1) (expandStep v st i) := by
  have hm := v.m_bounds
  have hlen := expandState_length v key i
  have hrnd : (BitVec.ofNat 6 i).toNat = i := by
    simp only [BitVec.toNat_ofNat]; exact Nat.mod_eq_of_lt (by omega)
  have hnext : expandState v key (i + 1) = linkStep v.alpha v.beta i (expandState v key i) := by
    simp [expandState, linkState]
  have hl0 := h.l 0 (by omega)
  rw [Nat.add_zero] at hl0
  have hhead : (expandState v key i).2.getD 0 0 = (expandState v key i).2.headD 0 := by
    cases (expandState v key i).2 <;> rfl
  have hk' : (expandStep v st i).1.k = zext64 (expandState v key (i + 1)).1 := by
    simp only [expandStep, hrnd, h.k, hl0, hhead, low_zext64_variant, setWidth_rnd v.six_le_w (show i < 64 by omega), hnext,
      linkStep]
  have hlink : (expandStep v st i).1.l =
      st.1.l.setIfInBounds (i % (v.m - 1)) (zext64 ((expandState v key (i + 1)).2.getD (v.m - 2) 0)) := by
    simp only [expandStep, hrnd, h.k, hl0, hhead, low_zext64_variant, setWidth_rnd v.six_le_w (show i < 64 by omega), hnext,
      linkStep]
    congr 2
    rw [List.getD_append_right _ _ _ _ (by simp [hlen]; omega)]
    simp [hlen, show v.m - 2 - (v.m - 1 - 1) = 0 by omega]
  refine ⟨hk', fun j hj => ?_, fun j => ?_⟩
  · rw [hlink, entry_setIfInBounds]
    by_cases hj' : j = v.m - 2
    · have he : i % (v.m - 1) = (i + 1 + j) % (v.m - 1) := by
        rw [hj', show i + 1 + (v.m - 2) = i + (v.m - 1) by omega, Nat.add_mod_right]
      rw [if_pos ⟨he, lt_of_lt_of_le (Nat.mod_lt _ (by omega)) (by omega)⟩, hj']
    · rw [if_neg]
      · rw [show i + 1 + j = i + (j + 1) by omega, h.l (j + 1) (by omega), hnext]
        congr 1
        simp only [linkStep]
        rw [List.getD_append _ _ _ _ (by simp [hlen]; omega)]
        simp [List.getD_eq_getElem?_getD, List.getElem?_tail]
      · rintro ⟨he, -⟩
        rw [show i + 1 + j = i + (j + 1) by omega] at he
        exact add_mod_ne (by omega) (by omega) he.symm
  · have hrk : (expandStep v st i).2 = st.2.setIfInBounds (i + 1) (expandStep v st i).1.k := by
      simp only [expandStep, hrnd]
    rw [hrk, hk', entry_setIfInBounds, h.rk]
    by_cases hj : i + 1 = j
    · subst hj; rw [if_pos ⟨rfl, by omega⟩, if_pos ⟨le_rfl, by omega⟩]
    · rw [if_neg (by tauto)]
      have : (j ≤ i + 1) = (j ≤ i) := by apply propext; omega
      simp only [this]

theorem expandLoop_inv (v : Variant) (key : Bytes) (wk : Work) (n : Nat) (hn : n ≤ 33) :
    ExpandInv v key n ((List.range n).foldl (expandStep v) (expandLoad v key wk (Vector.replicate 34 0))) := by
  induction n with
  | zero => exact expandLoad_inv v key wk
  | succ n ih =>
    rw [List.range_succ, List.foldl_append]
    exact expandStep_inv v key n (by omega) _ (ih (by omega))

/-- R103 computes R100: the round keys come out zero-extended, the entries from `T` on are zero (R104). -/
theorem expandRegs_keys (c : Config) (v : Variant) (key : Bytes) (wk : Work) (h1 : 1 ≤ c.t v) (h34 : c.t v ≤ 34) :
    (expandRegs c v key wk).2.toList = scheduleImage (expand c v key) := by
  have h := expandLoop_inv v key wk (c.t v - 1) (by omega)
  apply toList_eq_of_entry
  · simp only [scheduleImage, List.length_append, List.length_map, List.length_replicate, expand_length c v key h1]; omega
  · intro i hi
    have := h.rk i
    rw [expandRegs, this, scheduleImage, expand_eq c v key h1]
    by_cases hT : i < c.t v
    · rw [if_pos ⟨by omega, hi⟩, List.getD_append _ _ _ _ (by simpa using hT)]
      simp [List.getD_eq_getElem?_getD, hT]
    · rw [if_neg (by omega), List.getD_append_right _ _ _ _ (by simpa using Nat.le_of_not_lt hT)]
      simp only [List.getD_eq_getElem?_getD, List.getElem?_replicate]
      split <;> rfl

/-- What `RK` or `TK` holds after the expansion is the schedule the commands read back (R124). -/
theorem storedKeys_of_image (c : Config) (v : Variant) (rk : RoundKeys) (ks : List (BitVec v.w))
    (hlen : ks.length = c.t v) (h : rk.toList = scheduleImage ks) : storedKeys c v rk = ks := by
  apply List.ext_getElem
  · simp [storedKeys, hlen]
  · intro i h1 h2
    simp only [storedKeys, List.getElem_map, List.getElem_range, entry, h, scheduleImage]
    rw [List.getD_append _ _ _ _ (by simpa using h2)]
    simp [List.getD_eq_getElem?_getD, h2]

theorem storedKeys_expandRegs (c : Config) (v : Variant) (key : Bytes) (wk : Work) (h1 : 1 ≤ c.t v) (h34 : c.t v ≤ 34) :
    storedKeys c v (expandRegs c v key wk).2 = expand c v key :=
  storedKeys_of_image c v _ _ (expand_length c v key h1) (expandRegs_keys c v key wk h1 h34)

end Sys2Proof.Machine
end

