-- ==== Sys2Proof/Laws/BlockCipher.lean ====
section
/-! SUPPORT. The register-level rounds compute `Encrypt` and `Decrypt` (spec 42_block_cipher.md R122, R123) of the block in
`X` and `Y`, and change no working register but `X`, `Y` and `RND`. -/

namespace Sys2Proof.Machine

/-- `Encrypt`'s rounds on a pair of words. -/
def rounds (v : Variant) (ks : List (BitVec v.w)) (xy : BitVec v.w × BitVec v.w) : BitVec v.w × BitVec v.w :=
  ks.foldl (fun xy k => rf v.alpha v.beta xy.1 xy.2 k) xy

/-- `Decrypt`'s inverse rounds on a pair of words. -/
def invRounds (v : Variant) (ks : List (BitVec v.w)) (xy : BitVec v.w × BitVec v.w) : BitVec v.w × BitVec v.w :=
  ks.reverse.foldl (fun xy k => rinv v.alpha v.beta xy.1 xy.2 k) xy

theorem encrypt_eq (v : Variant) (ks : List (BitVec v.w)) (b : Bytes) :
    encrypt v ks b = wordsBlock (rounds v ks (blockX v.w b, blockY v.w b)).1
      (rounds v ks (blockX v.w b, blockY v.w b)).2 := rfl

theorem decrypt_eq (v : Variant) (ks : List (BitVec v.w)) (b : Bytes) :
    decrypt v ks b = wordsBlock (invRounds v ks (blockX v.w b, blockY v.w b)).1
      (invRounds v ks (blockX v.w b, blockY v.w b)).2 := rfl

theorem wordsBlock_length {w : Nat} (x y : BitVec w) : (wordsBlock x y).length = w / 8 + w / 8 := by simp [wordsBlock]

theorem encrypt_length (v : Variant) (ks : List (BitVec v.w)) (b : Bytes) : (encrypt v ks b).length = v.blockBytes := by
  rw [encrypt_eq, wordsBlock_length, v.blockBytes_eq]

theorem decrypt_length (v : Variant) (ks : List (BitVec v.w)) (b : Bytes) : (decrypt v ks b).length = v.blockBytes := by
  rw [decrypt_eq, wordsBlock_length, v.blockBytes_eq]

theorem toNat_rnd {i : Nat} (hi : i < 64) : (BitVec.ofNat 6 i).toNat = i := by
  simp only [BitVec.toNat_ofNat]; exact Nat.mod_eq_of_lt (by omega)

/-- A fold over round indices below 64 with the round key read through `RND` is a fold over the stored round keys. -/
theorem foldl_roundStep (v : Variant) (rk : RoundKeys) (is : List Nat) (his : ∀ i ∈ is, i < 64) (wk : Work)
    (xy : BitVec v.w × BitVec v.w) (hx : wk.x = zext64 xy.1) (hy : wk.y = zext64 xy.2) :
    ∃ r, is.foldl (roundStep v rk) wk =
      { wk with
        rnd := r
        x := zext64 (rounds v (is.map fun i => low v.w (entry rk i)) xy).1
        y := zext64 (rounds v (is.map fun i => low v.w (entry rk i)) xy).2 } := by
  induction is generalizing wk xy with
  | nil => exact ⟨wk.rnd, by simp only [List.foldl_nil, List.map_nil, rounds]; rw [← hx, ← hy]⟩
  | cons i is ih =>
    have hi := toNat_rnd (his i (by simp))
    obtain ⟨r, hr⟩ := ih (fun j hj => his j (by simp [hj])) (roundStep v rk wk i)
      (rf v.alpha v.beta xy.1 xy.2 (low v.w (entry rk i)))
      (by simp only [roundStep, hx, hy, hi, low_zext64_variant])
      (by simp only [roundStep, hx, hy, hi, low_zext64_variant])
    exact ⟨r, by rw [List.foldl_cons, hr]; rfl⟩

/-- As `foldl_roundStep`, for the inverse rounds. -/
theorem foldl_invRoundStep (v : Variant) (rk : RoundKeys) (is : List Nat) (his : ∀ i ∈ is, i < 64) (wk : Work)
    (xy : BitVec v.w × BitVec v.w) (hx : wk.x = zext64 xy.1) (hy : wk.y = zext64 xy.2) :
    ∃ r, is.foldl (invRoundStep v rk) wk =
      { wk with
        rnd := r
        x := zext64 ((is.map fun i => low v.w (entry rk i)).foldl (fun xy k => rinv v.alpha v.beta xy.1 xy.2 k) xy).1
        y := zext64 ((is.map fun i => low v.w (entry rk i)).foldl (fun xy k => rinv v.alpha v.beta xy.1 xy.2 k) xy).2 } := by
  induction is generalizing wk xy with
  | nil => exact ⟨wk.rnd, by simp only [List.foldl_nil, List.map_nil]; rw [← hx, ← hy]⟩
  | cons i is ih =>
    have hi := toNat_rnd (his i (by simp))
    obtain ⟨r, hr⟩ := ih (fun j hj => his j (by simp [hj])) (invRoundStep v rk wk i)
      (rinv v.alpha v.beta xy.1 xy.2 (low v.w (entry rk i)))
      (by simp only [invRoundStep, hx, hy, hi, low_zext64_variant])
      (by simp only [invRoundStep, hx, hy, hi, low_zext64_variant])
    exact ⟨r, by rw [List.foldl_cons, hr]; rfl⟩

/-- R122 in registers: all rounds run on `X` and `Y`, and nothing but `X`, `Y`, `RND` changes. -/
theorem encryptXY_spec (c : Config) (v : Variant) (rk : RoundKeys) (wk : Work) (ht : c.t v ≤ 34)
    (xy : BitVec v.w × BitVec v.w) (hx : wk.x = zext64 xy.1) (hy : wk.y = zext64 xy.2) :
    ∃ r, encryptXY c v rk wk =
      { wk with
        rnd := r
        x := zext64 (rounds v (storedKeys c v rk) xy).1
        y := zext64 (rounds v (storedKeys c v rk) xy).2 } :=
  foldl_roundStep v rk (List.range (c.t v)) (fun i hi => by have := List.mem_range.mp hi; omega) wk xy hx hy

/-- R123 in registers. -/
theorem decryptXY_spec (c : Config) (v : Variant) (rk : RoundKeys) (wk : Work) (ht : c.t v ≤ 34)
    (xy : BitVec v.w × BitVec v.w) (hx : wk.x = zext64 xy.1) (hy : wk.y = zext64 xy.2) :
    ∃ r, decryptXY c v rk wk =
      { wk with
        rnd := r
        x := zext64 (invRounds v (storedKeys c v rk) xy).1
        y := zext64 (invRounds v (storedKeys c v rk) xy).2 } := by
  have h := foldl_invRoundStep v rk (List.range (c.t v)).reverse
    (fun i hi => by have := List.mem_range.mp (List.mem_reverse.mp hi); omega) wk xy hx hy
  simp only [List.map_reverse] at h
  exact h

/-- Loading a block, encrypting and storing is `Encrypt` of the stored schedule (R122). -/
theorem storeXY_encryptXY (c : Config) (v : Variant) (rk : RoundKeys) (wk : Work) (b : Bytes) (ht : c.t v ≤ 34) :
    storeXY v (encryptXY c v rk (loadXY v b wk)) = encrypt v (storedKeys c v rk) b := by
  obtain ⟨r, hr⟩ := encryptXY_spec c v rk (loadXY v b wk) ht (blockX v.w b, blockY v.w b) rfl rfl
  rw [hr, encrypt_eq]
  simp only [storeXY, low_zext64_variant]

/-- Loading a block, decrypting and storing is `Decrypt` of the stored schedule (R123). -/
theorem storeXY_decryptXY (c : Config) (v : Variant) (rk : RoundKeys) (wk : Work) (b : Bytes) (ht : c.t v ≤ 34) :
    storeXY v (decryptXY c v rk (loadXY v b wk)) = decrypt v (storedKeys c v rk) b := by
  obtain ⟨r, hr⟩ := decryptXY_spec c v rk (loadXY v b wk) ht (blockX v.w b, blockY v.w b) rfl rfl
  rw [hr, decrypt_eq]
  simp only [storeXY, low_zext64_variant]

/-- A block command's phase sets `OUT.block` to the stored result (R124, R125). -/
theorem State.blockPhase_out (s : State) (v : Variant) (run : Work → Work) :
    ((s.blockPhase v run).out = { s.out with
      block := storeXY v (run (loadXY v s.inp.block (s.enter .block).work)) }) := rfl

end Sys2Proof.Machine
end

