-- ==== Sys2Proof/Laws/Ctr.lean ====
section
/-! SUPPORT. The register form of the CTR unit (spec 43_ctr.md R143) computes `CtrStream` (R151) with the schedule in `TK`,
and leaves `TK`, `MACKEY` and the MAC registers alone. -/

namespace Sys2Proof.Machine

theorem Variant_pow_word (v : Variant) : 256 ^ (v.w / 8) = 2 ^ v.w := by cases v <;> norm_num [Variant.w]

theorem ofNat_mod_self (w n : Nat) : BitVec.ofNat w (n % 2 ^ w) = BitVec.ofNat w n := by
  apply BitVec.eq_of_toNat_eq; simp

/-- The left word of a counter block is the counter's high word (R55). -/
theorem blockX_counter (v : Variant) (c : Nat) :
    blockX v.w (beBytes v.blockBytes c) = BitVec.ofNat v.w (c / 2 ^ v.w) := by
  rw [blockX, memRead, List.drop_zero, v.blockBytes_eq, take_beBytes, be_beBytes, Variant_pow_word, ofNat_mod_self]

/-- The right word of a counter block is the counter's low word (R55). -/
theorem blockY_counter (v : Variant) (c : Nat) :
    blockY v.w (beBytes v.blockBytes c) = BitVec.ofNat v.w c := by
  rw [blockY, memRead, v.blockBytes_eq, drop_beBytes, List.take_of_length_le (by simp), be_beBytes, Variant_pow_word,
    ofNat_mod_self]

theorem counter_lt (v : Variant) (n : Nat) : n % 2 ^ (2 * v.w) < 2 ^ 128 :=
  lt_of_lt_of_le (Nat.mod_lt _ (by positivity)) (Nat.pow_le_pow_right (by norm_num) (by have := v.w_le; omega))

/-- `KS` after one counter block: the registers otherwise touched are `X`, `Y`, `RND` (R144). -/
theorem ctrKeystream_spec (c : Config) (v : Variant) (wk : Work) (nonce : Bytes) (j : Nat) (ht : c.t v ≤ 34)
    (hc : wk.ctrv.toNat = (be nonce + j) % 2 ^ (2 * v.w)) :
    ∃ r x y, ctrKeystream c v wk =
      { wk with rnd := r, x := x, y := y, ks := loadReg 16 (encrypt v (storedKeys c v wk.tk) (ctrBlock v nonce j)) } := by
  obtain ⟨r, hr⟩ := encryptXY_spec c v wk.tk (ctrToXY v wk) ht
    (blockX v.w (ctrBlock v nonce j), blockY v.w (ctrBlock v nonce j))
    (by simp only [ctrToXY, ctrBlock, blockX_counter, hc]) (by simp only [ctrToXY, ctrBlock, blockY_counter, hc])
  refine ⟨r, (encryptXY c v wk.tk (ctrToXY v wk)).x, (encryptXY c v wk.tk (ctrToXY v wk)).y, ?_⟩
  simp only [ctrKeystream, hr, encrypt_eq, storeXY, low_zext64_variant]
  rfl

/-- The stream of R151 from block index `j` on. -/
def streamFrom (v : Variant) (ks : List (BitVec v.w)) (nonce : Bytes) (j : Nat) (d : Bytes) : Bytes :=
  d.mapIdx fun p b => b ^^^ (encrypt v ks (ctrBlock v nonce (j + p / v.blockBytes))).getD (p % v.blockBytes) 0

theorem streamFrom_eq_ctrStream (v : Variant) (ks : List (BitVec v.w)) (nonce : Bytes) (t : Nat) (d : Bytes) :
    streamFrom v ks nonce t d = ctrStream v ks nonce t d := rfl

theorem getD_loadReg (s : Bytes) (p : Nat) (hp : p < 16) : (loadReg 16 s).toList.getD p 0 = s.getD p 0 := by
  simp [loadReg, List.getD_eq_getElem?_getD, hp]

/-- A stream is its first piece, on the leading keystream bytes, and the stream of the rest (R145, R151). -/
theorem streamFrom_split (v : Variant) (ks : List (BitVec v.w)) (nonce : Bytes) (j : Nat) (d : Bytes) :
    streamFrom v ks nonce j d =
      xorBytes (d.take v.blockBytes) (loadReg 16 (encrypt v ks (ctrBlock v nonce j))).toList ++
        streamFrom v ks nonce (j + 1) (d.drop v.blockBytes) := by
  have hB := v.blockBytes_pos
  have hB16 := v.blockBytes_le
  apply List.ext_getElem
  · simp only [streamFrom, List.length_mapIdx, List.length_append, xorBytes_length, List.length_take, List.length_drop,
      Vector.length_toList]
    omega
  · intro p h1 h2
    simp only [streamFrom, List.length_mapIdx] at h1
    simp only [streamFrom, List.getElem_mapIdx]
    by_cases hp : p < v.blockBytes
    · rw [List.getElem_append_left (by simp [xorBytes_length]; omega)]
      simp only [xorBytes, List.getElem_zipWith, List.getElem_take]
      rw [Nat.div_eq_of_lt hp, Nat.mod_eq_of_lt hp, Nat.add_zero, ← getD_loadReg _ _ (by omega)]
      congr 1
      simp [List.getD_eq_getElem?_getD, show p < 16 by omega]
    · have hlen : (xorBytes (d.take v.blockBytes)
          (loadReg 16 (encrypt v ks (ctrBlock v nonce j))).toList).length = v.blockBytes := by
        simp only [xorBytes_length, List.length_take, Vector.length_toList]; omega
      rw [List.getElem_append_right (by omega)]
      simp only [hlen, List.getElem_mapIdx, List.getElem_drop]
      obtain ⟨q, rfl⟩ := Nat.exists_eq_add_of_le (Nat.le_of_not_lt hp)
      simp only [Nat.add_sub_cancel_left, Nat.add_mod_left, Nat.add_div_left _ hB]
      rw [show j + (q / v.blockBytes).succ = j + 1 + q / v.blockBytes by omega]

/-- The CTR loop from block index `j` on: what it appends, and that it touches no register but `RND`, `X`, `Y`, `KS`,
`CTRV` and `J` (R143). -/
theorem ctrLoop_spec (c : Config) (v : Variant) (nonce : Bytes) (ht : c.t v ≤ 34) (fuel : Nat) (d : Bytes)
    (hd : d.length ≤ fuel) (j t : Nat) (wk : Work) (dest : Bytes)
    (hc : wk.ctrv.toNat = (be nonce + (t + j)) % 2 ^ (2 * v.w)) (hj : wk.j = j)
    (hdest : d ≠ [] → dest.length = j * v.blockBytes) :
    ∃ r x y ks ctrv n, (piecesUpTo v.blockBytes fuel d).foldl (ctrPiece c v) (wk, dest) =
      ({ wk with rnd := r, x := x, y := y, ks := ks, ctrv := ctrv, j := n },
        dest ++ streamFrom v (storedKeys c v wk.tk) nonce (t + j) d) := by
  induction fuel generalizing d j wk dest with
  | zero =>
    have : d = [] := List.length_eq_zero_iff.mp (by omega)
    subst this
    exact ⟨wk.rnd, wk.x, wk.y, wk.ks, wk.ctrv, wk.j, by simp [piecesUpTo, streamFrom]⟩
  | succ fuel ih =>
    cases d with
    | nil => exact ⟨wk.rnd, wk.x, wk.y, wk.ks, wk.ctrv, wk.j, by simp [piecesUpTo, streamFrom]⟩
    | cons b s =>
      have hB := v.blockBytes_pos
      obtain ⟨r, x, y, hks⟩ := ctrKeystream_spec c v wk nonce (t + j) ht hc
      have hpiece : ctrPiece c v (wk, dest) ((b :: s).take v.blockBytes) =
          (ctrAdvance v (ctrKeystream c v wk), dest ++ xorBytes ((b :: s).take v.blockBytes)
            (loadReg 16 (encrypt v (storedKeys c v wk.tk) (ctrBlock v nonce (t + j)))).toList) := by
        simp only [ctrPiece, hks]
        rw [memWrite_end _ _ _ (by rw [hdest (by simp), hj])]
      obtain ⟨r', x', y', ks', ctrv', n', hrest⟩ := ih ((b :: s).drop v.blockBytes)
        (by simp only [List.length_drop, List.length_cons] at *; omega) (j + 1) (ctrAdvance v (ctrKeystream c v wk))
        (dest ++ xorBytes ((b :: s).take v.blockBytes)
          (loadReg 16 (encrypt v (storedKeys c v wk.tk) (ctrBlock v nonce (t + j)))).toList)
        (by
          simp only [hks, ctrAdvance, hc, BitVec.toNat_ofNat]
          rw [Nat.mod_eq_of_lt (counter_lt v _), Nat.mod_add_mod]
          congr 1)
        (by simp only [hks, ctrAdvance, hj])
        (by
          intro hne
          have hlt : v.blockBytes < (b :: s).length := by
            by_contra hcon
            exact hne (List.drop_eq_nil_of_le (by omega))
          have := v.blockBytes_le
          simp only [List.length_append, hdest (by simp), xorBytes_length, List.length_take, Vector.length_toList]
          rw [Nat.min_eq_left (show v.blockBytes ≤ (b :: s).length by omega), Nat.min_eq_left this]
          ring)
      refine ⟨r', x', y', ks', ctrv', n', ?_⟩
      rw [piecesUpTo, List.foldl_cons, hpiece, hrest, streamFrom_split v _ nonce (t + j), List.append_assoc]
      simp only [hks, ctrAdvance]
      rfl

/-- R143 computes R151: the destination holds `CtrStream` under the schedule in `TK`. -/
theorem ctrRegs_spec (c : Config) (v : Variant) (nonce : Bytes) (t : Nat) (d : Bytes) (wk : Work) (ht : c.t v ≤ 34) :
    ∃ r x y ks ctrv n, ctrRegs c v nonce t d wk =
      ({ wk with rnd := r, x := x, y := y, ks := ks, ctrv := ctrv, j := n },
        ctrStream v (storedKeys c v wk.tk) nonce t d) := by
  obtain ⟨r, x, y, ks, ctrv, n, h⟩ := ctrLoop_spec c v nonce ht d.length d le_rfl 0 t (ctrLoad v nonce t wk) []
    (by simp only [ctrLoad, BitVec.toNat_ofNat, Nat.add_zero]; exact Nat.mod_eq_of_lt (counter_lt v _)) rfl (by simp)
  refine ⟨r, x, y, ks, ctrv, n, ?_⟩
  rw [ctrRegs, pieces, h, List.nil_append, Nat.add_zero, streamFrom_eq_ctrStream]
  rfl

@[simp] theorem ctrStream_length (v : Variant) (ks : List (BitVec v.w)) (nonce : Bytes) (t : Nat) (d : Bytes) :
    (ctrStream v ks nonce t d).length = d.length := by simp [ctrStream]

end Sys2Proof.Machine
end

