-- ==== Sys2Proof/Laws/Mac.lean ====
section
/-! SUPPORT. The byte-wise feeding sequence of spec 44_mac.md R165 leaves `UHASH(MACKEY, MacMsg(aad, ct))` in `TAGREG`,
and touches the MAC registers only. -/

namespace Sys2Proof.Machine

/-! ## Pieces -/

/-- Enough turns are enough: the bound on the number of pieces does not matter. -/
theorem piecesUpTo_eq (n k : Nat) (hn : 0 < n) (s : Bytes) (hs : s.length ≤ k) : piecesUpTo n k s = pieces n s := by
  suffices h : ∀ k k' (s : Bytes), s.length ≤ k → s.length ≤ k' → piecesUpTo n k s = piecesUpTo n k' s from
    h k s.length s hs le_rfl
  intro k
  induction k with
  | zero =>
    intro k' s hs _
    have : s = [] := List.length_eq_zero_iff.mp (by omega)
    subst this; cases k' <;> rfl
  | succ k ih =>
    intro k' s h1 h2
    cases s with
    | nil => cases k' <;> rfl
    | cons b s =>
      cases k' with
      | zero => simp at h2
      | succ k' =>
        simp only [piecesUpTo, List.cons.injEq, true_and]
        simp only [List.length_cons] at h1 h2
        exact ih k' _ (by simp only [List.length_drop, List.length_cons]; omega)
          (by simp only [List.length_drop, List.length_cons]; omega)

@[simp] theorem pieces_nil (n : Nat) : pieces n [] = [] := rfl

/-- A whole unit at the front is the first piece. -/
theorem pieces_unit_append (n : Nat) (hn : 0 < n) (u s : Bytes) (hu : u.length = n) :
    pieces n (u ++ s) = u :: pieces n s := by
  cases hus : u ++ s with
  | nil => simp at hus; simp [hus.1] at hu; omega
  | cons b t =>
    rw [pieces, List.length_cons, piecesUpTo, ← hus, List.take_left' hu, List.drop_left' hu,
      piecesUpTo_eq n _ hn]
    have := congrArg List.length hus
    simp only [List.length_append, List.length_cons] at this
    omega

/-- A byte string of whole units, cut into them. -/
theorem exists_units (n q : Nat) (s : Bytes) (hs : s.length = q * n) :
    ∃ us : List Bytes, (∀ u ∈ us, u.length = n) ∧ us.flatten = s := by
  induction q generalizing s with
  | zero => exact ⟨[], by simp, by simpa using (List.length_eq_zero_iff.mp (by simpa using hs)).symm⟩
  | succ q ih =>
    obtain ⟨us, h1, h2⟩ := ih (s.drop n) (by simp [hs, Nat.succ_mul])
    refine ⟨s.take n :: us, ?_, ?_⟩
    · intro u hu
      rcases List.mem_cons.mp hu with rfl | hu
      · simp [hs, Nat.succ_mul]
      · exact h1 u hu
    · simp [h2]

/-- The pieces of a string of whole units are the units. -/
theorem pieces_flatten (n : Nat) (hn : 0 < n) (us : List Bytes) (h : ∀ u ∈ us, u.length = n) :
    pieces n us.flatten = us := by
  induction us with
  | nil => rfl
  | cons u us ih =>
    rw [List.flatten_cons, pieces_unit_append n hn u _ (h u (by simp)), ih fun x hx => h x (by simp [hx])]

theorem pieces_append (n q : Nat) (hn : 0 < n) (s t : Bytes) (hs : s.length = q * n) :
    pieces n (s ++ t) = pieces n s ++ pieces n t := by
  obtain ⟨us, hu, rfl⟩ := exists_units n q s hs
  rw [pieces_flatten n hn us hu]
  clear hs
  induction us with
  | nil => rfl
  | cons u us ih =>
    rw [List.flatten_cons, List.append_assoc, pieces_unit_append n hn u _ (hu u (by simp)), List.cons_append,
      ih fun x hx => hu x (by simp [hx])]

theorem pad16_length (s : Bytes) : ∃ q, (pad16 s).length = q * 16 := by
  refine ⟨(s.length + (16 - s.length % 16) % 16) / 16, ?_⟩
  simp only [pad16, List.length_append, zeros_length]
  omega

/-! ## The assembly buffer as a list -/

/-- Feeding bytes one at a time: the accumulator and the bytes waiting for a full unit. -/
def feed (a : Acc) (p : Bytes) : Bytes → Acc × Bytes
  | [] => (a, p)
  | b :: s => if p.length + 1 = 16 then feed (macAbsorb a (p ++ [b])) [] s else feed a (p ++ [b]) s

theorem feed_append (a : Acc) (p s t : Bytes) : feed a p (s ++ t) = feed (feed a p s).1 (feed a p s).2 t := by
  induction s generalizing a p with
  | nil => rfl
  | cons b s ih => simp only [List.cons_append, feed]; split <;> exact ih _ _

theorem feed_fill (a : Acc) (p u s : Bytes) (hu : u ≠ []) (h : p.length + u.length = 16) :
    feed a p (u ++ s) = feed (macAbsorb a (p ++ u)) [] s := by
  induction u generalizing p with
  | nil => exact absurd rfl hu
  | cons b u ih =>
    simp only [List.length_cons] at h
    cases u with
    | nil => simp only [List.length_nil] at h; rw [List.singleton_append, feed, if_pos (by omega)]
    | cons c u =>
      rw [List.cons_append, feed, if_neg (by simp only [List.length_cons] at h; omega),
        ih (p ++ [b]) (by simp) (by simp only [List.length_append, List.length_cons, List.length_nil] at *; omega)]
      simp

/-- Whole units are absorbed one by one and nothing waits (R165). -/
theorem feed_units (a : Acc) (s : Bytes) (q : Nat) (hs : s.length = q * 16) :
    feed a [] s = ((pieces 16 s).foldl macAbsorb a, []) := by
  obtain ⟨us, hu, rfl⟩ := exists_units 16 q s hs
  rw [pieces_flatten 16 (by norm_num) us hu]
  clear hs
  induction us generalizing a with
  | nil => rfl
  | cons u us ih =>
    have h16 := hu u (by simp)
    rw [List.flatten_cons, feed_fill a [] u _ (by rintro rfl; simp at h16) (by simpa using h16), List.nil_append,
      ih _ (fun x hx => hu x (by simp [hx])), List.foldl_cons]

theorem feed_length (a : Acc) (p s : Bytes) (hp : p.length < 16) :
    (feed a p s).2.length = (p.length + s.length) % 16 := by
  induction s generalizing a p with
  | nil => simp [feed, Nat.mod_eq_of_lt hp]
  | cons b s ih =>
    simp only [feed]
    split
    · rw [ih _ _ (by simp)]; simp only [List.length_nil, List.length_cons]; omega
    · rw [ih _ _ (by simp only [List.length_append, List.length_cons, List.length_nil]; omega)]
      simp only [List.length_append, List.length_cons, List.length_nil]; congr 1; omega

/-- The registers hold the accumulator `a` and the waiting bytes `p` (R37). -/
structure Feeding (wk : Work) (a : Acc) (p : Bytes) : Prop where
  acc : wk.acc = a
  fill : wk.mfill = p.length
  short : p.length < 16
  buf : wk.mbuf.toList.take p.length = p

theorem push_spec (wk : Work) (a : Acc) (p : Bytes) (b : Byte) (h : Feeding wk a p) :
    Feeding (push wk b) (feed a p [b]).1 (feed a p [b]).2 ∧
      ∃ mbuf, push wk b = { wk with acc := (feed a p [b]).1, mfill := (feed a p [b]).2.length, mbuf := mbuf } := by
  have hlen : wk.mbuf.toList.length = 16 := Vector.length_toList
  have htake : ((wk.mbuf.setIfInBounds wk.mfill b).toList.take (p.length + 1)) = p ++ [b] := by
    have hs := h.short
    rw [Vector.toList_setIfInBounds, h.fill, List.take_add_one, List.take_set_of_le (le_refl _), h.buf]
    simp [hlen, hs]
  by_cases h16 : p.length + 1 = 16
  · have hfull : (wk.mbuf.setIfInBounds wk.mfill b).toList = p ++ [b] := by
      rw [← htake, h16, List.take_of_length_le (by simp)]
    have hp : push wk b = { wk with
        mbuf := wk.mbuf.setIfInBounds wk.mfill b, mfill := 0, acc := macAbsorb a (p ++ [b]) } := by
      simp only [push, h.fill, h16, if_true, h.acc]
      rw [← h.fill, hfull]
    have hf : feed a p [b] = (macAbsorb a (p ++ [b]), []) := by simp [feed, h16]
    rw [hf, hp]
    exact ⟨⟨rfl, rfl, by simp, by simp⟩, _, rfl⟩
  · have hp : push wk b = { wk with mbuf := wk.mbuf.setIfInBounds wk.mfill b, mfill := p.length + 1 } := by
      simp only [push, h.fill]; rw [if_neg h16]
    have hf : feed a p [b] = (a, p ++ [b]) := by simp [feed, h16]
    have hs := h.short
    rw [hf, hp]
    refine ⟨⟨h.acc, by simp, by simp; omega, by simpa using htake⟩, wk.mbuf.setIfInBounds wk.mfill b, ?_⟩
    simp [h.acc]

/-- Pushing a byte string: the registers follow `feed`, and only `ACC`, `MBUF`, `MFILL` change (R165). -/
theorem pushes_spec (s : Bytes) (wk : Work) (a : Acc) (p : Bytes) (h : Feeding wk a p) :
    Feeding (s.foldl push wk) (feed a p s).1 (feed a p s).2 ∧
      ∃ mbuf, s.foldl push wk = { wk with acc := (feed a p s).1, mfill := (feed a p s).2.length, mbuf := mbuf } := by
  induction s generalizing wk a p with
  | nil => exact ⟨h, wk.mbuf, by simp only [List.foldl_nil, feed]; rw [← h.acc, ← h.fill]⟩
  | cons b s ih =>
    obtain ⟨h1, m1, e1⟩ := push_spec wk a p b h
    obtain ⟨h2, m2, e2⟩ := ih (push wk b) _ _ h1
    have hsplit : feed a p (b :: s) = feed (feed a p [b]).1 (feed a p [b]).2 s := feed_append a p [b] s
    rw [hsplit]
    exact ⟨h2, m2, by rw [List.foldl_cons, e2, e1]⟩

theorem pushPadding_spec (n : Nat) (wk : Work) (a : Acc) (p : Bytes) (h : Feeding wk a p)
    (hn : (16 - p.length) % 16 ≤ n) :
    pushPadding n wk = (zeros ((16 - p.length) % 16)).foldl push wk := by
  induction n generalizing wk a p with
  | zero => rw [show (16 - p.length) % 16 = 0 by omega]; rfl
  | succ n ih =>
    have hs := h.short
    by_cases h0 : p.length = 0
    · rw [pushPadding, if_pos (by rw [h.fill, h0]), h0]; rfl
    · obtain ⟨h1, -⟩ := push_spec wk a p 0 h
      have hl := feed_length a p [0] hs
      simp only [List.length_cons, List.length_nil] at hl
      rw [pushPadding, if_neg (by rw [h.fill]; exact h0), ih (push wk 0) _ _ h1 (by omega), hl,
        show (16 - p.length) % 16 = (16 - (p.length + (0 + 1)) % 16) % 16 + 1 by omega]
      rfl

/-! ## The three phases -/

/-- Bytes of associated data are pushed, and the bit counter counts them (R162, R165). -/
theorem foldl_pushAad (s : Bytes) (wk : Work) :
    s.foldl pushAad wk = { s.foldl push wk with aadbits := wk.aadbits + BitVec.ofNat 64 (8 * s.length) } := by
  suffices h : ∀ (s : Bytes) (wk : Work) (n : BitVec 64),
      s.foldl pushAad { wk with aadbits := n } =
        { s.foldl push wk with aadbits := n + BitVec.ofNat 64 (8 * s.length) } from h s wk wk.aadbits
  intro s
  induction s with
  | nil => intro wk n; simp
  | cons b s ih =>
    intro wk n
    have : pushAad { wk with aadbits := n } b = { push wk b with aadbits := n + 8 } := by
      simp only [pushAad, push]; split <;> rfl
    rw [List.foldl_cons, this, ih, List.foldl_cons, List.length_cons]
    rw [show 8 * (s.length + 1) = 8 + 8 * s.length by ring, BitVec.ofNat_add, ← BitVec.add_assoc]
    rfl

/-- As `foldl_pushAad`, for the ciphertext (R162, R165). -/
theorem foldl_pushCt (s : Bytes) (wk : Work) :
    s.foldl pushCt wk = { s.foldl push wk with ctbits := wk.ctbits + BitVec.ofNat 64 (8 * s.length) } := by
  suffices h : ∀ (s : Bytes) (wk : Work) (n : BitVec 64),
      s.foldl pushCt { wk with ctbits := n } =
        { s.foldl push wk with ctbits := n + BitVec.ofNat 64 (8 * s.length) } from h s wk wk.ctbits
  intro s
  induction s with
  | nil => intro wk n; simp
  | cons b s ih =>
    intro wk n
    have : pushCt { wk with ctbits := n } b = { push wk b with ctbits := n + 8 } := by
      simp only [pushCt, push]; split <;> rfl
    rw [List.foldl_cons, this, ih, List.foldl_cons, List.length_cons]
    rw [show 8 * (s.length + 1) = 8 + 8 * s.length by ring, BitVec.ofNat_add, ← BitVec.add_assoc]
    rfl

/-- Pushing a part and its padding absorbs the padded part and leaves the buffer empty (R160, R165). -/
theorem push_padded (s : Bytes) (wk wk' : Work) (h0 : wk.mfill = 0) (hacc : wk'.acc = (s.foldl push wk).acc)
    (hfill : wk'.mfill = (s.foldl push wk).mfill) (hbuf : wk'.mbuf = (s.foldl push wk).mbuf) :
    ∃ mbuf, pushPadding 15 wk' =
      { wk' with acc := (pieces 16 (pad16 s)).foldl macAbsorb wk.acc, mfill := 0, mbuf := mbuf } := by
  obtain ⟨h1, -⟩ := pushes_spec s wk wk.acc [] ⟨rfl, h0, by simp, by simp⟩
  have hl := feed_length wk.acc [] s (by simp)
  rw [List.length_nil, Nat.zero_add] at hl
  have h2 : Feeding wk' (feed wk.acc [] s).1 (feed wk.acc [] s).2 :=
    ⟨hacc.trans h1.acc, hfill.trans h1.fill, h1.short, by rw [hbuf]; exact h1.buf⟩
  obtain ⟨q, hq⟩ := pad16_length s
  obtain ⟨-, m, hm⟩ := pushes_spec (zeros ((16 - (feed wk.acc [] s).2.length) % 16)) wk' _ _ h2
  refine ⟨m, ?_⟩
  rw [pushPadding_spec 15 wk' _ _ h2 (by omega), hm, ← feed_append, hl]
  have : s ++ zeros ((16 - s.length % 16) % 16) = pad16 s := rfl
  rw [this, feed_units wk.acc (pad16 s) q hq, List.length_nil]

/-- Phase `MAC_AAD` (R165). -/
theorem macAadRegs_spec (h : UHash) (aad : Bytes) (wk : Work) :
    ∃ mbuf, macAadRegs h aad wk =
      { wk with
        acc := (pieces 16 (pad16 aad)).foldl macAbsorb (macInit h wk.mackey.toList)
        mfill := 0, mbuf := mbuf, aadbits := BitVec.ofNat 64 (8 * aad.length), ctbits := 0 } := by
  obtain ⟨m1, e1⟩ := (pushes_spec aad (macStart h wk) _ [] ⟨rfl, rfl, by simp, by simp⟩).2
  obtain ⟨m, hm⟩ := push_padded aad (macStart h wk) (aad.foldl pushAad (macStart h wk)) rfl
    (by rw [foldl_pushAad]) (by rw [foldl_pushAad]) (by rw [foldl_pushAad])
  refine ⟨m, ?_⟩
  rw [macAadRegs, hm, foldl_pushAad, e1]
  simp [macStart]

/-- Phase `MAC_CT` from an empty assembly buffer (R165). -/
theorem macCtRegs_spec (ct : Bytes) (wk : Work) (h0 : wk.mfill = 0) :
    ∃ mbuf, macCtRegs ct wk =
      { wk with
        acc := (pieces 16 (pad16 ct)).foldl macAbsorb wk.acc
        mfill := 0, mbuf := mbuf, ctbits := wk.ctbits + BitVec.ofNat 64 (8 * ct.length) } := by
  obtain ⟨m1, e1⟩ := (pushes_spec ct wk _ [] ⟨rfl, h0, by simp, by simp⟩).2
  obtain ⟨m, hm⟩ := push_padded ct wk (ct.foldl pushCt wk) h0
    (by rw [foldl_pushCt]) (by rw [foldl_pushCt]) (by rw [foldl_pushCt])
  refine ⟨m, ?_⟩
  rw [macCtRegs, hm, foldl_pushCt, e1]

/-- Phase `MAC_LEN` from an empty assembly buffer (R165). -/
theorem macLenRegs_spec (wk : Work) (h0 : wk.mfill = 0) :
    ∃ mbuf acc, acc = macAbsorb wk.acc (leBytes 8 wk.aadbits.toNat ++ leBytes 8 wk.ctbits.toNat) ∧
      macLenRegs wk = { wk with acc := acc, mfill := 0, mbuf := mbuf, tagreg := loadReg 16 (macFinal acc) } := by
  obtain ⟨m, e⟩ := (pushes_spec (leBytes 8 wk.aadbits.toNat ++ leBytes 8 wk.ctbits.toNat) wk _ []
    ⟨rfl, h0, by simp, by simp⟩).2
  have hu : feed wk.acc [] (leBytes 8 wk.aadbits.toNat ++ leBytes 8 wk.ctbits.toNat) =
      (macAbsorb wk.acc (leBytes 8 wk.aadbits.toNat ++ leBytes 8 wk.ctbits.toNat), []) := by
    have := feed_fill wk.acc [] (leBytes 8 wk.aadbits.toNat ++ leBytes 8 wk.ctbits.toNat) []
      (fun hn => by simpa using congrArg List.length hn) (by simp)
    simpa [feed] using this
  rw [hu] at e
  refine ⟨m, _, rfl, ?_⟩
  rw [macLenRegs, e]
  rfl

/-! ## The hash parameter -/

theorem macAbsorb_poly (r s : BitVec 128) (acc : Nat) (us : List Bytes) :
    us.foldl macAbsorb (.poly r s acc) = .poly r s (poly1305From r.toNat acc us) := by
  induction us generalizing acc with
  | nil => rfl
  | cons u us ih => rw [List.foldl_cons]; exact ih _

theorem macAbsorb_buffered (n : Nat) (key msg : Bytes) (us : List Bytes) :
    us.foldl macAbsorb (.buffered n key msg) = .buffered n key (msg ++ us.flatten) := by
  induction us generalizing msg with
  | nil => simp
  | cons u us ih =>
    rw [List.foldl_cons, List.flatten_cons, ← List.append_assoc]
    exact ih _

/-- Absorbing the units of a message and finishing is `UHASH` of the message (R164). -/
theorem macFinal_units (h : UHash) (key msg : Bytes) (q : Nat) (hm : msg.length = q * 16) :
    macFinal ((pieces 16 msg).foldl macAbsorb (macInit h key)) = uhash h key msg := by
  cases h with
  | poly1305 =>
    rw [macInit, macAbsorb_poly]
    simp only [macFinal, uhash, poly1305, BitVec.toNat_ofNat, Nat.add_mod_mod]
  | other n =>
    obtain ⟨us, hu, rfl⟩ := exists_units 16 q msg hm
    rw [macInit, macAbsorb_buffered, pieces_flatten 16 (by norm_num) us hu]
    rfl

theorem uhash_length (h : UHash) (key msg : Bytes) : (uhash h key msg).length = 16 := by
  cases h <;> simp [uhash, poly1305]

theorem macFinal_length (a : Acc) : (macFinal a).length = 16 := by cases a <;> simp [macFinal]

theorem macMsg_length (aad ct : Bytes) : ∃ q, (macMsg aad ct).length = q * 16 := by
  obtain ⟨q1, h1⟩ := pad16_length aad
  obtain ⟨q2, h2⟩ := pad16_length ct
  exact ⟨q1 + q2 + 1, by simp only [macMsg, List.length_append, h1, h2, leBytes_length]; ring⟩

/-- Absorbing the three parts one after the other is absorbing `MacMsg` (R161). -/
theorem absorb_macMsg (a : Acc) (aad ct : Bytes) :
    macAbsorb ((pieces 16 (pad16 ct)).foldl macAbsorb ((pieces 16 (pad16 aad)).foldl macAbsorb a))
        (leBytes 8 (8 * aad.length) ++ leBytes 8 (8 * ct.length)) =
      (pieces 16 (macMsg aad ct)).foldl macAbsorb a := by
  obtain ⟨q1, h1⟩ := pad16_length aad
  obtain ⟨q2, h2⟩ := pad16_length ct
  have hlen : pieces 16 (leBytes 8 (8 * aad.length) ++ leBytes 8 (8 * ct.length)) =
      [leBytes 8 (8 * aad.length) ++ leBytes 8 (8 * ct.length)] := by
    have := pieces_unit_append 16 (by norm_num) (leBytes 8 (8 * aad.length) ++ leBytes 8 (8 * ct.length)) [] (by simp)
    simpa using this
  rw [macMsg, List.append_assoc, List.append_assoc, pieces_append 16 q1 (by norm_num) _ _ h1,
    pieces_append 16 q2 (by norm_num) _ _ h2, hlen, List.foldl_append, List.foldl_append]
  rfl

theorem leBytes_bits (n : Nat) : leBytes 8 (BitVec.ofNat 64 n).toNat = leBytes 8 n := by
  rw [BitVec.toNat_ofNat]
  exact leBytes_mod 8 n

end Sys2Proof.Machine
end

