-- ==== Sys2Proof/Laws/State.lean ====
section
/-! SUPPORT. One lemma per field of State for each named update: what the update leaves, and what it sets. Later proofs
rewrite with these and never unfold a record update. -/

namespace Sys2Proof.Machine

/-! ### `State.enter` -/

@[simp] theorem State.enter_cfg (s : State) (p : Phase) :
    (s.enter p).cfg = s.cfg := rfl

@[simp] theorem State.enter_slots (s : State) (p : Phase) :
    (s.enter p).slots = s.slots := rfl

@[simp] theorem State.enter_status (s : State) (p : Phase) :
    (s.enter p).status = s.status := rfl

@[simp] theorem State.enter_work (s : State) (p : Phase) :
    (s.enter p).work = { s.work with phase := p } := rfl

@[simp] theorem State.enter_inp (s : State) (p : Phase) :
    (s.enter p).inp = s.inp := rfl

@[simp] theorem State.enter_out (s : State) (p : Phase) :
    (s.enter p).out = s.out := rfl

@[simp] theorem State.enter_host (s : State) (p : Phase) :
    (s.enter p).host = s.host := rfl

@[simp] theorem State.enter_reply (s : State) (p : Phase) :
    (s.enter p).reply = s.reply := rfl

/-! ### `State.begin` -/

@[simp] theorem State.begin_cfg (s : State) :
    s.begin.cfg = s.cfg := rfl

@[simp] theorem State.begin_slots (s : State) :
    s.begin.slots = s.slots := rfl

@[simp] theorem State.begin_status (s : State) :
    s.begin.status = s.status := rfl

@[simp] theorem State.begin_work (s : State) :
    s.begin.work = { s.work with phase := .check } := rfl

@[simp] theorem State.begin_inp (s : State) :
    s.begin.inp = s.inp := rfl

@[simp] theorem State.begin_out (s : State) :
    s.begin.out = OutBufs.empty := rfl

@[simp] theorem State.begin_host (s : State) :
    s.begin.host = s.host := rfl

@[simp] theorem State.begin_reply (s : State) :
    s.begin.reply = s.reply := rfl

/-! ### `State.finish` -/

@[simp] theorem State.finish_cfg (s : State) (st : Status) :
    (s.finish st).cfg = s.cfg := rfl

@[simp] theorem State.finish_slots (s : State) (st : Status) :
    (s.finish st).slots = s.slots := rfl

@[simp] theorem State.finish_status (s : State) (st : Status) :
    (s.finish st).status = st.word := rfl

@[simp] theorem State.finish_work (s : State) (st : Status) :
    (s.finish st).work = Work.reset := rfl

@[simp] theorem State.finish_inp (s : State) (st : Status) :
    (s.finish st).inp = s.inp := rfl

@[simp] theorem State.finish_out (s : State) (st : Status) :
    (s.finish st).out = s.out := rfl

@[simp] theorem State.finish_host (s : State) (st : Status) :
    (s.finish st).host = s.host := rfl

@[simp] theorem State.finish_reply (s : State) (st : Status) :
    (s.finish st).reply = s.reply := rfl

/-! ### `State.raise` -/

@[simp] theorem State.raise_cfg (s : State) (st : Status) :
    (s.raise st).cfg = s.cfg := rfl

@[simp] theorem State.raise_slots (s : State) (st : Status) :
    (s.raise st).slots = s.slots := rfl

@[simp] theorem State.raise_status (s : State) (st : Status) :
    (s.raise st).status = st.word := rfl

@[simp] theorem State.raise_work (s : State) (st : Status) :
    (s.raise st).work = Work.reset := rfl

@[simp] theorem State.raise_inp (s : State) (st : Status) :
    (s.raise st).inp = s.inp := rfl

@[simp] theorem State.raise_out (s : State) (st : Status) :
    (s.raise st).out = OutBufs.empty := rfl

@[simp] theorem State.raise_host (s : State) (st : Status) :
    (s.raise st).host = s.host := rfl

@[simp] theorem State.raise_reply (s : State) (st : Status) :
    (s.raise st).reply = s.reply := rfl

/-! ### `State.setSlot` -/

@[simp] theorem State.setSlot_cfg (s : State) (n : Nat) (sl : Slot) :
    (s.setSlot n sl).cfg = s.cfg := rfl

@[simp] theorem State.setSlot_slots (s : State) (n : Nat) (sl : Slot) :
    (s.setSlot n sl).slots = s.slots.set n sl := rfl

@[simp] theorem State.setSlot_status (s : State) (n : Nat) (sl : Slot) :
    (s.setSlot n sl).status = s.status := rfl

@[simp] theorem State.setSlot_work (s : State) (n : Nat) (sl : Slot) :
    (s.setSlot n sl).work = s.work := rfl

@[simp] theorem State.setSlot_inp (s : State) (n : Nat) (sl : Slot) :
    (s.setSlot n sl).inp = s.inp := rfl

@[simp] theorem State.setSlot_out (s : State) (n : Nat) (sl : Slot) :
    (s.setSlot n sl).out = s.out := rfl

@[simp] theorem State.setSlot_host (s : State) (n : Nat) (sl : Slot) :
    (s.setSlot n sl).host = s.host := rfl

@[simp] theorem State.setSlot_reply (s : State) (n : Nat) (sl : Slot) :
    (s.setSlot n sl).reply = s.reply := rfl

/-! ### `State.resetEvent` -/

@[simp] theorem State.resetEvent_cfg (s : State) :
    s.resetEvent.cfg = s.cfg := rfl

@[simp] theorem State.resetEvent_slots (s : State) :
    s.resetEvent.slots = List.replicate s.nslot Slot.empty := rfl

@[simp] theorem State.resetEvent_status (s : State) :
    s.resetEvent.status = 0 := rfl

@[simp] theorem State.resetEvent_work (s : State) :
    s.resetEvent.work = Work.reset := rfl

@[simp] theorem State.resetEvent_inp (s : State) :
    s.resetEvent.inp = InBufs.empty := rfl

@[simp] theorem State.resetEvent_out (s : State) :
    s.resetEvent.out = OutBufs.empty := rfl

@[simp] theorem State.resetEvent_host (s : State) :
    s.resetEvent.host = s.host := rfl

@[simp] theorem State.resetEvent_reply (s : State) :
    s.resetEvent.reply = s.reply := rfl

/-! ### `State.withFetchWord` -/

@[simp] theorem State.withFetchWord_cfg (s : State) (nbits w : Nat) :
    (s.withFetchWord nbits w).cfg = s.cfg := rfl

@[simp] theorem State.withFetchWord_slots (s : State) (nbits w : Nat) :
    (s.withFetchWord nbits w).slots = s.slots := rfl

@[simp] theorem State.withFetchWord_status (s : State) (nbits w : Nat) :
    (s.withFetchWord nbits w).status = s.status := rfl

@[simp] theorem State.withFetchWord_work (s : State) (nbits w : Nat) :
    (s.withFetchWord nbits w).work = s.work := rfl

@[simp] theorem State.withFetchWord_inp (s : State) (nbits w : Nat) :
    (s.withFetchWord nbits w).inp = s.inp := rfl

@[simp] theorem State.withFetchWord_out (s : State) (nbits w : Nat) :
    (s.withFetchWord nbits w).out = s.out := rfl

@[simp] theorem State.withFetchWord_host (s : State) (nbits w : Nat) :
    (s.withFetchWord nbits w).host = .writeReg 0 (BitVec.ofNat 32 (w % 2 ^ nbits)) :: s.host := rfl

@[simp] theorem State.withFetchWord_reply (s : State) (nbits w : Nat) :
    (s.withFetchWord nbits w).reply = s.reply := rfl

/-! ### `State.expandIntoSlot` -/

@[simp] theorem State.expandIntoSlot_cfg (s : State) (v : Variant) (n : Nat) :
    (s.expandIntoSlot v n).cfg = s.cfg := by
  simp only [State.expandIntoSlot, State.enter, State.setSlot]

@[simp] theorem State.expandIntoSlot_status (s : State) (v : Variant) (n : Nat) :
    (s.expandIntoSlot v n).status = s.status := by
  simp only [State.expandIntoSlot, State.enter, State.setSlot]

@[simp] theorem State.expandIntoSlot_inp (s : State) (v : Variant) (n : Nat) :
    (s.expandIntoSlot v n).inp = s.inp := by
  simp only [State.expandIntoSlot, State.enter, State.setSlot]

@[simp] theorem State.expandIntoSlot_out (s : State) (v : Variant) (n : Nat) :
    (s.expandIntoSlot v n).out = s.out := by
  simp only [State.expandIntoSlot, State.enter, State.setSlot]

@[simp] theorem State.expandIntoSlot_host (s : State) (v : Variant) (n : Nat) :
    (s.expandIntoSlot v n).host = s.host := by
  simp only [State.expandIntoSlot, State.enter, State.setSlot]

@[simp] theorem State.expandIntoSlot_reply (s : State) (v : Variant) (n : Nat) :
    (s.expandIntoSlot v n).reply = s.reply := by
  simp only [State.expandIntoSlot, State.enter, State.setSlot]

/-! ### `State.expandIntoTK` -/

@[simp] theorem State.expandIntoTK_cfg (s : State) (v : Variant) :
    (s.expandIntoTK v).cfg = s.cfg := by
  simp only [State.expandIntoTK, State.enter]

@[simp] theorem State.expandIntoTK_slots (s : State) (v : Variant) :
    (s.expandIntoTK v).slots = s.slots := by
  simp only [State.expandIntoTK, State.enter]

@[simp] theorem State.expandIntoTK_status (s : State) (v : Variant) :
    (s.expandIntoTK v).status = s.status := by
  simp only [State.expandIntoTK, State.enter]

@[simp] theorem State.expandIntoTK_inp (s : State) (v : Variant) :
    (s.expandIntoTK v).inp = s.inp := by
  simp only [State.expandIntoTK, State.enter]

@[simp] theorem State.expandIntoTK_out (s : State) (v : Variant) :
    (s.expandIntoTK v).out = s.out := by
  simp only [State.expandIntoTK, State.enter]

@[simp] theorem State.expandIntoTK_host (s : State) (v : Variant) :
    (s.expandIntoTK v).host = s.host := by
  simp only [State.expandIntoTK, State.enter]

@[simp] theorem State.expandIntoTK_reply (s : State) (v : Variant) :
    (s.expandIntoTK v).reply = s.reply := by
  simp only [State.expandIntoTK, State.enter]

/-! ### `State.blockPhase` -/

@[simp] theorem State.blockPhase_cfg (s : State) (v : Variant) (run : Work → Work) :
    (s.blockPhase v run).cfg = s.cfg := by
  simp only [State.blockPhase, State.enter]

@[simp] theorem State.blockPhase_slots (s : State) (v : Variant) (run : Work → Work) :
    (s.blockPhase v run).slots = s.slots := by
  simp only [State.blockPhase, State.enter]

@[simp] theorem State.blockPhase_status (s : State) (v : Variant) (run : Work → Work) :
    (s.blockPhase v run).status = s.status := by
  simp only [State.blockPhase, State.enter]

@[simp] theorem State.blockPhase_inp (s : State) (v : Variant) (run : Work → Work) :
    (s.blockPhase v run).inp = s.inp := by
  simp only [State.blockPhase, State.enter]

@[simp] theorem State.blockPhase_host (s : State) (v : Variant) (run : Work → Work) :
    (s.blockPhase v run).host = s.host := by
  simp only [State.blockPhase, State.enter]

@[simp] theorem State.blockPhase_reply (s : State) (v : Variant) (run : Work → Work) :
    (s.blockPhase v run).reply = s.reply := by
  simp only [State.blockPhase, State.enter]

/-! ### `State.cryptPhase` -/

@[simp] theorem State.cryptPhase_cfg (s : State) (v : Variant) (t : Nat) :
    (s.cryptPhase v t).cfg = s.cfg := by
  simp only [State.cryptPhase, State.enter]

@[simp] theorem State.cryptPhase_slots (s : State) (v : Variant) (t : Nat) :
    (s.cryptPhase v t).slots = s.slots := by
  simp only [State.cryptPhase, State.enter]

@[simp] theorem State.cryptPhase_status (s : State) (v : Variant) (t : Nat) :
    (s.cryptPhase v t).status = s.status := by
  simp only [State.cryptPhase, State.enter]

@[simp] theorem State.cryptPhase_inp (s : State) (v : Variant) (t : Nat) :
    (s.cryptPhase v t).inp = s.inp := by
  simp only [State.cryptPhase, State.enter]

@[simp] theorem State.cryptPhase_host (s : State) (v : Variant) (t : Nat) :
    (s.cryptPhase v t).host = s.host := by
  simp only [State.cryptPhase, State.enter]

@[simp] theorem State.cryptPhase_reply (s : State) (v : Variant) (t : Nat) :
    (s.cryptPhase v t).reply = s.reply := by
  simp only [State.cryptPhase, State.enter]

/-! ### `State.subkeyPhase` -/

@[simp] theorem State.subkeyPhase_cfg (s : State) (v : Variant) :
    (s.subkeyPhase v).cfg = s.cfg := by
  simp only [State.subkeyPhase, State.enter]

@[simp] theorem State.subkeyPhase_slots (s : State) (v : Variant) :
    (s.subkeyPhase v).slots = s.slots := by
  simp only [State.subkeyPhase, State.enter]

@[simp] theorem State.subkeyPhase_status (s : State) (v : Variant) :
    (s.subkeyPhase v).status = s.status := by
  simp only [State.subkeyPhase, State.enter]

@[simp] theorem State.subkeyPhase_inp (s : State) (v : Variant) :
    (s.subkeyPhase v).inp = s.inp := by
  simp only [State.subkeyPhase, State.enter]

@[simp] theorem State.subkeyPhase_out (s : State) (v : Variant) :
    (s.subkeyPhase v).out = s.out := by
  simp only [State.subkeyPhase, State.enter]

@[simp] theorem State.subkeyPhase_host (s : State) (v : Variant) :
    (s.subkeyPhase v).host = s.host := by
  simp only [State.subkeyPhase, State.enter]

@[simp] theorem State.subkeyPhase_reply (s : State) (v : Variant) :
    (s.subkeyPhase v).reply = s.reply := by
  simp only [State.subkeyPhase, State.enter]

/-! ### `State.macAadPhase` -/

@[simp] theorem State.macAadPhase_cfg (s : State) :
    s.macAadPhase.cfg = s.cfg := by
  simp only [State.macAadPhase, State.enter]

@[simp] theorem State.macAadPhase_slots (s : State) :
    s.macAadPhase.slots = s.slots := by
  simp only [State.macAadPhase, State.enter]

@[simp] theorem State.macAadPhase_status (s : State) :
    s.macAadPhase.status = s.status := by
  simp only [State.macAadPhase, State.enter]

@[simp] theorem State.macAadPhase_inp (s : State) :
    s.macAadPhase.inp = s.inp := by
  simp only [State.macAadPhase, State.enter]

@[simp] theorem State.macAadPhase_out (s : State) :
    s.macAadPhase.out = s.out := by
  simp only [State.macAadPhase, State.enter]

@[simp] theorem State.macAadPhase_host (s : State) :
    s.macAadPhase.host = s.host := by
  simp only [State.macAadPhase, State.enter]

@[simp] theorem State.macAadPhase_reply (s : State) :
    s.macAadPhase.reply = s.reply := by
  simp only [State.macAadPhase, State.enter]

/-! ### `State.macCtPhase` -/

@[simp] theorem State.macCtPhase_cfg (s : State) (ct : Bytes) :
    (s.macCtPhase ct).cfg = s.cfg := by
  simp only [State.macCtPhase, State.enter]

@[simp] theorem State.macCtPhase_slots (s : State) (ct : Bytes) :
    (s.macCtPhase ct).slots = s.slots := by
  simp only [State.macCtPhase, State.enter]

@[simp] theorem State.macCtPhase_status (s : State) (ct : Bytes) :
    (s.macCtPhase ct).status = s.status := by
  simp only [State.macCtPhase, State.enter]

@[simp] theorem State.macCtPhase_inp (s : State) (ct : Bytes) :
    (s.macCtPhase ct).inp = s.inp := by
  simp only [State.macCtPhase, State.enter]

@[simp] theorem State.macCtPhase_out (s : State) (ct : Bytes) :
    (s.macCtPhase ct).out = s.out := by
  simp only [State.macCtPhase, State.enter]

@[simp] theorem State.macCtPhase_host (s : State) (ct : Bytes) :
    (s.macCtPhase ct).host = s.host := by
  simp only [State.macCtPhase, State.enter]

@[simp] theorem State.macCtPhase_reply (s : State) (ct : Bytes) :
    (s.macCtPhase ct).reply = s.reply := by
  simp only [State.macCtPhase, State.enter]

/-! ### `State.macLenPhase` -/

@[simp] theorem State.macLenPhase_cfg (s : State) :
    s.macLenPhase.cfg = s.cfg := by
  simp only [State.macLenPhase, State.enter]

@[simp] theorem State.macLenPhase_slots (s : State) :
    s.macLenPhase.slots = s.slots := by
  simp only [State.macLenPhase, State.enter]

@[simp] theorem State.macLenPhase_status (s : State) :
    s.macLenPhase.status = s.status := by
  simp only [State.macLenPhase, State.enter]

@[simp] theorem State.macLenPhase_inp (s : State) :
    s.macLenPhase.inp = s.inp := by
  simp only [State.macLenPhase, State.enter]

@[simp] theorem State.macLenPhase_out (s : State) :
    s.macLenPhase.out = s.out := by
  simp only [State.macLenPhase, State.enter]

@[simp] theorem State.macLenPhase_host (s : State) :
    s.macLenPhase.host = s.host := by
  simp only [State.macLenPhase, State.enter]

@[simp] theorem State.macLenPhase_reply (s : State) :
    s.macLenPhase.reply = s.reply := by
  simp only [State.macLenPhase, State.enter]

/-! ### `State.comparePhase` -/

@[simp] theorem State.comparePhase_cfg (s : State) :
    s.comparePhase.cfg = s.cfg := by
  simp only [State.comparePhase, State.enter]

@[simp] theorem State.comparePhase_slots (s : State) :
    s.comparePhase.slots = s.slots := by
  simp only [State.comparePhase, State.enter]

@[simp] theorem State.comparePhase_status (s : State) :
    s.comparePhase.status = s.status := by
  simp only [State.comparePhase, State.enter]

@[simp] theorem State.comparePhase_inp (s : State) :
    s.comparePhase.inp = s.inp := by
  simp only [State.comparePhase, State.enter]

@[simp] theorem State.comparePhase_out (s : State) :
    s.comparePhase.out = s.out := by
  simp only [State.comparePhase, State.enter]

@[simp] theorem State.comparePhase_host (s : State) :
    s.comparePhase.host = s.host := by
  simp only [State.comparePhase, State.enter]

@[simp] theorem State.comparePhase_reply (s : State) :
    s.comparePhase.reply = s.reply := by
  simp only [State.comparePhase, State.enter]

/-! ### `State.outTag` -/

@[simp] theorem State.outTag_cfg (s : State) :
    s.outTag.cfg = s.cfg := rfl

@[simp] theorem State.outTag_slots (s : State) :
    s.outTag.slots = s.slots := rfl

@[simp] theorem State.outTag_status (s : State) :
    s.outTag.status = s.status := rfl

@[simp] theorem State.outTag_work (s : State) :
    s.outTag.work = s.work := rfl

@[simp] theorem State.outTag_inp (s : State) :
    s.outTag.inp = s.inp := rfl

@[simp] theorem State.outTag_out (s : State) :
    s.outTag.out = { s.out with tag := s.work.tagreg.toList } := rfl

@[simp] theorem State.outTag_host (s : State) :
    s.outTag.host = s.host := rfl

@[simp] theorem State.outTag_reply (s : State) :
    s.outTag.reply = s.reply := rfl

/-! ### `State.nslot` -/

@[simp] theorem State.nslot_finish (s : State) (st : Status) : (s.finish st).nslot = s.nslot := rfl

@[simp] theorem State.nslot_raise (s : State) (st : Status) : (s.raise st).nslot = s.nslot := rfl

@[simp] theorem State.nslot_setSlot (s : State) (n : Nat) (sl : Slot) : (s.setSlot n sl).nslot = s.nslot := by
  simp [State.nslot]

@[simp] theorem State.nslot_expandIntoSlot (s : State) (v : Variant) (n : Nat) :
    (s.expandIntoSlot v n).nslot = s.nslot := by
  simp [State.nslot, State.expandIntoSlot, State.setSlot, State.enter]

@[simp] theorem State.nslot_resetEvent (s : State) : s.resetEvent.nslot = s.nslot := by
  simp [State.nslot, State.resetEvent]

end Sys2Proof.Machine
end

