-- ==== Sys2Proof/Laws/Phases.lean ====
section
/-! SUPPORT. What each phase of spec 45_aead.md R188 leaves for the next one, and what the phase sequences of the commands
come to: outputs and `TAGOK` in terms of the functions `Expand`, `CtrStream`, `MacMsg`, `UHASH`. Each is cited by the proofs
about commands instead of unfolding a phase. -/

namespace Sys2Proof.Machine

/-- After `EXPAND` into `TK`, the schedule the later phases read is `Expand(IN.key, v)` (R34, R100). -/
theorem State.expandIntoTK_keys (s : State) (v : Variant) (h1 : 1 ≤ s.cfg.t v) (h34 : s.cfg.t v ≤ 34) :
    storedKeys s.cfg v (s.expandIntoTK v).work.tk = expand s.cfg v s.inp.key :=
  storedKeys_expandRegs s.cfg v s.inp.key (s.enter .expand).work h1 h34

/-- After `EXPAND` into a slot, that slot is valid, of variant `v`, and holds `Expand(IN.key, v)` (R104). -/
theorem State.expandIntoSlot_slots (s : State) (v : Variant) (n : Nat) :
    (s.expandIntoSlot v n).slots =
      s.slots.set n { valid := true, var := v, rk := (expandRegs s.cfg v s.inp.key (s.enter .expand).work).2 } := rfl

/-- Phase `CRYPT` sets `OUT.data` to `CtrStream` under the schedule in `TK`, and leaves `TK` and `MACKEY` (R182). -/
theorem State.cryptPhase_spec (s : State) (v : Variant) (t : Nat) (ht : s.cfg.t v ≤ 34) :
    (s.cryptPhase v t).out = { s.out with
      data := ctrStream v (storedKeys s.cfg v s.work.tk) s.inp.nonce t s.inp.data } ∧
    (s.cryptPhase v t).work.tk = s.work.tk ∧ (s.cryptPhase v t).work.mackey = s.work.mackey := by
  obtain ⟨r, x, y, ks, ctrv, n, h⟩ := ctrRegs_spec s.cfg v s.inp.nonce t s.inp.data (s.enter .crypt).work ht
  simp only [State.cryptPhase, State.enter_cfg, State.enter_inp, State.enter_out, h]
  exact ⟨rfl, rfl, rfl⟩

/-- Phase `SUBKEY` sets `MACKEY` to the MAC subkey and leaves `TK` (R181). -/
theorem State.subkeyPhase_spec (s : State) (v : Variant) (ht : s.cfg.t v ≤ 34) :
    (s.subkeyPhase v).work.mackey.toList = macSubkey v (storedKeys s.cfg v s.work.tk) s.inp.nonce ∧
      (s.subkeyPhase v).work.tk = s.work.tk := by
  obtain ⟨r, x, y, ks, ctrv, n, h⟩ := ctrRegs_spec s.cfg v s.inp.nonce 0 (zeros 32) (s.enter .subkey).work ht
  simp only [State.subkeyPhase, State.enter_cfg, State.enter_inp, h]
  refine ⟨?_, by simp only [State.enter_work]⟩
  rw [loadReg_toList _ _ (by simp), macSubkey]
  simp only [State.enter_work]

/-- Phases `MAC_AAD`, `MAC_CT`, `MAC_LEN` in turn leave `UHASH(MACKEY, MacMsg(aad, ct))` in `TAGREG` (R165, R190), and leave
`TK`. -/
theorem State.macPhases_spec (s : State) (ct : Bytes) :
    ((s.macAadPhase.macCtPhase ct).macLenPhase).work.tagreg.toList =
        uhash s.cfg.uhash s.work.mackey.toList (macMsg s.inp.aad ct) ∧
      ((s.macAadPhase.macCtPhase ct).macLenPhase).work.tk = s.work.tk := by
  obtain ⟨m1, h1⟩ := macAadRegs_spec s.cfg.uhash s.inp.aad (s.enter .macAad).work
  have e1 : s.macAadPhase.work = macAadRegs s.cfg.uhash s.inp.aad (s.enter .macAad).work := by
    simp only [State.macAadPhase, State.enter_cfg, State.enter_inp]
  rw [h1] at e1
  simp only [State.enter_work] at e1
  obtain ⟨m2, h2⟩ := macCtRegs_spec ct (s.macAadPhase.enter .macCt).work (by simp only [State.enter_work, e1])
  have e2 : (s.macAadPhase.macCtPhase ct).work = macCtRegs ct (s.macAadPhase.enter .macCt).work := by
    simp only [State.macCtPhase]
  rw [h2] at e2
  simp only [State.enter_work, e1, zero_add] at e2
  obtain ⟨m3, acc, hacc, h3⟩ := macLenRegs_spec ((s.macAadPhase.macCtPhase ct).enter .macLen).work
    (by simp only [State.enter_work, e2])
  have e3 : ((s.macAadPhase.macCtPhase ct).macLenPhase).work =
      macLenRegs ((s.macAadPhase.macCtPhase ct).enter .macLen).work := by
    simp only [State.macLenPhase]
  rw [h3] at e3
  simp only [State.enter_work, e2, leBytes_bits] at e3 hacc
  obtain ⟨q, hq⟩ := macMsg_length s.inp.aad ct
  rw [e3]
  refine ⟨?_, rfl⟩
  rw [loadReg_toList _ _ (macFinal_length acc), ← macFinal_units _ _ _ q hq, ← absorb_macMsg, hacc]

/-- What `aead_encrypt`'s phases come to: ciphertext and tag (R181, R182, R183, R190). -/
theorem State.sealPhases_out (s : State) (v : Variant) (h1 : 1 ≤ s.cfg.t v) (h34 : s.cfg.t v ≤ 34) :
    (s.sealPhases v).out = { s.out with
      data := ctrStream v (expand s.cfg v s.inp.key) s.inp.nonce 1 s.inp.data
      tag := aeadTag s.cfg.uhash v (expand s.cfg v s.inp.key) s.inp.nonce s.inp.aad
        (ctrStream v (expand s.cfg v s.inp.key) s.inp.nonce 1 s.inp.data) } := by
  have hk := s.expandIntoTK_keys v h1 h34
  obtain ⟨hmk, htk⟩ := (s.expandIntoTK v).subkeyPhase_spec v (by simpa using h34)
  obtain ⟨hout, htk2, hmk2⟩ := ((s.expandIntoTK v).subkeyPhase v).cryptPhase_spec v 1 (by simpa using h34)
  obtain ⟨htag, -⟩ := (((s.expandIntoTK v).subkeyPhase v).cryptPhase v 1).macPhases_spec
    (((s.expandIntoTK v).subkeyPhase v).cryptPhase v 1).out.data
  simp only [State.expandIntoTK_cfg, State.expandIntoTK_inp, State.expandIntoTK_out, State.subkeyPhase_cfg,
    State.subkeyPhase_inp, State.subkeyPhase_out, State.cryptPhase_cfg, State.cryptPhase_inp, htk, hk, hmk2, hmk]
    at hmk hout htag
  rw [hout] at htag
  simp only [State.sealPhases, State.outTag_out, State.macLenPhase_out, State.macCtPhase_out, State.macAadPhase_out, hout,
    htag, aeadTag]

/-- What `aead_decrypt`'s phases up to `COMPARE` come to: `TAGOK`, and the schedule still in `TK` (R184, R186). -/
theorem State.verifyPhases_spec (s : State) (v : Variant) (h1 : 1 ≤ s.cfg.t v) (h34 : s.cfg.t v ≤ 34) :
    (s.verifyPhases v).work.tagok =
        tagEq (aeadTag s.cfg.uhash v (expand s.cfg v s.inp.key) s.inp.nonce s.inp.aad s.inp.data) s.inp.tag ∧
      storedKeys s.cfg v (s.verifyPhases v).work.tk = expand s.cfg v s.inp.key := by
  have hk := s.expandIntoTK_keys v h1 h34
  obtain ⟨hmk, htk⟩ := (s.expandIntoTK v).subkeyPhase_spec v (by simpa using h34)
  obtain ⟨htag, htk2⟩ := ((s.expandIntoTK v).subkeyPhase v).macPhases_spec s.inp.data
  simp only [State.expandIntoTK_cfg, State.expandIntoTK_inp, State.subkeyPhase_cfg, State.subkeyPhase_inp, htk, hk, hmk]
    at hmk htag htk2
  constructor
  · simp only [State.verifyPhases, State.comparePhase, State.enter_work, State.enter_inp, State.macLenPhase_inp,
      State.macCtPhase_inp, State.macAadPhase_inp, State.subkeyPhase_inp, State.expandIntoTK_inp, htag, aeadTag]
  · simp only [State.verifyPhases, State.comparePhase, State.enter_work, State.macAadPhase_inp, State.subkeyPhase_inp,
      State.expandIntoTK_inp, htk2, hk]

/-- The frame of `aead_decrypt`'s phases up to `COMPARE`: only working registers change. -/
theorem State.verifyPhases_frame (s : State) (v : Variant) :
    (s.verifyPhases v).cfg = s.cfg ∧ (s.verifyPhases v).slots = s.slots ∧ (s.verifyPhases v).status = s.status ∧
      (s.verifyPhases v).inp = s.inp ∧ (s.verifyPhases v).out = s.out ∧ (s.verifyPhases v).host = s.host ∧
      (s.verifyPhases v).reply = s.reply := by simp [State.verifyPhases]

/-- The frame of `aead_encrypt`'s phases: only working registers and the outputs change. -/
theorem State.sealPhases_frame (s : State) (v : Variant) :
    (s.sealPhases v).cfg = s.cfg ∧ (s.sealPhases v).slots = s.slots ∧ (s.sealPhases v).status = s.status ∧
      (s.sealPhases v).inp = s.inp ∧ (s.sealPhases v).host = s.host ∧ (s.sealPhases v).reply = s.reply := by
  simp [State.sealPhases]

/-! ## The checks -/

/-- `StreamChecks` succeeds exactly when the code names a stream-capable variant and both lengths are its own (R141). -/
theorem streamChecks_ok_iff (var : BitVec 4) (inp : InBufs) (v : Variant) :
    streamChecks var inp = .ok v ↔
      Variant.ofStreamCode var = some v ∧ inp.key.length = v.keyBytes ∧ inp.nonce.length = v.blockBytes := by
  simp only [streamChecks]
  cases h : Variant.ofStreamCode var with
  | none => simp
  | some u =>
    by_cases hk : inp.key.length = u.keyBytes
    · by_cases hn : inp.nonce.length = u.blockBytes
      · simp only [hk, hn, ne_eq, not_true_eq_false, if_false, Except.ok.injEq, Option.some.injEq]
        constructor
        · rintro rfl; exact ⟨rfl, rfl, rfl⟩
        · exact fun h => h.1
      · simp only [hk, hn, ne_eq, not_true_eq_false, if_false, not_false_eq_true, if_true, reduceCtorEq, false_iff,
          Option.some.injEq, not_and]
        rintro rfl - h'; exact hn h'
    · simp only [hk, ne_eq, not_false_eq_true, if_true, reduceCtorEq, false_iff, Option.some.injEq, not_and]
      rintro rfl h'; exact absurd h' hk

/-- `StreamChecks` fails with one of three statuses (R141). -/
theorem streamChecks_error_cases (var : BitVec 4) (inp : InBufs) (st : Status) (h : streamChecks var inp = .error st) :
    st = .unknownVariant ∨ st = .invalidKeySize ∨ st = .invalidNonceSize := by
  simp only [streamChecks] at h
  split at h
  · simp_all
  · split at h
    · simp_all
    · split at h <;> simp_all

/-- Every outcome of a block command (R124, R125). -/
theorem blockCommand_cases (slot : BitVec 4) (run : Config → Variant → RoundKeys → Work → Work) (s : State) :
    (s.slots[slot.toNat]? = none ∧ blockCommand slot run s = .next (s.begin.raise .illegalCommand)) ∨
    (∃ sl, s.slots[slot.toNat]? = some sl ∧ sl.valid = false ∧
      blockCommand slot run s = .next (s.begin.raise .noSchedule)) ∨
    (∃ sl, s.slots[slot.toNat]? = some sl ∧ sl.valid = true ∧ s.inp.block.length ≠ sl.var.blockBytes ∧
      blockCommand slot run s = .next (s.begin.raise .invalidBlockSize)) ∨
    (∃ sl, s.slots[slot.toNat]? = some sl ∧ sl.valid = true ∧ s.inp.block.length = sl.var.blockBytes ∧
      blockCommand slot run s = .next ((s.begin.blockPhase sl.var (run s.cfg sl.var sl.rk)).finish .ok)) := by
  simp only [blockCommand]
  cases hs : s.slots[slot.toNat]? with
  | none => exact .inl ⟨rfl, rfl⟩
  | some sl =>
    cases hv : sl.valid with
    | false => exact .inr (.inl ⟨sl, rfl, hv, by simp [hv]⟩)
    | true =>
      by_cases hb : s.inp.block.length = sl.var.blockBytes
      · exact .inr (.inr (.inr ⟨sl, rfl, hv, hb, by simp [hv, hb]⟩))
      · exact .inr (.inr (.inl ⟨sl, rfl, hv, hb, by simp [hv, hb]⟩))

/-- A step with an access pending serves it (R64). -/
theorem step_cons (s : State) (r : HostReq) (rest : List HostReq) (h : s.host = r :: rest) :
    step s = serve r { s with host := rest } := by simp only [step, h]

/-- A step with none pending leaves the state (R240). -/
theorem step_idle (s : State) (h : s.host = []) : step s = .next s := by simp only [step, h]

end Sys2Proof.Machine
end

