-- ==== Sys2Proof/Laws/Commands.lean ====
section
/-! SUPPORT. Every outcome of each command, once: the tests in the order they are made, the status, the outputs and the slots
the command ends with. Proofs about commands cite these and never unfold a meaning. -/

namespace Sys2Proof.Machine

/-- The state `s` after a command that ended with status `st`, outputs `o` and slots `slots`: everything a command can change
(R26, R44, R61). -/
def State.ended (s : State) (st : Status) (o : OutBufs) (slots : List Slot) : State :=
  { s with status := st.word, out := o, work := Work.reset, slots := slots }

/-- A failed command (R214). -/
theorem State.begin_raise (s : State) (st : Status) : s.begin.raise st = s.ended st OutBufs.empty s.slots := rfl

/-- Every outcome of `variant_info` (R93). -/
theorem execVariantInfo_cases (var : BitVec 4) (s : State) :
    (Variant.ofCode var = none ∧ execVariantInfo var s = .next (s.ended .unknownVariant OutBufs.empty s.slots)) ∨
    (∃ v, Variant.ofCode var = some v ∧ execVariantInfo var s =
      .next (s.ended .ok { OutBufs.empty with info := infoBytes (params s.cfg v) } s.slots)) := by
  simp only [execVariantInfo]
  cases h : Variant.ofCode var with
  | none => exact .inl ⟨rfl, rfl⟩
  | some v => exact .inr ⟨v, rfl, rfl⟩

/-- Every outcome of `schedule` (R104). -/
theorem execSchedule_cases (var slot : BitVec 4) (s : State) :
    (s.nslot ≤ slot.toNat ∧ execSchedule var slot s = .next (s.ended .illegalCommand OutBufs.empty s.slots)) ∨
    (slot.toNat < s.nslot ∧ Variant.ofCode var = none ∧
      execSchedule var slot s = .next (s.ended .unknownVariant OutBufs.empty s.slots)) ∨
    (∃ v, slot.toNat < s.nslot ∧ Variant.ofCode var = some v ∧ s.inp.key.length ≠ v.keyBytes ∧
      execSchedule var slot s = .next (s.ended .invalidKeySize OutBufs.empty s.slots)) ∨
    (∃ v, slot.toNat < s.nslot ∧ Variant.ofCode var = some v ∧ s.inp.key.length = v.keyBytes ∧
      execSchedule var slot s = .next (s.ended .ok OutBufs.empty (s.slots.set slot.toNat
        { valid := true, var := v
          rk := (expandRegs s.cfg v s.inp.key { s.work with phase := .expand }).2 }))) := by
  simp only [execSchedule]
  by_cases h1 : slot.toNat < s.nslot
  · simp only [h1, if_true]
    cases h : Variant.ofCode var with
    | none => exact .inr (.inl ⟨trivial, rfl, rfl⟩)
    | some v =>
      by_cases hk : s.inp.key.length = v.keyBytes
      · refine .inr (.inr (.inr ⟨v, trivial, rfl, hk, ?_⟩))
        simp only [hk, ne_eq, not_true_eq_false, if_false, State.finish, s.begin.expandIntoSlot_slots v slot.toNat,
          State.expandIntoSlot_cfg, State.expandIntoSlot_inp, State.expandIntoSlot_out, State.expandIntoSlot_host,
          State.expandIntoSlot_reply]
        rfl
      · refine .inr (.inr (.inl ⟨v, trivial, rfl, hk, ?_⟩))
        simp only [ne_eq, hk, not_false_eq_true, if_true, State.begin_raise]
  · simp only [h1, if_false]
    exact .inl ⟨Nat.le_of_not_lt h1, rfl⟩

/-- Every outcome of `release` (R106). -/
theorem execRelease_cases (slot : BitVec 4) (s : State) :
    (s.nslot ≤ slot.toNat ∧ execRelease slot s = .next (s.ended .illegalCommand OutBufs.empty s.slots)) ∨
    (slot.toNat < s.nslot ∧
      execRelease slot s = .next (s.ended .ok OutBufs.empty (s.slots.set slot.toNat Slot.empty))) := by
  simp only [execRelease]
  by_cases h1 : slot.toNat < s.nslot
  · simp only [h1, if_true]; exact .inr ⟨trivial, rfl⟩
  · simp only [h1, if_false]; exact .inl ⟨Nat.le_of_not_lt h1, rfl⟩

/-- Every outcome of `encrypt_block` and `decrypt_block` (R124, R125). -/
theorem blockCommand_ends (slot : BitVec 4) (run : Config → Variant → RoundKeys → Work → Work) (s : State) :
    (s.slots[slot.toNat]? = none ∧ blockCommand slot run s = .next (s.ended .illegalCommand OutBufs.empty s.slots)) ∨
    (∃ sl, s.slots[slot.toNat]? = some sl ∧ sl.valid = false ∧
      blockCommand slot run s = .next (s.ended .noSchedule OutBufs.empty s.slots)) ∨
    (∃ sl, s.slots[slot.toNat]? = some sl ∧ sl.valid = true ∧ s.inp.block.length ≠ sl.var.blockBytes ∧
      blockCommand slot run s = .next (s.ended .invalidBlockSize OutBufs.empty s.slots)) ∨
    (∃ sl, s.slots[slot.toNat]? = some sl ∧ sl.valid = true ∧ s.inp.block.length = sl.var.blockBytes ∧
      blockCommand slot run s = .next (s.ended .ok { OutBufs.empty with
        block := storeXY sl.var (run s.cfg sl.var sl.rk (loadXY sl.var s.inp.block { s.work with phase := .block })) }
        s.slots)) := by
  rcases blockCommand_cases slot run s with ⟨h, e⟩ | ⟨sl, h1, h2, e⟩ | ⟨sl, h1, h2, h3, e⟩ | ⟨sl, h1, h2, h3, e⟩
  · exact .inl ⟨h, e⟩
  · exact .inr (.inl ⟨sl, h1, h2, e⟩)
  · exact .inr (.inr (.inl ⟨sl, h1, h2, h3, e⟩))
  · refine .inr (.inr (.inr ⟨sl, h1, h2, h3, e.trans ?_⟩))
    simp only [State.finish, State.blockPhase_out, State.blockPhase_cfg, State.blockPhase_inp, State.blockPhase_host,
      State.blockPhase_reply, State.blockPhase_slots]
    rfl

/-- Every outcome of `ctr_crypt` (R146, R60). -/
theorem execCtrCrypt_cases (var : BitVec 4) (s : State) :
    (s.dataTooLong = true ∧ execCtrCrypt var s = .refused .operandTooLong) ∨
    (s.dataTooLong = false ∧ ∃ st, streamChecks var s.inp = .error st ∧
      execCtrCrypt var s = .next (s.ended st OutBufs.empty s.slots)) ∨
    (s.dataTooLong = false ∧ ∃ v, streamChecks var s.inp = .ok v ∧ execCtrCrypt var s =
      .next (s.ended .ok { OutBufs.empty with data := ((s.begin.expandIntoTK v).cryptPhase v 0).out.data } s.slots)) := by
  simp only [execCtrCrypt]
  cases s.dataTooLong with
  | true => exact .inl ⟨rfl, rfl⟩
  | false =>
    simp only [Bool.false_eq_true, if_false, false_and, true_and, false_or]
    cases h : streamChecks var s.inp with
    | error st => exact .inl ⟨st, rfl, rfl⟩
    | ok v =>
      refine .inr ⟨v, rfl, ?_⟩
      have hout : ((s.begin.expandIntoTK v).cryptPhase v 0).out =
          { OutBufs.empty with data := ((s.begin.expandIntoTK v).cryptPhase v 0).out.data } := by
        simp only [State.cryptPhase, State.enter_out, State.expandIntoTK_out, State.begin_out]
      simp only [State.finish, State.cryptPhase_cfg, State.cryptPhase_slots, State.cryptPhase_inp, State.cryptPhase_host,
        State.cryptPhase_reply, State.expandIntoTK_cfg, State.expandIntoTK_slots, State.expandIntoTK_inp,
        State.expandIntoTK_host, State.expandIntoTK_reply]
      rw [← hout]; rfl

/-- Every outcome of `aead_encrypt` (R183, R60). -/
theorem execAeadEncrypt_cases (var : BitVec 4) (s : State) :
    ((s.dataTooLong || s.aadTooLong) = true ∧ execAeadEncrypt var s = .refused .operandTooLong) ∨
    ((s.dataTooLong || s.aadTooLong) = false ∧ ∃ st, streamChecks var s.inp = .error st ∧
      execAeadEncrypt var s = .next (s.ended st OutBufs.empty s.slots)) ∨
    ((s.dataTooLong || s.aadTooLong) = false ∧ ∃ v, streamChecks var s.inp = .ok v ∧
      execAeadEncrypt var s = .next (s.ended .ok (s.begin.sealPhases v).out s.slots)) := by
  simp only [execAeadEncrypt]
  cases (s.dataTooLong || s.aadTooLong) with
  | true => exact .inl ⟨rfl, rfl⟩
  | false =>
    simp only [Bool.false_eq_true, if_false, false_and, true_and, false_or]
    cases h : streamChecks var s.inp with
    | error st => exact .inl ⟨st, rfl, rfl⟩
    | ok v =>
      refine .inr ⟨v, rfl, ?_⟩
      obtain ⟨e1, e2, -, e4, e5, e6⟩ := s.begin.sealPhases_frame v
      simp only [State.finish, e1, e2, e4, e5, e6]
      rfl

/-- Every outcome of `aead_decrypt` (R184, R60). -/
theorem execAeadDecrypt_cases (var : BitVec 4) (s : State) :
    ((s.dataTooLong || s.aadTooLong) = true ∧ execAeadDecrypt var s = .refused .operandTooLong) ∨
    ((s.dataTooLong || s.aadTooLong) = false ∧ ∃ st, streamChecks var s.inp = .error st ∧
      execAeadDecrypt var s = .next (s.ended st OutBufs.empty s.slots)) ∨
    ((s.dataTooLong || s.aadTooLong) = false ∧ ∃ v, streamChecks var s.inp = .ok v ∧ s.inp.tag.length ≠ 16 ∧
      execAeadDecrypt var s = .next (s.ended .authenticationFailed OutBufs.empty s.slots)) ∨
    ((s.dataTooLong || s.aadTooLong) = false ∧ ∃ v, streamChecks var s.inp = .ok v ∧ s.inp.tag.length = 16 ∧
      (s.begin.verifyPhases v).work.tagok = false ∧
      execAeadDecrypt var s = .next (s.ended .authenticationFailed OutBufs.empty s.slots)) ∨
    ((s.dataTooLong || s.aadTooLong) = false ∧ ∃ v, streamChecks var s.inp = .ok v ∧ s.inp.tag.length = 16 ∧
      (s.begin.verifyPhases v).work.tagok = true ∧ execAeadDecrypt var s =
      .next (s.ended .ok { OutBufs.empty with data := ((s.begin.verifyPhases v).cryptPhase v 1).out.data } s.slots)) := by
  simp only [execAeadDecrypt]
  cases (s.dataTooLong || s.aadTooLong) with
  | true => exact .inl ⟨rfl, rfl⟩
  | false =>
    simp only [Bool.false_eq_true, if_false, false_and, true_and, false_or]
    cases h : streamChecks var s.inp with
    | error st => exact .inl ⟨st, rfl, rfl⟩
    | ok v =>
      by_cases ht : s.inp.tag.length = 16
      · obtain ⟨e1, e2, -, e4, e5, e6, e7⟩ := s.begin.verifyPhases_frame v
        cases hok : (s.begin.verifyPhases v).work.tagok with
        | false =>
          refine .inr (.inr (.inl ⟨v, rfl, ht, hok, ?_⟩))
          simp only [ht, ne_eq, not_true_eq_false, if_false, hok, Bool.false_eq_true, State.raise, State.finish, e1, e2, e4,
            e6, e7]
          rfl
        | true =>
          refine .inr (.inr (.inr ⟨v, rfl, ht, hok, ?_⟩))
          have hout : ((s.begin.verifyPhases v).cryptPhase v 1).out =
              { OutBufs.empty with data := ((s.begin.verifyPhases v).cryptPhase v 1).out.data } := by
            simp only [State.cryptPhase, State.enter_out, e5, State.begin_out]
          simp only [ht, ne_eq, not_true_eq_false, if_false, hok, if_true, State.finish, State.cryptPhase_cfg,
            State.cryptPhase_slots, State.cryptPhase_inp, State.cryptPhase_host, State.cryptPhase_reply, e1, e2, e4, e6, e7]
          rw [← hout]; rfl
      · refine .inr (.inl ⟨v, rfl, ht, ?_⟩)
        simp only [ne_eq, ht, not_false_eq_true, if_true]; rfl

/-! ## Runs of several steps -/

/-- A run goes on from the next state. -/
theorem core_run_next (k : Nat) (s t : State) (h : step s = .next t) : core.run (k + 1) s = core.run k t := by
  have : core.step s = .next t := h
  simp only [Host.Core.run, this]

/-- A run stops at a refusal. -/
theorem core_run_refused (k : Nat) (s : State) (r : Refusal) (h : step s = .refused r) :
    core.run (k + 1) s = .refused r := by
  have : core.step s = .refused r := h
  simp only [Host.Core.run, this]

end Sys2Proof.Machine
end

