-- ==== Sys2Proof/Laws/Decode.lean ====
section
/-! SUPPORT. The four fields of an assembled command word, and a word as its four fields (spec 30_encoding.md R71). -/

namespace Sys2Proof

/-- Bit `i` of an assembled word, field by field (R71). -/
theorem getLsbD_formatC (slot var op : BitVec 4) (i : Nat) :
    (formatC slot var op).getLsbD i =
      if i < 4 then op.getLsbD i else if i - 4 < 4 then var.getLsbD (i - 4)
      else if i - 4 - 4 < 4 then slot.getLsbD (i - 4 - 4) else false := by
  show BitVec.getLsbD (w := 20 + 4 + 4 + 4) (0#20 ++ slot ++ var ++ op) i = _
  simp only [BitVec.getLsbD_append, BitVec.getLsbD_zero]

theorem opOf_formatC (slot var op : BitVec 4) : opOf (formatC slot var op) = op := by
  apply BitVec.eq_of_getLsbD_eq
  intro i hi
  simp [opOf, getLsbD_formatC, hi]

theorem varOf_formatC (slot var op : BitVec 4) : varOf (formatC slot var op) = var := by
  apply BitVec.eq_of_getLsbD_eq
  intro i hi
  simp [varOf, getLsbD_formatC, hi]

theorem slotOf_formatC (slot var op : BitVec 4) : slotOf (formatC slot var op) = slot := by
  apply BitVec.eq_of_getLsbD_eq
  intro i hi
  simp [slotOf, getLsbD_formatC, hi, show ¬8 + i < 4 by omega, show 8 + i - 4 = 4 + i by omega]

theorem zeroOf_formatC (slot var op : BitVec 4) : zeroOf (formatC slot var op) = 0 := by
  apply BitVec.eq_of_getLsbD_eq
  intro i hi
  simp only [zeroOf, BitVec.getLsbD_extractLsb', getLsbD_formatC, if_neg (show ¬12 + i < 4 by omega),
    if_neg (show ¬12 + i - 4 < 4 by omega), if_neg (show ¬12 + i - 4 - 4 < 4 by omega), Bool.and_false]
  simp

/-- A word with `ZERO = 0` is its three fields assembled. -/
theorem formatC_fields (c : CmdWord) (h : zeroOf c = 0) : formatC (slotOf c) (varOf c) (opOf c) = c := by
  apply BitVec.eq_of_getLsbD_eq
  intro i hi
  have hz : ∀ j, j < 20 → c.getLsbD (12 + j) = false := by
    intro j hj
    have := congrArg (fun b : BitVec 20 => b.getLsbD j) h
    simpa [zeroOf, BitVec.getLsbD_extractLsb', hj] using this
  simp only [getLsbD_formatC, opOf, varOf, slotOf, BitVec.getLsbD_extractLsb']
  by_cases h4 : i < 4
  · simp [h4]
  · by_cases h8 : i - 4 < 4
    · simp [h4, h8, show 4 + (i - 4) = i by omega]
    · by_cases h12 : i - 4 - 4 < 4
      · simp [h4, h8, h12, show 8 + (i - 4 - 4) = i by omega]
      · have := hz (i - 12) (by omega)
        rw [show 12 + (i - 12) = i by omega] at this
        simp [h4, h8, h12, this]

end Sys2Proof
end

