-- ==== Sys2Proof/Laws/PerInstr.lean ====
section
/-! SUPPORT. A statement per command: the fields of its word. `OP` is the command's code (spec 30_encoding.md R72), `ZERO` is 0,
and a field the command does not use is 0 (R76, R77). -/

namespace Sys2Proof.Laws.WordFields

/-- The operation code of a command (R72). -/
def opCode : Instr → Nat
  | .variantInfo _ => 0
  | .schedule _ _ => 1
  | .release _ => 2
  | .encryptBlock _ => 3
  | .decryptBlock _ => 4
  | .ctrCrypt _ => 5
  | .aeadEncrypt _ => 6
  | .aeadDecrypt _ => 7

/-- The word of a command carries its code, a zero `ZERO` field, its operand fields, and zeros in fields it does not use. -/
def Statement (i : Instr) : Prop :=
  (opOf (encode i)).toNat = opCode i ∧ zeroOf (encode i) = 0 ∧
    match i with
    | .variantInfo var => varOf (encode i) = var ∧ slotOf (encode i) = 0
    | .schedule var slot => varOf (encode i) = var ∧ slotOf (encode i) = slot
    | .release slot => varOf (encode i) = 0 ∧ slotOf (encode i) = slot
    | .encryptBlock slot => varOf (encode i) = 0 ∧ slotOf (encode i) = slot
    | .decryptBlock slot => varOf (encode i) = 0 ∧ slotOf (encode i) = slot
    | .ctrCrypt var => varOf (encode i) = var ∧ slotOf (encode i) = 0
    | .aeadEncrypt var => varOf (encode i) = var ∧ slotOf (encode i) = 0
    | .aeadDecrypt var => varOf (encode i) = var ∧ slotOf (encode i) = 0

theorem variantInfo (var : BitVec 4) : Statement (.variantInfo var) := by
  simp [Statement, encode, opCode, opOf_formatC, varOf_formatC, slotOf_formatC, zeroOf_formatC]

theorem schedule (var slot : BitVec 4) : Statement (.schedule var slot) := by
  simp [Statement, encode, opCode, opOf_formatC, varOf_formatC, slotOf_formatC, zeroOf_formatC]

theorem release (slot : BitVec 4) : Statement (.release slot) := by
  simp [Statement, encode, opCode, opOf_formatC, varOf_formatC, slotOf_formatC, zeroOf_formatC]

theorem encryptBlock (slot : BitVec 4) : Statement (.encryptBlock slot) := by
  simp [Statement, encode, opCode, opOf_formatC, varOf_formatC, slotOf_formatC, zeroOf_formatC]

theorem decryptBlock (slot : BitVec 4) : Statement (.decryptBlock slot) := by
  simp [Statement, encode, opCode, opOf_formatC, varOf_formatC, slotOf_formatC, zeroOf_formatC]

theorem ctrCrypt (var : BitVec 4) : Statement (.ctrCrypt var) := by
  simp [Statement, encode, opCode, opOf_formatC, varOf_formatC, slotOf_formatC, zeroOf_formatC]

theorem aeadEncrypt (var : BitVec 4) : Statement (.aeadEncrypt var) := by
  simp [Statement, encode, opCode, opOf_formatC, varOf_formatC, slotOf_formatC, zeroOf_formatC]

theorem aeadDecrypt (var : BitVec 4) : Statement (.aeadDecrypt var) := by
  simp [Statement, encode, opCode, opOf_formatC, varOf_formatC, slotOf_formatC, zeroOf_formatC]

end Sys2Proof.Laws.WordFields
end

