-- ==== Sys2Proof/Machine/Assembler.lean ====
section
/-! DEFINITION. The assembler lines of spec 30_encoding.md R80 after their characters are read: a mnemonic and fields, and
the host accesses a line stands for. The three pseudo-instructions of R81 are in Wrapper.lean. -/

namespace Sys2Proof.Machine

/-- The value of a `var=` field: a variant name or a number 0 to 15 (R80). -/
inductive AsmVar where
  | name (v : Variant)
  | number (n : BitVec 4)
  deriving DecidableEq, Repr

/-- A line `mnemonic field=value, ...`; an omitted field is `none` (R80). -/
structure AsmLine where
  mnemonic : String
  var : Option AsmVar
  slot : Option (BitVec 4)
  key : Option Bytes
  nonce : Option Bytes
  block : Option Bytes
  data : Option Bytes
  aad : Option Bytes
  tag : Option Bytes
  deriving DecidableEq, Repr

/-- A line that gives no field. -/
def AsmLine.bare (mnemonic : String) : AsmLine :=
  { mnemonic := mnemonic, var := none, slot := none, key := none, nonce := none, block := none, data := none, aad := none
    tag := none }

/-- The number a `var=` field stands for; an omitted one is 0 (R80, R90). -/
def asmVarCode (o : Option AsmVar) : BitVec 4 :=
  match o with
  | none => 0
  | some (.name v) => v.code
  | some (.number n) => n

/-- The command word of a line: the row its mnemonic names, with `VAR` and `SLOT` in place (R71, R80). A mnemonic outside
the table names nothing. -/
def AsmLine.word (a : AsmLine) : Option CmdWord :=
  (opcodeTable.find? fun r => r.mnemonic == a.mnemonic).map fun r =>
    formatC (a.slot.getD 0) (asmVarCode a.var) (opOf r.pattern)

/-- The host accesses of a line: every input buffer is filled, an omitted one with the empty string, and the command is
issued (R80, R50, R27). -/
def AsmLine.accesses (a : AsmLine) : Option (List HostReq) :=
  a.word.map fun c =>
    [.fill .key (a.key.getD []), .fill .nonce (a.nonce.getD []), .fill .block (a.block.getD []),
     .fill .data (a.data.getD []), .fill .aad (a.aad.getD []), .fill .tag (a.tag.getD []), .writeReg 0 c]

end Sys2Proof.Machine
end

