-- ==== Sys2Proof/Tests/Slice0.lean ====
section
/-! SUPPORT. The model's own tests. Words are written out from the spec's encodings, results are taken from
95_test_vectors.md (each test names its vector); the witnesses show that the hypotheses of the statements can be met. -/

namespace Sys2Proof.Tests

open Sys2Proof.Machine

/-! ## Helpers -/

/-- The reset state with input buffers filled. -/
def filled (inp : InBufs) : State := { State.reset with inp := inp }

/-- The reset state with one slot holding a schedule. -/
def scheduled (v : Variant) (key : Bytes) : State :=
  { State.reset with slots := [{ valid := true, var := v, rk := (expandRegs Config.default v key Work.reset).2 }] }

/-- Status and outputs of a next state. -/
def ended (r : Result) : Option (BitVec 32 × OutBufs) :=
  match r with
  | .next t => some (t.status, t.out)
  | .fault _ => none
  | .refused _ => none

/-- The slots of a next state. -/
def slotsAfter (r : Result) : List Slot :=
  match r with
  | .next t => t.slots
  | .fault _ => []
  | .refused _ => []

/-- The refusal an outcome is, if it is one. -/
def refusalOf (r : Result) : Option Refusal :=
  match r with
  | .next _ => none
  | .fault _ => none
  | .refused q => some q

/-- Operands of a stream command. -/
def operands (key nonce data aad tag : Bytes) : InBufs :=
  { InBufs.empty with key := key, nonce := nonce, data := data, aad := aad, tag := tag }

/-- The key of V1. -/
def key1 : Bytes := [0x19, 0x18, 0x11, 0x10, 0x09, 0x08, 0x01, 0x00]

/-- The key of V8, V20 and V50. -/
def key8 : Bytes :=
  [0x0f, 0x0e, 0x0d, 0x0c, 0x0b, 0x0a, 0x09, 0x08, 0x07, 0x06, 0x05, 0x04, 0x03, 0x02, 0x01, 0x00]

/-- The nonce of V20 and V50. -/
def nonce20 : Bytes :=
  [0x00, 0x01, 0x02, 0x03, 0x04, 0x05, 0x06, 0x07, 0x08, 0x09, 0x0a, 0x0b, 0x0c, 0x0d, 0x0e, 0x0f]

/-- "Speck CTR mode test!!", the data of V20 and V50. -/
def text20 : Bytes :=
  [0x53, 0x70, 0x65, 0x63, 0x6b, 0x20, 0x43, 0x54, 0x52, 0x20, 0x6d, 0x6f, 0x64, 0x65, 0x20, 0x74, 0x65, 0x73, 0x74,
   0x21, 0x21]

/-- "header", the associated data of V50. -/
def header : Bytes := [0x68, 0x65, 0x61, 0x64, 0x65, 0x72]

/-- The ciphertext of V50. -/
def cipher50 : Bytes :=
  [0xe8, 0x3b, 0xb6, 0x82, 0xf3, 0xce, 0x7b, 0x1c, 0x46, 0xa4, 0xa5, 0x1c, 0xfa, 0x5e, 0xa7, 0x2b, 0x9c, 0xf5, 0x53,
   0xeb, 0xe6]

/-- The tag of V50. -/
def tag50 : Bytes :=
  [0xf0, 0x52, 0x15, 0x04, 0x6f, 0x63, 0x79, 0x9c, 0xd3, 0x86, 0xf9, 0x06, 0x26, 0x0a, 0xc0, 0xe8]

/-! ## WellFormed: an ill-formed term for each check, refused (R74, R76) -/

theorem test_schedule_ill_formed : (Instr.schedule 0 1).wf 1 = false := by decide

theorem test_release_ill_formed : (Instr.release 2).wf 2 = false := by decide

theorem test_encrypt_block_ill_formed : (Instr.encryptBlock 15).wf 15 = false := by decide

theorem test_decrypt_block_ill_formed : (Instr.decryptBlock 3).wf 1 = false := by decide

theorem test_all_well_formed_at_last_slot :
    (Instr.schedule 15 1).wf 2 = true ∧ (Instr.release 15).wf 16 = true ∧ (Instr.encryptBlock 0).wf 1 = true ∧
      (Instr.decryptBlock 1).wf 2 = true ∧ (Instr.variantInfo 15).wf 1 = true ∧ (Instr.ctrCrypt 15).wf 1 = true ∧
      (Instr.aeadEncrypt 15).wf 1 = true ∧ (Instr.aeadDecrypt 15).wf 1 = true := by decide

/-! ## Decode: words written out bit by bit, `ZERO` `SLOT` `VAR` `OP` (R71, R72, V60, V61) -/

theorem test_decode_variant_info :
    decode 0b00000000000000000000_0000_1001_0000 = .ok (.variantInfo 9) := by decide

theorem test_decode_schedule :
    decode 0b00000000000000000000_0011_0111_0001 = .ok (.schedule 7 3) := by decide

theorem test_decode_release :
    decode 0b00000000000000000000_0001_0000_0010 = .ok (.release 1) := by decide

theorem test_decode_encrypt_block :
    decode 0b00000000000000000000_1111_0000_0011 = .ok (.encryptBlock 15) := by decide

theorem test_decode_decrypt_block :
    decode 0b00000000000000000000_1000_0000_0100 = .ok (.decryptBlock 8) := by decide

theorem test_decode_ctr_crypt :
    decode 0b00000000000000000000_0000_0111_0101 = .ok (.ctrCrypt 7) := by decide

theorem test_decode_aead_encrypt :
    decode 0b00000000000000000000_0000_0100_0110 = .ok (.aeadEncrypt 4) := by decide

theorem test_decode_aead_decrypt :
    decode 0b00000000000000000000_0000_1010_0111 = .ok (.aeadDecrypt 10) := by decide

/-- The rejected words of V61, each by its reason. -/
theorem test_decode_rejects :
    decode 0x00000008 = .error .reservedOp ∧ decode 0x0000000f = .error .reservedOp ∧
    decode 0x00001000 = .error .zeroFieldSet ∧ decode 0x80000000 = .error .zeroFieldSet ∧
    decode 0x00000105 = .error .unusedSlotSet ∧ decode 0x00000106 = .error .unusedSlotSet ∧
    decode 0x00000107 = .error .unusedSlotSet ∧ decode 0x00000100 = .error .unusedSlotSet ∧
    decode 0x00000012 = .error .unusedVarSet ∧ decode 0x00000072 = .error .unusedVarSet ∧
    decode 0x00000074 = .error .unusedVarSet ∧ decode 0x000000a3 = .error .unusedVarSet := by decide

theorem test_decode_table_word :
    decodeTableWord 32 0x00000371 = some (.schedule 7 3) ∧ decodeTableWord 32 0x00001003 = none := by decide

/-! ## Commands -/

/-- V60, row 9. -/
theorem test_variant_info_code_9 :
    ended (exec (.variantInfo 9) State.reset) =
      some (0, { OutBufs.empty with info := [0x80, 0x01, 0x00, 0x40, 0x04, 0x22, 0x08, 0x03] }) := by decide +kernel

/-- V60, row 10. -/
theorem test_variant_info_code_10 :
    ended (exec (.variantInfo 10) State.reset) = some (1, OutBufs.empty) := by decide +kernel

/-- V1 (b): the 22 round keys, then zeros. -/
theorem test_schedule_round_keys :
    (slotsAfter (exec (.schedule 0 0) (filled { InBufs.empty with key := key1 }))).map (fun sl => sl.rk.toList) =
      [[0x0100, 0x1512, 0x617d, 0x1458, 0x6919, 0x77e2, 0x0c89, 0xccdb, 0xefea, 0x4e33, 0x76f4, 0x5976, 0xee8b, 0xdb04,
        0x4617, 0xf37e, 0x87b4, 0x8eca, 0xed9b, 0x3a52, 0x8229, 0xed64, 0, 0, 0, 0, 0, 0, 0, 0, 0, 0, 0, 0]] := by
  decide +kernel

/-- P4, step 2: a short key fails with 2 and the slot keeps its schedule. -/
theorem test_schedule_failure_keeps_slot :
    exec (.schedule 7 0) { scheduled .speck32_64 key1 with inp := { InBufs.empty with key := key8.take 15 } } =
      .next { scheduled .speck32_64 key1 with inp := { InBufs.empty with key := key8.take 15 }, status := 2 } := by rfl

/-- P1, step 5. -/
theorem test_release_clears_slot :
    slotsAfter (exec (.release 0) (scheduled .speck32_64 key1)) = [Slot.empty] := by decide +kernel

/-- V61: `release slot=1` of an empty slot is `OK` with two slots, illegal with one. -/
theorem test_release_slot_bounds :
    ended (exec (.release 1) { State.reset with slots := [Slot.empty, Slot.empty] }) = some (0, OutBufs.empty) ∧
      ended (exec (.release 1) State.reset) = some (7, OutBufs.empty) := by decide +kernel

/-- V1. -/
theorem test_encrypt_block_v1 :
    ended (exec (.encryptBlock 0)
      { scheduled .speck32_64 key1 with inp := { InBufs.empty with block := [0x65, 0x74, 0x69, 0x4c] } }) =
      some (0, { OutBufs.empty with block := [0xa8, 0x68, 0x42, 0xf2] }) := by decide +kernel

/-- V8. -/
theorem test_encrypt_block_v8 :
    ended (exec (.encryptBlock 0) { scheduled .speck128_128 key8 with inp := { InBufs.empty with
      block := [0x6c, 0x61, 0x76, 0x69, 0x75, 0x71, 0x65, 0x20, 0x74, 0x69, 0x20, 0x65, 0x64, 0x61, 0x6d, 0x20] } }) =
      some (0, { OutBufs.empty with
        block := [0xa6, 0x5d, 0x98, 0x51, 0x79, 0x78, 0x32, 0x65, 0x78, 0x60, 0xfe, 0xdf, 0x5c, 0x57, 0x0d, 0x18] }) := by
  decide +kernel

/-- V7, backward. -/
theorem test_decrypt_block_v7 :
    ended (exec (.decryptBlock 0)
      { scheduled .speck96_144 [0x15, 0x14, 0x13, 0x12, 0x11, 0x10, 0x0d, 0x0c, 0x0b, 0x0a, 0x09, 0x08, 0x05, 0x04, 0x03,
          0x02, 0x01, 0x00] with
        inp := { InBufs.empty with
          block := [0x2b, 0xf3, 0x10, 0x72, 0x22, 0x8a, 0x7a, 0xe4, 0x40, 0x25, 0x2e, 0xe6] } }) =
      some (0, { OutBufs.empty with
        block := [0x65, 0x6d, 0x69, 0x74, 0x20, 0x6e, 0x69, 0x20, 0x2c, 0x72, 0x65, 0x76] }) := by decide +kernel

/-- P1, step 6, for `decrypt_block`, and P4, step 10: an empty slot gives 6, an empty block 3. -/
theorem test_decrypt_block_failures :
    ended (exec (.decryptBlock 0) State.reset) = some (6, OutBufs.empty) ∧
      ended (exec (.decryptBlock 0) (scheduled .speck32_64 key1)) = some (3, OutBufs.empty) := by decide +kernel

/-- V20, 21 bytes. -/
theorem test_ctr_crypt_v20 :
    ended (exec (.ctrCrypt 7) (filled (operands key8 nonce20 text20 [] []))) =
      some (0, { OutBufs.empty with
        data := [0x59, 0x80, 0xaa, 0x4f, 0x07, 0xe7, 0xcf, 0xce, 0x76, 0x8c, 0x2a, 0x9a, 0x3a, 0x55, 0x8a, 0xb2, 0xde,
          0x38, 0xa7, 0xc0, 0xb9] }) := by decide +kernel

/-- V23: three blocks, the last of two bytes, across the wrap of the 32-bit counter. -/
theorem test_ctr_crypt_v23_wrap :
    ended (exec (.ctrCrypt 0) (filled (operands key1 [0xff, 0xff, 0xff, 0xff]
      [0x61, 0x62, 0x63, 0x64, 0x65, 0x66, 0x67, 0x68, 0x69, 0x6a] [] []))) =
      some (0, { OutBufs.empty with
        data := [0xf8, 0xbd, 0x8a, 0x1f, 0xa0, 0x79, 0x92, 0xb0, 0xab, 0x80] }) := by decide +kernel

/-- V50. -/
theorem test_aead_encrypt_v50 :
    ended (exec (.aeadEncrypt 7) (filled (operands key8 nonce20 text20 header []))) =
      some (0, { OutBufs.empty with data := cipher50, tag := tag50 }) := by decide +kernel

/-- V55: the 32-bit block, eight subkey blocks. -/
theorem test_aead_encrypt_v55 :
    ended (exec (.aeadEncrypt 0) (filled (operands key1 [0x65, 0x74, 0x69, 0x4c]
      [0x61, 0x62, 0x63, 0x64, 0x65, 0x66, 0x67, 0x68, 0x69, 0x6a] [0x41] []))) =
      some (0, { OutBufs.empty with
        data := [0x4a, 0x3d, 0x46, 0xb2, 0x38, 0x6e, 0x29, 0xa4, 0x35, 0x7e]
        tag := [0x07, 0xaf, 0x56, 0xfc, 0x93, 0x4a, 0x7f, 0xc5, 0xfe, 0x10, 0x8c, 0x1f, 0x1f, 0x56, 0xa5, 0xa4] }) := by
  decide +kernel

/-- V50. -/
theorem test_aead_decrypt_v50 :
    ended (exec (.aeadDecrypt 7) (filled (operands key8 nonce20 cipher50 header tag50))) =
      some (0, { OutBufs.empty with data := text20 }) := by decide +kernel

/-- V51, V52: the first tag byte changed; a 15-byte tag; a 15-byte key and a 15-byte tag; one zero byte appended to the
associated data. -/
theorem test_aead_decrypt_failures :
    ended (exec (.aeadDecrypt 7) (filled (operands key8 nonce20 cipher50 header (0xf1 :: tag50.tail)))) =
      some (5, OutBufs.empty) ∧
    ended (exec (.aeadDecrypt 7) (filled (operands key8 nonce20 cipher50 header (tag50.take 15)))) =
      some (5, OutBufs.empty) ∧
    ended (exec (.aeadDecrypt 7) (filled (operands (key8.take 15) nonce20 cipher50 header (tag50.take 15)))) =
      some (2, OutBufs.empty) ∧
    ended (exec (.aeadDecrypt 7) (filled (operands key8 nonce20 cipher50 (header ++ [0]) tag50))) =
      some (5, OutBufs.empty) := by decide +kernel

/-! ## Operations -/

/-- V11. -/
theorem test_rotations :
    rotr (0x1234 : BitVec 16) 7 = 0x6824 ∧ rotl (0x1234 : BitVec 16) 7 = 0x1a09 ∧
    rotr (0x800001 : BitVec 24) 3 = 0x300000 ∧ rotl (0x800001 : BitVec 24) 3 = 0x00000c ∧
    rotr (0x8000000000000001 : BitVec 64) 3 = 0x3000000000000000 := by decide +kernel

/-- V12, V13. -/
theorem test_round_and_inverse :
    rf 7 2 (0x1234 : BitVec 16) 0xfedc 0x0f1e = (0x681e, 0x936d) ∧
    rf 8 3 (0x123456789abc : BitVec 48) 0xfedcba987654 0x0f1e2d3c4b5a = (0xb5f0c3d2a5b4, 0x431517111713) ∧
    rinv 7 2 (0x0000 : BitVec 16) 0x0004 0x0000 = (0xffff, 0x0001) := by decide +kernel

/-- V30, last row. -/
theorem test_mac_message :
    macMsg [0x68, 0x64, 0x72] [0x30, 0x31, 0x32, 0x33, 0x34, 0x35, 0x36, 0x37, 0x38, 0x39, 0x61, 0x62, 0x63, 0x64, 0x65,
        0x66, 0x58, 0x59, 0x5a] =
      [0x68, 0x64, 0x72, 0, 0, 0, 0, 0, 0, 0, 0, 0, 0, 0, 0, 0] ++
      [0x30, 0x31, 0x32, 0x33, 0x34, 0x35, 0x36, 0x37, 0x38, 0x39, 0x61, 0x62, 0x63, 0x64, 0x65, 0x66] ++
      [0x58, 0x59, 0x5a, 0, 0, 0, 0, 0, 0, 0, 0, 0, 0, 0, 0, 0] ++
      [0x18, 0, 0, 0, 0, 0, 0, 0, 0x98, 0, 0, 0, 0, 0, 0, 0] := by decide +kernel

/-- V41, first row. -/
theorem test_default_hash :
    uhash .poly1305
      [0x85, 0xd6, 0xbe, 0x78, 0x57, 0x55, 0x6d, 0x33, 0x7f, 0x44, 0x52, 0xfe, 0x42, 0xd5, 0x06, 0xa8, 0x01, 0x03, 0x80,
       0x8a, 0xfb, 0x0d, 0xb2, 0xfd, 0x4a, 0xbf, 0xf6, 0xaf, 0x41, 0x49, 0xf5, 0x1b] (zeros 16) =
      [0x26, 0x8f, 0x6e, 0x95, 0xa4, 0xb8, 0xfa, 0x01, 0xe6, 0x94, 0xdd, 0xc1, 0xd1, 0xd3, 0xfd, 0x25] := by
  decide +kernel

/-- V58: the accesses of the wrapper's call, with the nonce extended by four zero bytes. -/
theorem test_wrapper_expansion :
    (HlCall.aeadEncrypt 7 key8 (some (nonce20.take 12)) [0x77] []).expand 0 =
      .ok [.fill .key key8, .fill .data [0x77], .fill .aad [], .fill .nonce (nonce20.take 12 ++ [0, 0, 0, 0]),
        .writeReg 0 0x00000076] := by decide +kernel

/-- The example line of R80, `encrypt_block slot=0, block=6574694c`, and the line of V20's command. -/
theorem test_assembler_words :
    ({ AsmLine.bare "encrypt_block" with slot := some 0, block := some [0x65, 0x74, 0x69, 0x4c] } : AsmLine).word =
      some 0x00000003 ∧
    ({ AsmLine.bare "ctr_crypt" with var := some (.name .speck128_128) } : AsmLine).word = some 0x00000075 ∧
    (AsmLine.bare "fence").word = none := by decide +kernel

/-! ## Witnesses: for every statement with hypotheses, concrete states and operands that meet all of them; for a statement
with several clauses, one for each clause at a boundary of its range -/

/-- The reset state with one access pending. -/
def pending (r : HostReq) : State := { State.reset with host := [r] }

/-- The reset state with two slots, the first holding a schedule, and one access pending. -/
def twoSlots (r : HostReq) : State :=
  { State.reset with slots := (scheduled .speck32_64 key1).slots ++ [Slot.empty], host := [r] }

/-- The operands of V50, ready to encrypt. -/
def ready : State := filled (operands key8 nonce20 text20 header [])

/-- The operands of V50, ready to decrypt. -/
def readyTag (tag : Bytes) : State := filled (operands key8 nonce20 cipher50 header tag)

/-- A core that takes 21 bytes of data and no more. -/
def tight (data aad : Bytes) : State :=
  { State.reset with cfg := { Config.default with maxlen := 21 }, inp := operands key8 nonce20 data aad [] }

theorem witness_WordsAreFieldSums : legalWord 16 0xff1 = true ∧ legalWord 1 0 = true := by decide

theorem witness_IllegalWordsEndIllegal :
    zeroOf 0x00001000 ≠ 0 ∧ 8 ≤ (opOf 0x00000008).toNat ∧
    ((opOf 0x00000012).toNat ∉ [0, 1, 5, 6, 7] ∧ varOf 0x00000012 ≠ 0) ∧
    ((opOf 0x00000105).toNat ∉ [1, 2, 3, 4] ∧ slotOf 0x00000105 ≠ 0) ∧
    ((opOf 0x00000102).toNat ∈ [1, 2, 3, 4] ∧
      (pending (.writeReg 0 0x00000102)).nslot ≤ (slotOf 0x00000102).toNat) ∧
    (pending (.writeReg 0 0x00000102)).host = .writeReg 0 0x00000102 :: [] := by decide

theorem witness_StepRunsDecodedCommand :
    (pending (.writeReg 0 0x00000371)).host = .writeReg 0 0x00000371 :: [] ∧
      decode 0x00000371 = .ok (.schedule 7 3) := by decide

/-- Registers 0, 1, 16 (a valid slot), 17 (the last slot, empty), 2, 15, 18, 31 (reserved) and 32. -/
theorem witness_HostReadsRegisters :
    (∀ n, (twoSlots (.readReg n)).host = .readReg n :: []) ∧
    (twoSlots (.readReg 16)).slots[0]? = (scheduled .speck32_64 key1).slots[0]? ∧
    ((twoSlots (.readReg 16)).slots[0]?).map Slot.valid = some true ∧
    (twoSlots (.readReg 17)).slots[1]? = some Slot.empty ∧
    (∀ n ∈ [2, 15, 18, 31], 2 ≤ n ∧ n < 32 ∧ (n < 16 ∨ 16 + (twoSlots (.readReg n)).nslot ≤ n)) ∧
    16 + (twoSlots (.readReg 32)).nslot ≤ 32 :=
  ⟨fun _ => rfl, rfl, rfl, rfl, by decide +kernel, by decide +kernel⟩

theorem witness_HostBufferAccesses :
    (∀ b : InBuf, (pending (.fill b header)).host = .fill b header :: []) ∧
      ∀ b : OutBuf, (pending (.readOut b)).host = .readOut b :: [] := ⟨fun _ => rfl, fun _ => rfl⟩

theorem witness_StepCompletesExactlyWhenMeaningful :
    (pending (.readReg 1)).host = .readReg 1 :: [] ∧ (HostReq.readReg 1).meaningful State.reset = true ∧
      (HostReq.readReg 0).meaningful State.reset = false ∧ (HostReq.writeReg 1 0).meaningful State.reset = false ∧
      (HostReq.writeReg 0 0x76).meaningful (tight text20 header) = true ∧
      (HostReq.writeReg 0 0x76).meaningful (tight text20 (zeros 22)) = false := by decide +kernel

theorem witness_ResetEventState : (twoSlots .reset).host = .reset :: [] := rfl

theorem witness_VariantInfoResult : 9 < (10 : BitVec 4).toNat ∧ 9 < (15 : BitVec 4).toNat := by decide

theorem witness_ByteStringsAndIntegersInverse : 0 < 256 ^ 0 ∧ 255 < 256 ^ 1 := by decide

theorem witness_RotationsAreCircular : 0 < 1 ∧ 1 < 16 ∧ 0 < 63 ∧ 63 < 64 := by decide

theorem witness_BlockWordsByteOrder : nonce20.length = Variant.speck128_128.blockBytes := by decide

theorem witness_KeyWordsComeFromTheEnd :
    key1.length = Variant.speck32_64.keyBytes ∧ 0 < Variant.speck32_64.m ∧ 3 < Variant.speck32_64.m := by decide

theorem witness_ExpandRecurrence :
    Config.default.wf = true ∧ key1.length = Variant.speck32_64.keyBytes := by decide

/-- Keys of two variants of one word size, of three and of four words, that agree in their last two words. -/
theorem witness_EarlyRoundKeys :
    Config.default.wf = true ∧ Variant.speck48_72.w = Variant.speck48_96.w ∧
      (key8.drop 7).length = Variant.speck48_72.keyBytes ∧ (key8.drop 4).length = Variant.speck48_96.keyBytes ∧
      be (key8.drop 7) % 2 ^ (2 * Variant.speck48_72.w) =
        be (key8.drop 4) % 2 ^ (2 * Variant.speck48_96.w) := by decide +kernel

theorem witness_ScheduleFillsSlot :
    (filled (operands key1 [] [] [] [])).cfg.wf = true ∧
      (0 : BitVec 4).toNat < (filled (operands key1 [] [] [] [])).nslot ∧
      (filled (operands key1 [] [] [] [])).inp.key.length = Variant.speck32_64.keyBytes := by decide +kernel

theorem witness_ReleaseEmptiesSlot :
    (1 : BitVec 4).toNat < (twoSlots .reset).nslot ∧
      ∃ t, exec (.release 1) (twoSlots .reset) = .next t := ⟨by decide, _, rfl⟩

theorem witness_CipherRunsRoundsInOrder :
    nonce20.length = Variant.speck128_128.blockBytes := by decide

theorem witness_EncryptDecryptBijection : nonce20.length = Variant.speck128_192.blockBytes := by decide

/-- A valid slot and a block of its variant's size. -/
theorem witness_BlockCommandResults :
    ∃ sl : Slot, (scheduled .speck32_64 key1).cfg.wf = true ∧
      ({ scheduled .speck32_64 key1 with inp := { InBufs.empty with block := [1, 2, 3, 4] } } :
        State).slots[(0 : BitVec 4).toNat]? = some sl ∧
      sl.valid = true ∧ ([1, 2, 3, 4] : Bytes).length = sl.var.blockBytes :=
  ⟨_, by decide +kernel, rfl, rfl, rfl⟩

theorem witness_ScheduledBlockRoundTrip :
    (filled (operands key8 [] [] [] [])).cfg.wf = true ∧
      (0 : BitVec 4).toNat < (filled (operands key8 [] [] [] [])).nslot ∧
      (filled (operands key8 [] [] [] [])).inp.key.length = Variant.speck128_128.keyBytes ∧
      nonce20.length = Variant.speck128_128.blockBytes := by decide +kernel

theorem witness_CounterBlocks : nonce20.length = Variant.speck128_256.blockBytes := by decide

theorem witness_CounterRegisterWraps : Config.default.wf = true := by decide

theorem witness_StreamBytes : 0 < text20.length ∧ 20 < text20.length := by decide

theorem witness_StreamProperties :
    21 ≤ text20.length ∧ nonce20.length = Variant.speck128_128.blockBytes := by decide

/-- Two nonces of one block, and data of exactly one block. -/
theorem witness_DistinctCountersDistinctStreams :
    ([0xff, 0xff, 0xff, 0xff] : Bytes).length = Variant.speck32_64.blockBytes ∧
      (zeros 4).length = Variant.speck32_64.blockBytes ∧
      Variant.speck32_64.blockBytes ≤ ([1, 2, 3, 4] : Bytes).length ∧
      (be [0xff, 0xff, 0xff, 0xff] + 0) % 2 ^ (2 * Variant.speck32_64.w) ≠
        (be (zeros 4) + 0) % 2 ^ (2 * Variant.speck32_64.w) := by decide +kernel

/-- The operands of V50 pass every check, and so do 21 bytes on a core whose `MAXLEN` is 21. -/
theorem witness_CtrCryptResult :
    ready.StreamReady .speck128_128 ∧ (tight text20 header).StreamReady .speck128_128 :=
  ⟨⟨by decide +kernel, rfl, rfl, rfl, by decide +kernel⟩, ⟨by decide +kernel, rfl, rfl, rfl, by decide +kernel⟩⟩

theorem witness_CtrCryptSelfInverse : ready.StreamReady .speck128_128 := witness_CtrCryptResult.1

theorem witness_HashIsAbsorbedUnitByUnit : ∀ u ∈ [nonce20, zeros 16], u.length = 16 := by decide

/-- The limit 2^61 - 1 is met, and equal operands give equal messages. -/
theorem witness_MacMessageShapeAndUniqueness :
    header.length ≤ 2 ^ 61 - 1 ∧ text20.length ≤ 2 ^ 61 - 1 ∧ macMsg header text20 = macMsg header text20 :=
  ⟨by decide +kernel, by decide +kernel, rfl⟩

theorem witness_DefaultHashCorners : nonce20.length = 16 := by decide

theorem witness_TagComparisonIsExact : nonce20.length = 16 ∧ tag50.length = 16 := by decide

theorem witness_AeadEncryptResult :
    ready.StreamReady .speck128_128 ∧ ready.inp.aad.length ≤ ready.cfg.maxlen :=
  ⟨witness_CtrCryptResult.1, by decide +kernel⟩

theorem witness_StreamReady_readyTag (tag : Bytes) :
    (readyTag tag).StreamReady .speck128_128 ∧ (readyTag tag).inp.aad.length ≤ (readyTag tag).cfg.maxlen :=
  ⟨⟨(by decide +kernel : Config.default.wf = true), rfl, rfl, rfl, (by decide +kernel : cipher50.length ≤ Config.default.maxlen)⟩,
    (by decide +kernel : header.length ≤ Config.default.maxlen)⟩

/-- The operands and the tag of V50. -/
theorem witness_AeadDecryptResult :
    (readyTag tag50).StreamReady .speck128_128 ∧ (readyTag tag50).inp.aad.length ≤ (readyTag tag50).cfg.maxlen ∧
      (readyTag tag50).inp.tag =
        uhash (readyTag tag50).cfg.uhash
          (ctrStream .speck128_128 (expand (readyTag tag50).cfg .speck128_128 (readyTag tag50).inp.key)
            (readyTag tag50).inp.nonce 0 (zeros 32))
          (macMsg (readyTag tag50).inp.aad (readyTag tag50).inp.data) :=
  ⟨(witness_StreamReady_readyTag _).1, (witness_StreamReady_readyTag _).2, by decide +kernel⟩

/-- V51: a tag of zeros, and a tag of 15 bytes. -/
theorem witness_WrongTagRejected :
    ∀ tag ∈ [zeros 16, tag50.take 15],
      (readyTag tag).StreamReady .speck128_128 ∧ (readyTag tag).inp.aad.length ≤ (readyTag tag).cfg.maxlen ∧
      (readyTag tag).inp.tag ≠
        uhash (readyTag tag).cfg.uhash
          (ctrStream .speck128_128 (expand (readyTag tag).cfg .speck128_128 (readyTag tag).inp.key)
            (readyTag tag).inp.nonce 0 (zeros 32))
          (macMsg (readyTag tag).inp.aad (readyTag tag).inp.data) := by
  intro tag h
  refine ⟨(witness_StreamReady_readyTag tag).1, (witness_StreamReady_readyTag tag).2, ?_⟩
  revert tag
  decide +kernel

theorem witness_AeadRoundTrip :
    (tight text20 (zeros 21)).StreamReady .speck128_128 ∧
      (tight text20 (zeros 21)).inp.aad.length ≤ (tight text20 (zeros 21)).cfg.maxlen :=
  ⟨⟨by decide +kernel, rfl, rfl, rfl, by decide +kernel⟩, by decide +kernel⟩

theorem witness_AeadDataIsCtrFromNextCounter :
    ready.StreamReady .speck128_128 ∧ ready.inp.aad.length ≤ ready.cfg.maxlen ∧ 20 < ready.inp.data.length :=
  ⟨witness_CtrCryptResult.1, by decide +kernel, by decide⟩

theorem witness_SubkeyIsFirstKeystream :
    ready.StreamReady .speck128_128 ∧ ready.inp.aad.length ≤ ready.cfg.maxlen ∧ 32 ≤ ready.cfg.maxlen :=
  ⟨witness_CtrCryptResult.1, by decide +kernel, by decide +kernel⟩

theorem witness_SubkeyOverlapsDataKeystream :
    15 < text20.length ∧ Variant.speck128_128.blockBytes + 15 < 32 := by decide

theorem witness_AeadCounterRange : Variant.speck32_64.streamCapable = true := by decide

/-- At the length limit, with every check passed, and with a short key and a short nonce at once. -/
theorem witness_FirstFailureIsReported :
    (tight text20 (zeros 21)).cfg.wf = true ∧ withinMaxlen (.aeadEncrypt 7) (tight text20 (zeros 21)) = true ∧
      withinMaxlen (.aeadDecrypt 7) (filled (operands header header [] [] [])) = true := by decide +kernel

/-- A failure and a success. -/
theorem witness_FailureTouchesStatusOnly :
    (∃ t, exec (.release 1) State.reset = .next t ∧ t.status ≠ 0) ∧
      ∃ t, exec (.release 0) State.reset = .next t ∧ t.status = 0 :=
  ⟨⟨_, rfl, by decide⟩, ⟨_, rfl, by decide⟩⟩

theorem witness_CommandFrame : ∃ t, exec (.release 0) (twoSlots .reset) = .next t := ⟨_, rfl⟩

/-- A reset, a `schedule` and a `release`, each of which changes slot 0. -/
theorem witness_SlotWriters :
    (∃ t, step (twoSlots .reset) = .next t ∧ t.slots[0]? ≠ (twoSlots .reset).slots[0]?) ∧
    (∃ t, step ({ filled (operands key1 [] [] [] []) with host := [.writeReg 0 0x00000001] } : State) = .next t ∧
      t.slots[0]? ≠ (filled (operands key1 [] [] [] [])).slots[0]?) ∧
    (∃ t, step (twoSlots (.writeReg 0 0x00000002)) = .next t ∧
      t.slots[0]? ≠ (twoSlots (.writeReg 0 0x00000002)).slots[0]?) :=
  ⟨⟨_, rfl, by decide +kernel⟩, ⟨_, rfl, by decide +kernel⟩, ⟨_, rfl, by decide +kernel⟩⟩

/-- Operands that differ in what the command does not read; an outcome of each kind. -/
theorem witness_UnlistedBuffersIgnored :
    SameReads (.ctrCrypt 7) (operands key8 nonce20 text20 header tag50) (operands key8 nonce20 text20 [] []) ∧
      (∃ t, exec (.ctrCrypt 7) ready = .next t) ∧
      exec (.ctrCrypt 7) (tight (zeros 22) []) = .refused .operandTooLong :=
  ⟨⟨rfl, rfl, rfl⟩, ⟨_, rfl⟩, rfl⟩

theorem witness_StreamCommandsIgnoreSlots :
    (Instr.variantInfo 0).slotField = none ∧ (Instr.aeadDecrypt 7).slotField = none ∧
      (∃ t, exec (.variantInfo 0) State.reset = .next t) ∧
      exec (.aeadDecrypt 7) (tight (zeros 22) []) = .refused .operandTooLong := ⟨rfl, rfl, ⟨_, rfl⟩, rfl⟩

/-- One byte above the limit in the data, one above in the associated data, and the limit itself. -/
theorem witness_OverlongOperandsRefused :
    (tight (zeros 22) []).cfg.maxlen < (tight (zeros 22) []).inp.data.length ∧
      (tight [] (zeros 22)).cfg.maxlen < (tight [] (zeros 22)).inp.aad.length ∧
      (tight text20 []).inp.data.length ≤ (tight text20 []).cfg.maxlen := by decide

/-- A state with a filled slot and a command pending has the invariant, and the step completes. -/
theorem witness_StepKeepsInvariant :
    (twoSlots (.writeReg 0 0x00000002)).Inv ∧ ∃ t, step (twoSlots (.writeReg 0 0x00000002)) = .next t := by
  refine ⟨⟨by decide +kernel, by decide, ?_, ⟨.ok, rfl⟩, rfl⟩, _, rfl⟩
  intro sl h
  rcases List.mem_cons.1 h with rfl | h
  · exact Or.inr ⟨rfl, key1, rfl, by decide +kernel⟩
  · rcases List.mem_cons.1 h with rfl | h
    · exact Or.inl ⟨rfl, rfl⟩
    · cases h

/-- Two different states that are alike: the working registers and the contents of an empty slot differ. -/
theorem witness_AlikeStatesIndistinguishable :
    State.reset.cfg.wf = true ∧
      State.reset.Alike { State.reset with
        work := { Work.reset with x := 1 }, slots := [{ Slot.empty with var := .speck128_256 }] } ∧
      State.reset ≠ { State.reset with
        work := { Work.reset with x := 1 }, slots := [{ Slot.empty with var := .speck128_256 }] } := by
  refine ⟨by decide +kernel, ⟨rfl, rfl, ?_, rfl, rfl, rfl, rfl, rfl⟩, by decide +kernel⟩
  intro n a b ha hb
  cases n with
  | zero =>
    cases ha
    cases hb
    exact ⟨rfl, fun h => by cases h⟩
  | succ n => cases hb

/-- The wrapper's call of V58 on a core whose queue holds its accesses and one more. -/
theorem witness_WrapperRunsOneCommand :
    ∃ (reqs : List HostReq) (s : State),
      (HlCall.aeadEncrypt 7 key8 (some (nonce20.take 12)) [0x77] []).expand 0 = .ok reqs ∧
        s.host = reqs ++ [.readReg 1] := by
  refine ⟨_, ⟨Config.default, [], 0, Work.reset, InBufs.empty, OutBufs.empty, _, .none⟩, rfl, rfl⟩

/-- Codes 6 and 10 around the three admitted ones; nonces of 11 and of 12 bytes; no nonce. -/
theorem witness_WrapperRefusals :
    (6 : BitVec 4).toNat ∉ [7, 8, 9] ∧ (10 : BitVec 4).toNat ∉ [7, 8, 9] ∧
      (7 : BitVec 4).toNat ∈ [7, 8, 9] ∧ (9 : BitVec 4).toNat ∈ [7, 8, 9] ∧
      ((HlCall.ctrCrypt 7 key8 (some (nonce20.take 11)) []).nonce96 0).length ≠ 12 ∧
      ((HlCall.ctrCrypt 9 key8 (some (nonce20.take 12)) []).nonce96 0).length = 12 ∧
      ((HlCall.ctrCrypt 7 key8 none []).nonce96 5).length = 12 := by decide +kernel

theorem witness_WrapperCounterSuffix :
    Variant.speck128_128.blockBytes = 16 ∧ (nonce20.take 12).length = 12 ∧ 2 ^ 32 - 1 < 2 ^ 32 ∧
      ctrBlock .speck128_128 (hlNonce (nonce20.take 12)) (2 ^ 32 - 1) =
        ctrBlock .speck128_128 (hlNonce (nonce20.take 12)) (2 ^ 32 - 1) := ⟨rfl, rfl, by decide, rfl⟩

/-- V58, with the caller's nonce and with a drawn one. -/
theorem witness_WrapperAeadRoundTrip :
    ∀ nonce ∈ [some (nonce20.take 12), none],
      ∃ (reqs : List HostReq) (s : State),
        s.cfg.wf = true ∧ key8.length = Variant.speck128_128.keyBytes ∧ text20.length ≤ s.cfg.maxlen ∧
        header.length ≤ s.cfg.maxlen ∧
        (HlCall.aeadEncrypt Variant.speck128_128.code key8 nonce text20 header).expand 5 = .ok reqs ∧ s.host = reqs := by
  intro nonce h
  have : ∃ reqs, (HlCall.aeadEncrypt Variant.speck128_128.code key8 nonce text20 header).expand 5 = .ok reqs := by
    rcases List.mem_cons.1 h with rfl | h
    · exact ⟨_, rfl⟩
    · rcases List.mem_cons.1 h with rfl | h
      · exact ⟨_, rfl⟩
      · cases h
  obtain ⟨reqs, hr⟩ := this
  exact ⟨reqs, { State.reset with host := reqs }, (by decide +kernel : Config.default.wf = true), rfl,
    (by decide +kernel : text20.length ≤ Config.default.maxlen),
    (by decide +kernel : header.length ≤ Config.default.maxlen), hr, rfl⟩

end Sys2Proof.Tests
end

