-- ==== Sys2Proof/Proofs/SlotStore.lean ====
section
/-! SUPPORT. The slot store under commands and under the host's accesses (spec 10_state.md R24): which of them write it, and
that the stream commands do not read it. -/

namespace Sys2Proof.Machine

/-! ## Who writes a slot -/

/-- Every outcome of a command: refused, or ended with every slot as it was, or ended with `OK` by the one of `schedule` and
`release` that names the slot it set (R24). -/
theorem exec_ends (i : Instr) (s : State) :
    exec i s = .refused .operandTooLong ∨
    (∃ st o, exec i s = .next (s.ended st o s.slots)) ∨
    (∃ slot sl, ((∃ var, i = .schedule var slot) ∨ i = .release slot) ∧
      exec i s = .next (s.ended .ok OutBufs.empty (s.slots.set slot.toNat sl))) := by
  cases i with
  | variantInfo var =>
    rcases execVariantInfo_cases var s with ⟨-, e⟩ | ⟨_, -, e⟩ <;> exact .inr (.inl ⟨_, _, e⟩)
  | schedule var slot =>
    rcases execSchedule_cases var slot s with ⟨-, e⟩ | ⟨-, -, e⟩ | ⟨_, -, -, -, e⟩ | ⟨_, -, -, -, e⟩
    · exact .inr (.inl ⟨_, _, e⟩)
    · exact .inr (.inl ⟨_, _, e⟩)
    · exact .inr (.inl ⟨_, _, e⟩)
    · exact .inr (.inr ⟨slot, _, .inl ⟨var, rfl⟩, e⟩)
  | release slot =>
    rcases execRelease_cases slot s with ⟨-, e⟩ | ⟨-, e⟩
    · exact .inr (.inl ⟨_, _, e⟩)
    · exact .inr (.inr ⟨slot, _, .inr rfl, e⟩)
  | encryptBlock slot =>
    rcases blockCommand_ends slot encryptXY s with ⟨-, e⟩ | ⟨_, -, -, e⟩ | ⟨_, -, -, -, e⟩ | ⟨_, -, -, -, e⟩ <;>
      exact .inr (.inl ⟨_, _, e⟩)
  | decryptBlock slot =>
    rcases blockCommand_ends slot decryptXY s with ⟨-, e⟩ | ⟨_, -, -, e⟩ | ⟨_, -, -, -, e⟩ | ⟨_, -, -, -, e⟩ <;>
      exact .inr (.inl ⟨_, _, e⟩)
  | ctrCrypt var =>
    rcases execCtrCrypt_cases var s with ⟨-, e⟩ | ⟨-, _, -, e⟩ | ⟨-, _, -, e⟩
    · exact .inl e
    · exact .inr (.inl ⟨_, _, e⟩)
    · exact .inr (.inl ⟨_, _, e⟩)
  | aeadEncrypt var =>
    rcases execAeadEncrypt_cases var s with ⟨-, e⟩ | ⟨-, _, -, e⟩ | ⟨-, _, -, e⟩
    · exact .inl e
    · exact .inr (.inl ⟨_, _, e⟩)
    · exact .inr (.inl ⟨_, _, e⟩)
  | aeadDecrypt var =>
    rcases execAeadDecrypt_cases var s with
      ⟨-, e⟩ | ⟨-, _, -, e⟩ | ⟨-, _, -, -, e⟩ | ⟨-, _, -, -, -, e⟩ | ⟨-, _, -, -, -, e⟩
    · exact .inl e
    · exact .inr (.inl ⟨_, _, e⟩)
    · exact .inr (.inl ⟨_, _, e⟩)
    · exact .inr (.inl ⟨_, _, e⟩)
    · exact .inr (.inl ⟨_, _, e⟩)

/-- A command that changes slot `k` is a `schedule` or a `release` naming it, and ended with `OK` (R24, R105). -/
theorem exec_changes_slot {i : Instr} {s t : State} {k : Nat} (h : exec i s = .next t)
    (hk : t.slots[k]? ≠ s.slots[k]?) :
    ∃ slot : BitVec 4, slot.toNat = k ∧ t.status = 0 ∧ ((∃ var, i = .schedule var slot) ∨ i = .release slot) := by
  rcases exec_ends i s with e | ⟨st, o, e⟩ | ⟨slot, sl, hi, e⟩ <;> cases e.symm.trans h
  · exact absurd rfl hk
  · refine ⟨slot, ?_, rfl, hi⟩
    by_contra hne
    exact hk (List.getElem?_set_ne hne)

/-- A register write with a next state is a write of `CMD`: the other registers refuse it (R27, U15, U16). -/
theorem writeRegister_next {n : Nat} {v : BitVec 32} {s t : State} (h : writeRegister n v s = .next t) :
    n = 0 ∧ issue v s = .next t := by
  by_cases hn : n = 0
  · exact ⟨hn, by simpa only [writeRegister, hn, if_true] using h⟩
  · simp only [writeRegister, hn, if_false] at h
    split_ifs at h

/-- A command word that changes a slot decodes to a command that changes it: an illegal word changes none (R214). -/
theorem issue_changes_slot {c : CmdWord} {s t : State} {k : Nat} (h : issue c s = .next t)
    (hk : t.slots[k]? ≠ s.slots[k]?) : ∃ i, decode c = .ok i ∧ exec i s = .next t := by
  cases hc : decode c with
  | error e =>
    simp only [issue, hc] at h
    cases h
    exact absurd rfl hk
  | ok i => exact ⟨i, rfl, by simpa only [issue, hc] using h⟩

/-- An access that changes a slot is a reset or a write of `CMD`: register reads, fills and output reads change none. -/
theorem serve_changes_slot {r : HostReq} {s t : State} {k : Nat} (h : serve r s = .next t)
    (hk : t.slots[k]? ≠ s.slots[k]?) : r = .reset ∨ ∃ c, r = .writeReg 0 c ∧ issue c s = .next t := by
  cases r with
  | writeReg n v =>
    obtain ⟨rfl, hv⟩ := writeRegister_next h
    exact .inr ⟨v, rfl, hv⟩
  | readReg n =>
    simp only [serve] at h
    split at h <;> cases h
    exact absurd rfl hk
  | fill b bytes => cases h; exact absurd rfl hk
  | readOut b => cases h; exact absurd rfl hk
  | reset => exact .inl rfl

/-- Settles O50: the step serves an access, only a reset and a write of `CMD` change slots, and the command written is one
that `exec_changes_slot` allows. -/
theorem slotWriters : Obligations.SlotWriters := by
  unfold Obligations.SlotWriters
  intro s t k h hk
  cases hs : s.host with
  | nil =>
    cases (step_idle s hs).symm.trans h
    exact absurd rfl hk
  | cons r rest =>
    have hserve := (step_cons s r rest hs).symm.trans h
    refine ⟨rest, ?_⟩
    obtain rfl | ⟨c, rfl, hissue⟩ := serve_changes_slot hserve hk
    · exact .inl rfl
    · obtain ⟨i, hc, hexec⟩ := issue_changes_slot hissue hk
      obtain ⟨slot, hslot, hst, ⟨var, rfl⟩ | rfl⟩ := exec_changes_slot hexec hk
      · exact .inr (.inl ⟨c, var, slot, rfl, hc, hslot, hst⟩)
      · exact .inr (.inr ⟨c, slot, rfl, hc, hslot, hst⟩)

/-! ## Who reads no slot -/

/-- The state with another slot store. -/
def State.withSlots (s : State) (slots : List Slot) : State := { s with slots := slots }

/-- The outcome with another slot store in its next state. -/
def Result.withSlots (slots : List Slot) : Result → Result
  | .next t => .next (t.withSlots slots)
  | .fault f => .fault f
  | .refused r => .refused r

section
variable (s : State) (slots : List Slot) (v : Variant) (var : BitVec 4)

@[simp] theorem State.withSlots_inp : (s.withSlots slots).inp = s.inp := rfl

@[simp] theorem State.withSlots_work : (s.withSlots slots).work = s.work := rfl

@[simp] theorem State.withSlots_dataTooLong : (s.withSlots slots).dataTooLong = s.dataTooLong := rfl

@[simp] theorem State.withSlots_aadTooLong : (s.withSlots slots).aadTooLong = s.aadTooLong := rfl

@[simp] theorem State.withSlots_begin : (s.withSlots slots).begin = s.begin.withSlots slots := rfl

@[simp] theorem State.withSlots_raise (st : Status) : (s.withSlots slots).raise st = (s.raise st).withSlots slots := rfl

@[simp] theorem State.withSlots_finish (st : Status) :
    (s.withSlots slots).finish st = (s.finish st).withSlots slots := rfl

@[simp] theorem State.withSlots_expandIntoTK :
    (s.withSlots slots).expandIntoTK v = (s.expandIntoTK v).withSlots slots := rfl

@[simp] theorem State.withSlots_cryptPhase (t : Nat) :
    (s.withSlots slots).cryptPhase v t = (s.cryptPhase v t).withSlots slots := rfl

@[simp] theorem State.withSlots_sealPhases :
    (s.withSlots slots).sealPhases v = (s.sealPhases v).withSlots slots := rfl

@[simp] theorem State.withSlots_verifyPhases :
    (s.withSlots slots).verifyPhases v = (s.verifyPhases v).withSlots slots := rfl

@[simp] theorem Result.withSlots_next : Result.withSlots slots (.next s) = .next (s.withSlots slots) := rfl

@[simp] theorem Result.withSlots_refused (r : Refusal) : Result.withSlots slots (.refused r) = .refused r := rfl

/-- `variant_info` reads only the parameters (R93). -/
theorem execVariantInfo_withSlots :
    execVariantInfo var (s.withSlots slots) = Result.withSlots slots (execVariantInfo var s) := by
  simp only [execVariantInfo]
  cases Variant.ofCode var <;> rfl

/-- `ctr_crypt` keeps its schedule in `TK`, not in a slot (R34, R146). -/
theorem execCtrCrypt_withSlots :
    execCtrCrypt var (s.withSlots slots) = Result.withSlots slots (execCtrCrypt var s) := by
  cases hlen : s.dataTooLong with
  | true => simp [execCtrCrypt, hlen]
  | false => cases hchk : streamChecks var s.inp <;> simp [execCtrCrypt, hlen, hchk]

/-- `aead_encrypt` keeps its schedule in `TK`, not in a slot (R34, R183). -/
theorem execAeadEncrypt_withSlots :
    execAeadEncrypt var (s.withSlots slots) = Result.withSlots slots (execAeadEncrypt var s) := by
  cases hlen : s.dataTooLong || s.aadTooLong with
  | true => simp [execAeadEncrypt, hlen]
  | false => cases hchk : streamChecks var s.inp <;> simp [execAeadEncrypt, hlen, hchk]

/-- `aead_decrypt` keeps its schedule in `TK`, not in a slot (R34, R184). -/
theorem execAeadDecrypt_withSlots :
    execAeadDecrypt var (s.withSlots slots) = Result.withSlots slots (execAeadDecrypt var s) := by
  cases hlen : s.dataTooLong || s.aadTooLong with
  | true => simp [execAeadDecrypt, hlen]
  | false =>
    cases hchk : streamChecks var s.inp with
    | error st => simp [execAeadDecrypt, hlen, hchk]
    | ok v =>
      by_cases htag : s.inp.tag.length = 16
      · cases hok : (s.begin.verifyPhases v).work.tagok <;> simp [execAeadDecrypt, hlen, hchk, htag, hok]
      · simp [execAeadDecrypt, hlen, hchk, htag]

end

/-- A command without a slot field commutes with replacing the slot store (R24, R34). -/
theorem exec_withSlots (i : Instr) (s : State) (slots : List Slot) (hi : i.slotField = none) :
    exec i (s.withSlots slots) = Result.withSlots slots (exec i s) := by
  cases i with
  | variantInfo var => exact execVariantInfo_withSlots s slots var
  | ctrCrypt var => exact execCtrCrypt_withSlots s slots var
  | aeadEncrypt var => exact execAeadEncrypt_withSlots s slots var
  | aeadDecrypt var => exact execAeadDecrypt_withSlots s slots var
  | schedule | release | encryptBlock | decryptBlock => cases hi

/-- Settles O52: `exec_withSlots`, read off for a next state and for a refusal. -/
theorem streamCommandsIgnoreSlots : Obligations.StreamCommandsIgnoreSlots := by
  unfold Obligations.StreamCommandsIgnoreSlots
  intro i s slots hi
  have hslots := exec_withSlots i s slots hi
  exact ⟨fun t h => hslots.trans (congrArg (Result.withSlots slots) h),
    fun r h => hslots.trans (congrArg (Result.withSlots slots) h)⟩

end Sys2Proof.Machine
end

