-- ==== Sys2Proof/Proofs/VariantRegistry.lean ====
section
/-! SUPPORT. The variant registry (spec 40_variant_registry.md): its ten rows, the codes that name no variant, and the bytes
`variant_info` returns; and the command words the spec prints. -/

namespace Sys2Proof

/-! ## The printed words and the rows -/

/-- Settles O4: each group of printed words is a closed computation of the decoder. The words with a set `ZERO` field, a
reserved `OP` or a set unused field decode to none (R76); those naming slot 2 decode, and fail the slot test on two slots
(R77). -/
theorem printedWordsDecode : Obligations.PrintedWordsDecode := by
  unfold Obligations.PrintedWordsDecode
  refine ⟨?exampleWords, ?otherFields, ?noRow, ?slotTest, ?p4, ?p3, ?v20⟩
  case exampleWords => decide
  case otherFields => decide
  case noRow => decide
  case slotTest => decide
  case p4 | p3 | v20 => rfl

/-- Settles O11: each column is defined by cases on the variant or computed from such columns, so both lists evaluate to the
same ten rows. -/
theorem registryRows : Obligations.RegistryRows := by
  unfold Obligations.RegistryRows
  rfl

/-! ## The codes that name no variant -/

/-- Exactly the codes 10 to 15 name no variant (R73, R95). -/
theorem Variant.ofCode_eq_none_iff (c : BitVec 4) : Variant.ofCode c = none ↔ 9 < c.toNat := by
  revert c
  decide

end Sys2Proof

namespace Sys2Proof.Machine

/-! ## The command `variant_info` -/

/-- The eight bytes of `OUT.info`, one by one: only the key size takes two (R93). -/
theorem infoBytes_eq (p : Params) :
    infoBytes p =
      [BitVec.ofNat 8 (2 * p.w), BitVec.ofNat 8 (p.m * p.w / 256), BitVec.ofNat 8 (p.m * p.w), BitVec.ofNat 8 p.w,
        BitVec.ofNat 8 p.m, BitVec.ofNat 8 p.t, BitVec.ofNat 8 p.alpha, BitVec.ofNat 8 p.beta] := by
  simp [infoBytes, beBytes]

/-- `variant_info` on the code of a variant ends with `OK` and that variant's bytes (R93). -/
theorem execVariantInfo_code (v : Variant) (s : State) :
    execVariantInfo v.code s =
      .next (s.ended .ok { OutBufs.empty with info := infoBytes (params s.cfg v) } s.slots) := by
  rcases execVariantInfo_cases v.code s with ⟨hnone, -⟩ | ⟨u, hu, hexec⟩
  · simp at hnone
  · obtain rfl : v = u := by simpa using hu
    exact hexec

/-- `variant_info` on a code that names no variant ends with `UNKNOWN_VARIANT` (R93, R95). -/
theorem execVariantInfo_unknown (var : BitVec 4) (s : State) (hvar : 9 < var.toNat) :
    execVariantInfo var s = .next (s.ended .unknownVariant OutBufs.empty s.slots) := by
  have hnone := (Variant.ofCode_eq_none_iff var).2 hvar
  rcases execVariantInfo_cases var s with ⟨-, hexec⟩ | ⟨u, hu, -⟩
  · exact hexec
  · simp [hnone] at hu

/-- Settles O12: `execVariantInfo_code` with the bytes of `infoBytes_eq`, and `execVariantInfo_unknown`. -/
theorem variantInfoResult : Obligations.VariantInfoResult := by
  unfold Obligations.VariantInfoResult
  constructor
  · intro s v
    have hexec := execVariantInfo_code v s
    rw [infoBytes_eq] at hexec
    exact hexec
  · intro s var hvar
    exact execVariantInfo_unknown var s hvar

end Sys2Proof.Machine
end

