-- ==== Sys2Proof/Proofs/CipherInverse.lean ====
section
/-! SUPPORT. `Decrypt` undoes `Encrypt` (spec 42_block_cipher.md R126, R129), from the rotations of 00_scope.md R13 and the
block bytes of 20_memory.md R53 up. -/

namespace Sys2Proof

theorem Variant.alpha_lt_w (v : Variant) : v.alpha < v.w := by cases v <;> decide

theorem Variant.beta_lt_w (v : Variant) : v.beta < v.w := by cases v <;> decide

end Sys2Proof

namespace Sys2Proof.Machine

/-! ## Rotations -/

/-- `ROTR` is the library's rotation. -/
theorem rotr_eq_rotateRight {w : Nat} (v : BitVec w) {r : Nat} (hr : r < w) : rotr v r = v.rotateRight r :=
  (BitVec.rotateRight_eq_rotateRightAux_of_lt hr).symm

/-- `ROTL` is the library's rotation. -/
theorem rotl_eq_rotateLeft {w : Nat} (v : BitVec w) {r : Nat} (hr : r < w) : rotl v r = v.rotateLeft r :=
  (BitVec.rotateLeft_eq_rotateLeftAux_of_lt hr).symm

/-- A rotation left undoes the rotation right by the same amount: the low `r` bits come back from the top, the others from
`r` below (R13). -/
theorem rotl_rotr_cancel {w : Nat} (v : BitVec w) {r : Nat} (hr : r < w) : rotl (rotr v r) r = v := by
  rw [rotl_eq_rotateLeft _ hr, rotr_eq_rotateRight _ hr]
  refine BitVec.eq_of_getElem_eq fun i hi => ?_
  by_cases hir : i < r
  · simp [BitVec.getElem_rotateLeft, BitVec.getElem_rotateRight, Nat.mod_eq_of_lt hr, hir]
  · simp [BitVec.getElem_rotateLeft, BitVec.getElem_rotateRight, Nat.mod_eq_of_lt hr, hir,
      show i - r < w - r by omega, show r + (i - r) = i by omega]

/-- A rotation right undoes the rotation left by the same amount (R13). -/
theorem rotr_rotl_cancel {w : Nat} (v : BitVec w) {r : Nat} (hr : r < w) : rotr (rotl v r) r = v := by
  rw [rotr_eq_rotateRight _ hr, rotl_eq_rotateLeft _ hr]
  refine BitVec.eq_of_getElem_eq fun i hi => ?_
  by_cases hir : i < w - r
  · simp [BitVec.getElem_rotateLeft, BitVec.getElem_rotateRight, Nat.mod_eq_of_lt hr, hir]
  · simp [BitVec.getElem_rotateLeft, BitVec.getElem_rotateRight, Nat.mod_eq_of_lt hr, hir,
      show i - (w - r) < r by omega, show w - r + (i - (w - r)) = i by omega]

/-! ## Rounds -/

/-- An inverse round undoes a round: `y` comes back from `y' XOR x'`, then `x` by subtracting it (R126). -/
theorem rinv_rf (v : Variant) (k : BitVec v.w) (xy : BitVec v.w × BitVec v.w) :
    rinv v.alpha v.beta (rf v.alpha v.beta xy.1 xy.2 k).1 (rf v.alpha v.beta xy.1 xy.2 k).2 k = xy := by
  obtain ⟨x, y⟩ := xy
  simp only [rf, rinv, BitVec.xor_assoc, BitVec.xor_self, BitVec.xor_zero, BitVec.add_sub_cancel,
    rotr_rotl_cancel y v.beta_lt_w, rotl_rotr_cancel x v.alpha_lt_w]

/-- The inverse rounds, run over the round keys from the last to the first, undo the rounds (R129). -/
theorem invRounds_rounds (v : Variant) (ks : List (BitVec v.w)) (xy : BitVec v.w × BitVec v.w) :
    invRounds v ks (rounds v ks xy) = xy := by
  induction ks generalizing xy with
  | nil => rfl
  | cons k ks ih =>
    have htail := ih (rf v.alpha v.beta xy.1 xy.2 k)
    simp only [rounds, invRounds, List.reverse_cons, List.foldl_cons, List.foldl_append, List.foldl_nil] at htail ⊢
    rw [htail, rinv_rf]

/-! ## The bytes of a block -/

/-- `BEbytes_n` undoes `BE` on strings of `n` bytes (R11). -/
theorem beBytes_be (s : Bytes) : beBytes s.length (be s) = s := by
  induction s with
  | nil => rfl
  | cons b s ih =>
    have hhead : (b.toNat * 256 ^ s.length + be s) / 256 ^ s.length = b.toNat := by
      rw [Nat.mul_comm, Nat.mul_add_div (by positivity), Nat.div_eq_of_lt (be_lt s), Nat.add_zero]
    have htail : beBytes s.length (b.toNat * 256 ^ s.length + be s) = s := by
      rw [← beBytes_mod, Nat.mul_add_mod', beBytes_mod, ih]
    simp only [be, List.length_cons, beBytes, hhead, htail, BitVec.ofNat_toNat, BitVec.setWidth_eq]

/-- A word read from its own bytes is the word (R53). -/
theorem ofNat_be_beBytes (v : Variant) (x : BitVec v.w) :
    BitVec.ofNat v.w (be (beBytes (v.w / 8) x.toNat)) = x := by
  rw [be_beBytes, Variant_pow_word, ofNat_mod_self, BitVec.ofNat_toNat, BitVec.setWidth_eq]

/-- The bytes of a word read from `w/8` bytes are those bytes (R53). -/
theorem beBytes_ofNat_be (v : Variant) (s : Bytes) (hs : s.length = v.w / 8) :
    beBytes (v.w / 8) (BitVec.ofNat v.w (be s)).toNat = s := by
  rw [BitVec.toNat_ofNat, ← Variant_pow_word, beBytes_mod, ← hs, beBytes_be]

theorem blockX_wordsBlock (v : Variant) (x y : BitVec v.w) : blockX v.w (wordsBlock x y) = x := by
  rw [blockX, memRead, List.drop_zero, wordsBlock, List.take_left' (beBytes_length _ _), ofNat_be_beBytes]

theorem blockY_wordsBlock (v : Variant) (x y : BitVec v.w) : blockY v.w (wordsBlock x y) = y := by
  rw [blockY, memRead, wordsBlock, List.drop_left' (beBytes_length _ _),
    List.take_of_length_le (beBytes_length _ _).le, ofNat_be_beBytes]

theorem wordsBlock_blockXY (v : Variant) (b : Bytes) (hb : b.length = v.blockBytes) :
    wordsBlock (blockX v.w b) (blockY v.w b) = b := by
  have hlen := hb.trans v.blockBytes_eq
  have hx : (memRead b 0 (v.w / 8)).length = v.w / 8 := by rw [memRead_length]; omega
  have hy : (memRead b (v.w / 8) (v.w / 8)).length = v.w / 8 := by rw [memRead_length]; omega
  rw [wordsBlock, blockX, blockY, beBytes_ofNat_be v _ hx, beBytes_ofNat_be v _ hy, memRead, memRead, List.drop_zero,
    List.take_of_length_le (l := b.drop _) (by rw [List.length_drop]; omega), List.take_append_drop]

/-! ## Whole blocks -/

/-- `Decrypt` undoes `Encrypt` under the same round keys (R129). -/
theorem decrypt_encrypt (v : Variant) (ks : List (BitVec v.w)) (b : Bytes) (hb : b.length = v.blockBytes) :
    decrypt v ks (encrypt v ks b) = b := by
  rw [decrypt_eq, encrypt_eq, blockX_wordsBlock, blockY_wordsBlock, invRounds_rounds]
  exact wordsBlock_blockXY v b hb

end Sys2Proof.Machine
end

