-- ==== Sys2Proof/Proofs/KeyExpansion.lean ====
section
/-! SUPPORT. `Expand` as the recurrence of spec 41_key_schedule.md R100 and R102 on its link words, from the key words of
20_memory.md R54. -/

namespace Sys2Proof

theorem Variant.keyBytes_eq (v : Variant) : v.keyBytes = v.m * (v.w / 8) := by cases v <;> decide

end Sys2Proof

namespace Sys2Proof.Machine

/-! ## The key words -/

/-- The number in the middle of a byte string: what follows is divided away, what precedes is reduced away (R11). -/
theorem be_middle (p u t : Bytes) : be (p ++ (u ++ t)) / 256 ^ t.length % 256 ^ u.length = be u := by
  rw [← List.append_assoc, be_append, Nat.mul_comm, Nat.mul_add_div (by positivity), Nat.div_eq_of_lt (be_lt t),
    Nat.add_zero, be_append, Nat.mul_add_mod', Nat.mod_eq_of_lt (be_lt u)]

/-- The number `MemRead` reads inside a byte string (R11, R14). -/
theorem be_memRead (s : Bytes) (off n r : Nat) (hs : s.length = off + n + r) :
    be (memRead s off n) = be s / 256 ^ r % 256 ^ n := by
  have hsplit : s = s.take off ++ (memRead s off n ++ (s.drop off).drop n) := by
    rw [memRead, List.take_append_drop, List.take_append_drop]
  have hmiddle := be_middle (s.take off) (memRead s off n) ((s.drop off).drop n)
  rw [← hsplit, memRead_length, List.length_drop, List.length_drop] at hmiddle
  rw [← hmiddle, show s.length - off - n = r by omega, show min n (s.length - off) = n by omega]

/-- `256^(i·w/8) = 2^(w·i)`. -/
theorem pow_words (v : Variant) (i : Nat) : 256 ^ (i * (v.w / 8)) = 2 ^ (v.w * i) := by
  rw [Nat.mul_comm, pow_mul, Variant_pow_word, pow_mul]

/-- Key word `k_i` is the `i`-th word of the key from its end (R54). -/
theorem keyWord_toNat (v : Variant) (key : Bytes) (i : Nat) (hkey : key.length = v.keyBytes) (hi : i < v.m) :
    (keyWord v.w v.m key i).toNat = be key / 2 ^ (v.w * i) % 2 ^ v.w := by
  have hlen : key.length = (v.m - 1 - i) * (v.w / 8) + v.w / 8 + i * (v.w / 8) := by
    rw [hkey, v.keyBytes_eq, ← Nat.succ_mul, ← Nat.add_mul]
    congr 1
    omega
  rw [keyWord, be_memRead key _ _ _ hlen, pow_words, Variant_pow_word, BitVec.toNat_ofNat, Nat.mod_mod]

/-! ## The link words -/

/-- Link word `l_i` of `Expand`: the first of the link words the loop holds before step `i` (R100). -/
def linkWord (v : Variant) (key : Bytes) (i : Nat) : BitVec v.w := (expandState v key i).2.headD 0

theorem expandState_succ (v : Variant) (key : Bytes) (i : Nat) :
    expandState v key (i + 1) = linkStep v.alpha v.beta i (expandState v key i) := by
  simp only [expandState, linkState, Nat.zero_add]

/-- Before step `i` the loop holds `l_i .. l_{i+m-2}`: each step drops the first and keeps the others in order (R100). -/
theorem expandState_links (v : Variant) (key : Bytes) (i j : Nat) (hj : j < v.m - 1) :
    (expandState v key i).2.getD j 0 = linkWord v key (i + j) := by
  induction j generalizing i with
  | zero => cases h : (expandState v key i).2 <;> simp [linkWord, h]
  | succ j ih =>
    have hlen := expandState_length v key i
    have hnext := ih (i + 1) (by omega)
    rw [expandState_succ, linkStep, List.getD_append _ _ _ _ (by rw [List.length_tail]; omega)] at hnext
    rw [show i + (j + 1) = i + 1 + j by omega, ← hnext]
    simp only [List.getD_eq_getElem?_getD, List.getElem?_tail]

/-- The first `m - 1` link words are the key words after `k_0` (R100). -/
theorem linkWord_start (v : Variant) (key : Bytes) (t : Nat) (ht : t < v.m - 1) :
    linkWord v key t = keyWord v.w v.m key (t + 1) := by
  have hlink := expandState_links v key 0 t ht
  rw [Nat.zero_add] at hlink
  rw [← hlink]
  simp [expandState, linkState, expandStart, ht]

/-- The link word step `i` appends (R100). -/
theorem linkWord_next (v : Variant) (key : Bytes) (i : Nat) :
    linkWord v key (i + v.m - 1) =
      ((expandState v key i).1 + rotr (linkWord v key i) v.alpha) ^^^ BitVec.ofNat v.w i := by
  have hm := v.m_bounds
  have hlen := expandState_length v key i
  have hlast := expandState_links v key (i + 1) (v.m - 2) (by omega)
  rw [expandState_succ, linkStep, List.getD_append_right _ _ _ _ (by rw [List.length_tail]; omega), List.length_tail, hlen,
    show v.m - 2 - (v.m - 1 - 1) = 0 by omega] at hlast
  rw [show i + v.m - 1 = i + 1 + (v.m - 2) by omega, ← hlast]
  rfl

/-- The first round key is the first key word (R100). -/
theorem roundKey_start (v : Variant) (key : Bytes) : (expandState v key 0).1 = keyWord v.w v.m key 0 := rfl

/-- The round key step `i` makes (R100). -/
theorem roundKey_next (v : Variant) (key : Bytes) (i : Nat) :
    (expandState v key (i + 1)).1 = rotl (expandState v key i).1 v.beta ^^^ linkWord v key (i + v.m - 1) := by
  rw [linkWord_next, expandState_succ]
  rfl

/-- An expansion step is the round function with the index for the round key (R102). -/
theorem expansionStep_eq_rf (v : Variant) (key : Bytes) (i : Nat) :
    (linkWord v key (i + v.m - 1), (expandState v key (i + 1)).1) =
      rf v.alpha v.beta (linkWord v key i) (expandState v key i).1 (BitVec.ofNat v.w i) := by
  rw [roundKey_next, linkWord_next, BitVec.add_comm]
  rfl

/-! ## The statement -/

theorem expand_getD (c : Config) (v : Variant) (key : Bytes) (i : Nat) (hi : i < c.t v) :
    (expand c v key).getD i 0 = (expandState v key i).1 := by
  rw [expand_eq c v key (by omega)]
  simp [hi]

/-- Settles O17: the link sequence is `l_0 .. l_{T+m-3}`, the words `linkWord` names. -/
theorem expandRecurrence : Obligations.ExpandRecurrence := by
  unfold Obligations.ExpandRecurrence
  intro c v key hwf hkey
  have ht := c.t_bounds hwf v
  have hm := v.m_bounds
  have hlink : ∀ i, i < c.t v + v.m - 2 →
      ((List.range (c.t v + v.m - 2)).map (linkWord v key)).getD i 0 = linkWord v key i := by
    intro i hi
    simp [hi]
  refine ⟨expand_length c v key (by omega), (List.range (c.t v + v.m - 2)).map (linkWord v key), by simp, ?_, ?_, ?_⟩
  · rw [expand_getD c v key 0 (by omega)]
    simpa [roundKey_start] using keyWord_toNat v key 0 hkey (by omega)
  · intro t htm
    rw [hlink t (by omega), linkWord_start v key t htm, keyWord_toNat v key (t + 1) hkey (by omega)]
  · intro i hi
    rw [hlink i (by omega), hlink (i + v.m - 1) (by omega), expand_getD c v key i (by omega), expand_getD c v key (i + 1) hi]
    exact ⟨linkWord_next v key i, roundKey_next v key i, expansionStep_eq_rf v key i⟩

end Sys2Proof.Machine
end

