-- ==== Sys2Proof/Proofs/BlockCommands.lean ====
section
/-! SUPPORT. `encrypt_block` and `decrypt_block` on an existing slot (spec 42_block_cipher.md R124, R125): the failure on a slot
that is not valid, and the results on a valid one. -/

namespace Sys2Proof.Machine

/-- A block command on a slot that is not valid ends with `NO_SCHEDULE`, whatever the block (R124, R125). -/
theorem blockCommand_noSchedule (run : Config → Variant → RoundKeys → Work → Work) (s : State) (slot : BitVec 4) (sl : Slot)
    (hsl : s.slots[slot.toNat]? = some sl) (hvalid : sl.valid = false) :
    blockCommand slot run s = .next (s.ended .noSchedule OutBufs.empty s.slots) := by
  rcases blockCommand_ends slot run s with
    ⟨hnone, -⟩ | ⟨_, -, -, hexec⟩ | ⟨sl', hsl', hvalid', -⟩ | ⟨sl', hsl', hvalid', -⟩
  · simp [hsl] at hnone
  · exact hexec
  all_goals
    obtain rfl : sl = sl' := Option.some.inj (hsl.symm.trans hsl')
    simp [hvalid] at hvalid'

/-- A block command on a valid slot and a block of its variant's size ends with `OK` and the block that the registers hold
after its rounds (R124, R125). -/
theorem blockCommand_ok (run : Config → Variant → RoundKeys → Work → Work) (s : State) (slot : BitVec 4) (sl : Slot)
    (hsl : s.slots[slot.toNat]? = some sl) (hvalid : sl.valid = true) (hblock : s.inp.block.length = sl.var.blockBytes) :
    blockCommand slot run s = .next (s.ended .ok { OutBufs.empty with
      block := storeXY sl.var (run s.cfg sl.var sl.rk (loadXY sl.var s.inp.block { s.work with phase := .block })) }
      s.slots) := by
  rcases blockCommand_ends slot run s with
    ⟨hnone, -⟩ | ⟨sl', hsl', hvalid', -⟩ | ⟨sl', hsl', -, hblock', -⟩ | ⟨sl', hsl', -, -, hexec⟩
  · simp [hsl] at hnone
  all_goals obtain rfl : sl = sl' := Option.some.inj (hsl.symm.trans hsl')
  · simp [hvalid] at hvalid'
  · exact absurd hblock hblock'
  · exact hexec

/-- `encrypt_block` on a valid slot gives `Encrypt` of the block under the slot's round keys (R124). -/
theorem execEncryptBlock_ok (s : State) (slot : BitVec 4) (sl : Slot) (hwf : s.cfg.wf = true)
    (hsl : s.slots[slot.toNat]? = some sl) (hvalid : sl.valid = true) (hblock : s.inp.block.length = sl.var.blockBytes) :
    execEncryptBlock slot s = .next (s.ended .ok { OutBufs.empty with
      block := encrypt sl.var (storedKeys s.cfg sl.var sl.rk) s.inp.block } s.slots) := by
  rw [execEncryptBlock, blockCommand_ok encryptXY s slot sl hsl hvalid hblock,
    storeXY_encryptXY _ _ _ _ _ (s.cfg.t_bounds hwf sl.var).2]

/-- `decrypt_block` on a valid slot gives `Decrypt` of the block under the slot's round keys (R125). -/
theorem execDecryptBlock_ok (s : State) (slot : BitVec 4) (sl : Slot) (hwf : s.cfg.wf = true)
    (hsl : s.slots[slot.toNat]? = some sl) (hvalid : sl.valid = true) (hblock : s.inp.block.length = sl.var.blockBytes) :
    execDecryptBlock slot s = .next (s.ended .ok { OutBufs.empty with
      block := decrypt sl.var (storedKeys s.cfg sl.var sl.rk) s.inp.block } s.slots) := by
  rw [execDecryptBlock, blockCommand_ok decryptXY s slot sl hsl hvalid hblock,
    storeXY_decryptXY _ _ _ _ _ (s.cfg.t_bounds hwf sl.var).2]

end Sys2Proof.Machine
end

