-- ==== Sys2Proof/Proofs/ScheduleAndRelease.lean ====
section
/-! SUPPORT. `schedule` and `release` (spec 41_key_schedule.md R104, R106), and the block commands of 42_block_cipher.md on the
slot each leaves. -/

namespace Sys2Proof.Machine

/-! ## The commands on an existing slot -/

/-- `schedule` with the code of a variant, an existing slot and a key of the variant's length ends with `OK` and the image of
the expanded key in the slot (R104). -/
theorem execSchedule_ok (s : State) (v : Variant) (slot : BitVec 4) (hwf : s.cfg.wf = true) (hslot : slot.toNat < s.nslot)
    (hkey : s.inp.key.length = v.keyBytes) :
    ∃ rk : RoundKeys, rk.toList = scheduleImage (expand s.cfg v s.inp.key) ∧
      execSchedule v.code slot s =
        .next (s.ended .ok OutBufs.empty (s.slots.set slot.toNat { valid := true, var := v, rk := rk })) := by
  have ht := s.cfg.t_bounds hwf v
  rcases execSchedule_cases v.code slot s with
    ⟨hno, -⟩ | ⟨-, hcode, -⟩ | ⟨u, -, hcode, hlen, -⟩ | ⟨u, -, hcode, -, hexec⟩
  · omega
  · simp at hcode
  · obtain rfl : v = u := by simpa using hcode
    exact absurd hkey hlen
  · obtain rfl : v = u := by simpa using hcode
    exact ⟨_, expandRegs_keys s.cfg v s.inp.key _ (by omega) ht.2, hexec⟩

/-- `release` of an existing slot ends with `OK` and the slot empty (R106). -/
theorem execRelease_ok (s : State) (slot : BitVec 4) (hslot : slot.toNat < s.nslot) :
    execRelease slot s = .next (s.ended .ok OutBufs.empty (s.slots.set slot.toNat Slot.empty)) := by
  rcases execRelease_cases slot s with ⟨hno, -⟩ | ⟨-, hexec⟩
  · omega
  · exact hexec

/-! ## The statements -/

/-- Settles O19: `execSchedule_ok`, with the image written out for `T` round keys. -/
theorem scheduleFillsSlot : Obligations.ScheduleFillsSlot := by
  unfold Obligations.ScheduleFillsSlot
  intro s v slot hwf hslot hkey
  have ht := s.cfg.t_bounds hwf v
  obtain ⟨rk, himage, hexec⟩ := execSchedule_ok s v slot hwf hslot hkey
  rw [scheduleImage, expand_length s.cfg v s.inp.key (by omega)] at himage
  exact ⟨rk, himage, hexec⟩

/-- Settles O20: `execRelease_ok`; the slot it leaves is there and not valid, so `blockCommand_noSchedule` speaks of it for
every block and for both directions. -/
theorem releaseEmptiesSlot : Obligations.ReleaseEmptiesSlot := by
  unfold Obligations.ReleaseEmptiesSlot
  intro s slot hslot
  have hrelease := execRelease_ok s slot hslot
  refine ⟨hrelease, fun t b ht => ?_⟩
  cases hrelease.symm.trans ht
  have hempty : (s.slots.set slot.toNat Slot.empty)[slot.toNat]? = some Slot.empty := List.getElem?_set_self hslot
  exact ⟨blockCommand_noSchedule encryptXY _ slot Slot.empty hempty rfl,
    blockCommand_noSchedule decryptXY _ slot Slot.empty hempty rfl⟩

/-- Settles O26: after `schedule` the slot holds `Expand(key)`, so `encrypt_block` gives `Encrypt` under it; `encrypt_block`
leaves the slot, so `decrypt_block` runs under the same round keys and `decrypt_encrypt` gives the block back. -/
theorem scheduledBlockRoundTrip : Obligations.ScheduledBlockRoundTrip := by
  unfold Obligations.ScheduledBlockRoundTrip
  intro s v slot b hwf hslot hkey hb
  have ht := s.cfg.t_bounds hwf v
  obtain ⟨rk, himage, hschedule⟩ := execSchedule_ok s v slot hwf hslot hkey
  have hkeys : storedKeys s.cfg v rk = expand s.cfg v s.inp.key :=
    storedKeys_of_image s.cfg v rk _ (expand_length s.cfg v s.inp.key (by omega)) himage
  have hfilled : (s.slots.set slot.toNat { valid := true, var := v, rk := rk })[slot.toNat]? =
      some { valid := true, var := v, rk := rk } := List.getElem?_set_self hslot
  refine ⟨_, _, _, hschedule, execEncryptBlock_ok _ slot _ hwf hfilled rfl hb, rfl, ?encrypted,
    execDecryptBlock_ok _ slot _ hwf hfilled rfl (encrypt_length v _ b), rfl, ?decrypted, rfl⟩
  case encrypted => exact congrArg (encrypt v · b) hkeys
  case decrypted => exact decrypt_encrypt v _ b hb

end Sys2Proof.Machine
end

