-- ==== Sys2Proof/Proofs/RoundOrder.lean ====
section
/-! SUPPORT. The statements of 42_block_cipher.md: the formulas of a round and its inverse (R120, R121), the pairs of words a
whole block goes through round by round (R122, R123), and the two block commands (R124, R125). -/

namespace Sys2Proof.Machine

/-! ## The words of a block -/

/-- A word read from `w/8` bytes is their number: nothing is reduced away (R53). -/
theorem toNat_ofNat_be (v : Variant) (s : Bytes) (hs : s.length = v.w / 8) : (BitVec.ofNat v.w (be s)).toNat = be s := by
  rw [BitVec.toNat_ofNat, ← Variant_pow_word, ← hs, Nat.mod_eq_of_lt (be_lt s)]

/-- The left word is the number of the block's first `w/8` bytes (R53). -/
theorem blockX_toNat (v : Variant) (b : Bytes) (hb : b.length = v.blockBytes) :
    (blockX v.w b).toNat = be (b.take v.wordBytes) := by
  have hlen := hb.trans v.blockBytes_eq
  exact toNat_ofNat_be v (b.take (v.w / 8)) (by rw [List.length_take]; omega)

/-- The right word is the number of the block's other bytes (R53). -/
theorem blockY_toNat (v : Variant) (b : Bytes) (hb : b.length = v.blockBytes) :
    (blockY v.w b).toNat = be (b.drop v.wordBytes) := by
  have hlen := hb.trans v.blockBytes_eq
  have hlast : (b.drop (v.w / 8)).length = v.w / 8 := by rw [List.length_drop]; omega
  rw [blockY, memRead, List.take_of_length_le hlast.le, toNat_ofNat_be v _ hlast]
  rfl

/-! ## Round by round -/

/-- The words of `Encrypt` after its first `i` rounds (R122). -/
def encryptWords (v : Variant) (ks : List (BitVec v.w)) (b : Bytes) (i : Nat) : BitVec v.w × BitVec v.w :=
  rounds v (ks.take i) (blockX v.w b, blockY v.w b)

/-- The words of `Decrypt` once it has undone all rounds but the first `i`: round keys `i` on are used (R123). -/
def decryptWords (v : Variant) (ks : List (BitVec v.w)) (b : Bytes) (i : Nat) : BitVec v.w × BitVec v.w :=
  invRounds v (ks.drop i) (blockX v.w b, blockY v.w b)

/-- A last round key adds its round at the end. -/
theorem rounds_concat (v : Variant) (ks : List (BitVec v.w)) (k : BitVec v.w) (xy : BitVec v.w × BitVec v.w) :
    rounds v (ks ++ [k]) xy = rf v.alpha v.beta (rounds v ks xy).1 (rounds v ks xy).2 k := by
  simp only [rounds, List.foldl_append, List.foldl_cons, List.foldl_nil]

/-- A first round key adds its inverse round at the end. -/
theorem invRounds_cons (v : Variant) (k : BitVec v.w) (ks : List (BitVec v.w)) (xy : BitVec v.w × BitVec v.w) :
    invRounds v (k :: ks) xy = rinv v.alpha v.beta (invRounds v ks xy).1 (invRounds v ks xy).2 k := by
  simp only [invRounds, List.reverse_cons, List.foldl_append, List.foldl_cons, List.foldl_nil]

/-- Round `i` of `Encrypt` runs with round key `i` (R122). -/
theorem encryptWords_succ (v : Variant) (ks : List (BitVec v.w)) (b : Bytes) (i : Nat) (hi : i < ks.length) :
    encryptWords v ks b (i + 1) =
      rf v.alpha v.beta (encryptWords v ks b i).1 (encryptWords v ks b i).2 (ks.getD i 0) := by
  rw [encryptWords, List.take_succ_eq_append_getElem hi, rounds_concat, List.getD_eq_getElem _ _ hi]
  rfl

/-- The inverse of round `i` in `Decrypt` runs with round key `i`, after the inverses of all later rounds (R123). -/
theorem decryptWords_pred (v : Variant) (ks : List (BitVec v.w)) (b : Bytes) (i : Nat) (hi : i < ks.length) :
    decryptWords v ks b i =
      rinv v.alpha v.beta (decryptWords v ks b (i + 1)).1 (decryptWords v ks b (i + 1)).2 (ks.getD i 0) := by
  rw [decryptWords, List.drop_eq_getElem_cons hi, invRounds_cons, List.getD_eq_getElem _ _ hi]
  rfl

/-- `Encrypt` starts from the words of the block. -/
theorem encryptWords_zero (v : Variant) (ks : List (BitVec v.w)) (b : Bytes) :
    encryptWords v ks b 0 = (blockX v.w b, blockY v.w b) := rfl

/-- `Decrypt` starts from the words of the block. -/
theorem decryptWords_length (v : Variant) (ks : List (BitVec v.w)) (b : Bytes) :
    decryptWords v ks b ks.length = (blockX v.w b, blockY v.w b) := by
  rw [decryptWords, List.drop_length]
  rfl

/-- `Encrypt` ends with the bytes of the words after all rounds (R122). -/
theorem encrypt_eq_words (v : Variant) (ks : List (BitVec v.w)) (b : Bytes) :
    encrypt v ks b = wordsBlock (encryptWords v ks b ks.length).1 (encryptWords v ks b ks.length).2 := by
  rw [encryptWords, List.take_length, encrypt_eq]

/-- `Decrypt` ends with the bytes of the words when every round is undone (R123). -/
theorem decrypt_eq_words (v : Variant) (ks : List (BitVec v.w)) (b : Bytes) :
    decrypt v ks b = wordsBlock (decryptWords v ks b 0).1 (decryptWords v ks b 0).2 := decrypt_eq v ks b

/-! ## The statements -/

/-- Settles O21: the assignments of R120 and of R121, each put into the next. -/
theorem roundFormulas : Obligations.RoundFormulas := by
  unfold Obligations.RoundFormulas
  intro v x y k
  exact ⟨rfl, rfl⟩

/-- Settles O23: the words are `encryptWords` counted up and `decryptWords` counted down. -/
theorem cipherRunsRoundsInOrder : Obligations.CipherRunsRoundsInOrder := by
  unfold Obligations.CipherRunsRoundsInOrder
  intro v ks b hb
  constructor
  · refine ⟨fun i => (encryptWords v ks b i).1, fun i => (encryptWords v ks b i).2, ?_, ?_, ?_, ?_⟩
    · simpa only [encryptWords_zero] using blockX_toNat v b hb
    · simpa only [encryptWords_zero] using blockY_toNat v b hb
    · exact encryptWords_succ v ks b
    · exact encrypt_eq_words v ks b
  · refine ⟨fun i => (decryptWords v ks b i).1, fun i => (decryptWords v ks b i).2, ?_, ?_, ?_, ?_⟩
    · simpa only [decryptWords_length] using blockX_toNat v b hb
    · simpa only [decryptWords_length] using blockY_toNat v b hb
    · exact decryptWords_pred v ks b
    · exact decrypt_eq_words v ks b

/-- Settles O25: `execEncryptBlock_ok` and `execDecryptBlock_ok`; the round keys of the statement are `storedKeys`. -/
theorem blockCommandResults : Obligations.BlockCommandResults := by
  unfold Obligations.BlockCommandResults
  intro s slot sl hwf hsl hvalid hblock ks
  exact ⟨execEncryptBlock_ok s slot sl hwf hsl hvalid hblock, execDecryptBlock_ok s slot sl hwf hsl hvalid hblock⟩

end Sys2Proof.Machine
end

