-- ==== Sys2Proof/Proofs/CounterMode.lean ====
section
/-! SUPPORT. Counter blocks (spec 43_ctr.md R142), the registers `CTRV` and `J` along a stream (R143), and the bytes of a
stream (R151). -/

namespace Sys2Proof.Machine

/-! ## Counter blocks -/

/-- The numbers of a block's bytes are the numbers below `2^(2w)` (R142). -/
theorem pow_blockBytes (v : Variant) : 256 ^ v.blockBytes = 2 ^ (2 * v.w) := by
  rw [v.blockBytes_eq, pow_add, Variant_pow_word, ← pow_add, two_mul]

theorem be_nonce_lt (v : Variant) (nonce : Bytes) (hn : nonce.length = v.blockBytes) : be nonce < 2 ^ (2 * v.w) := by
  rw [← pow_blockBytes, ← hn]
  exact be_lt nonce

/-- The nonce is its own first counter block (R142). -/
theorem ctrBlock_zero (v : Variant) (nonce : Bytes) (hn : nonce.length = v.blockBytes) : ctrBlock v nonce 0 = nonce := by
  rw [ctrBlock, Nat.add_zero, Nat.mod_eq_of_lt (be_nonce_lt v nonce hn), ← hn, beBytes_be]

theorem be_ctrBlock (v : Variant) (nonce : Bytes) (j : Nat) :
    be (ctrBlock v nonce j) = (be nonce + j) % 2 ^ (2 * v.w) := by
  rw [ctrBlock, be_beBytes, pow_blockBytes, Nat.mod_mod]

/-- The left word of a counter block is the high half of the counter: the quotient fits in a word (R55). -/
theorem blockX_ctrBlock_toNat (v : Variant) (nonce : Bytes) (j : Nat) :
    (blockX v.w (ctrBlock v nonce j)).toNat = (be nonce + j) % 2 ^ (2 * v.w) / 2 ^ v.w := by
  have hlt : (be nonce + j) % 2 ^ (2 * v.w) < 2 ^ v.w * 2 ^ v.w := by
    rw [← pow_add, ← two_mul]
    exact Nat.mod_lt _ (by positivity)
  rw [ctrBlock, blockX_counter, BitVec.toNat_ofNat, Nat.mod_eq_of_lt (Nat.div_lt_of_lt_mul hlt)]

/-- The right word of a counter block is the low half of the counter (R55). -/
theorem blockY_ctrBlock_toNat (v : Variant) (nonce : Bytes) (j : Nat) :
    (blockY v.w (ctrBlock v nonce j)).toNat = (be nonce + j) % 2 ^ v.w := by
  rw [ctrBlock, blockY_counter, BitVec.toNat_ofNat, Nat.mod_mod_of_dvd _ (pow_dvd_pow 2 (by omega))]

/-! ## The wrap -/

/-- All-ones bytes are the last number before the wrap. -/
theorem be_ones_succ (n : Nat) : be (List.replicate n 0xFF) + 1 = 256 ^ n := by
  induction n with
  | zero => rfl
  | succ n ih =>
    have hbyte : (0xFF : Byte).toNat = 255 := rfl
    simp only [List.replicate_succ, be, List.length_replicate, hbyte, pow_succ]
    omega

theorem beBytes_zero (n : Nat) : beBytes n 0 = zeros n := by
  induction n with
  | zero => rfl
  | succ n ih => simp [beBytes, ih, zeros, List.replicate_succ]

/-- After the all-ones counter block comes the zero block (R143). -/
theorem ctrBlock_wraps (v : Variant) : ctrBlock v (List.replicate v.blockBytes 0xFF) 1 = zeros v.blockBytes := by
  rw [ctrBlock, be_ones_succ, pow_blockBytes, Nat.mod_self, beBytes_zero]

/-! ## The counter registers -/

/-- An operand of `s.length` bytes has `ceil(s.length / n)` pieces (R59). -/
theorem piecesUpTo_length (n k : Nat) (hn : 0 < n) (s : Bytes) (hs : s.length ≤ k) :
    (piecesUpTo n k s).length = (s.length + n - 1) / n := by
  have hempty : (0 + n - 1) / n = 0 := Nat.div_eq_of_lt (by omega)
  induction k generalizing s with
  | zero => rw [Nat.le_zero.mp hs, hempty]; rfl
  | succ k ih =>
    cases s with
    | nil => exact hempty.symm
    | cons b s =>
      have hrest := ih ((b :: s).drop n) (by simp only [List.length_drop, List.length_cons] at hs ⊢; omega)
      rw [piecesUpTo, List.length_cons, hrest, List.length_drop, List.length_cons]
      have hfirst : (s.length + 1 + n - 1) / n = s.length / n + 1 := by
        rw [← Nat.add_div_right _ hn]
        congr 1
        omega
      rw [hfirst]
      by_cases hlast : s.length + 1 ≤ n
      · rw [Nat.sub_eq_zero_of_le hlast, hempty, Nat.div_eq_of_lt (by omega)]
      · rw [Nat.sub_add_cancel (by omega), Nat.add_sub_cancel]

theorem pieces_length (n : Nat) (hn : 0 < n) (s : Bytes) : (pieces n s).length = (s.length + n - 1) / n :=
  piecesUpTo_length n s.length hn s le_rfl

/-- Making a keystream block leaves `CTRV` and `J` (R143, R144). -/
theorem ctrKeystream_counter (c : Config) (v : Variant) (wk : Work) (ht : c.t v ≤ 34) :
    (ctrKeystream c v wk).ctrv = wk.ctrv ∧ (ctrKeystream c v wk).j = wk.j := by
  obtain ⟨r, hr⟩ := encryptXY_spec c v wk.tk (ctrToXY v wk) ht (_, _) rfl rfl
  simp only [ctrKeystream, hr]
  exact ⟨rfl, rfl⟩

/-- Each piece adds one to `CTRV`, modulo `2^(2w)`, and one to `J` (R143). -/
theorem ctrPiece_counter (c : Config) (v : Variant) (st : Work × Bytes) (piece : Bytes) (ht : c.t v ≤ 34) :
    (ctrPiece c v st piece).1.ctrv.toNat = (st.1.ctrv.toNat + 1) % 2 ^ (2 * v.w) ∧
      (ctrPiece c v st piece).1.j = st.1.j + 1 := by
  obtain ⟨hctrv, hj⟩ := ctrKeystream_counter c v st.1 ht
  simp only [ctrPiece, ctrAdvance, hctrv, hj, BitVec.toNat_ofNat, and_true]
  exact Nat.mod_eq_of_lt (counter_lt v _)

/-- The counter registers after any pieces: `CTRV` counts them modulo `2^(2w)`, `J` counts them all (R143). -/
theorem foldl_ctrPiece_counter (c : Config) (v : Variant) (ht : c.t v ≤ 34) (ps : List Bytes) (st : Work × Bytes) (n : Nat)
    (hn : st.1.ctrv.toNat = n % 2 ^ (2 * v.w)) :
    (ps.foldl (ctrPiece c v) st).1.ctrv.toNat = (n + ps.length) % 2 ^ (2 * v.w) ∧
      (ps.foldl (ctrPiece c v) st).1.j = st.1.j + ps.length := by
  induction ps generalizing st n with
  | nil => exact ⟨hn, rfl⟩
  | cons p ps ih =>
    obtain ⟨hctrv, hj⟩ := ctrPiece_counter c v st p ht
    obtain ⟨hctrv', hj'⟩ := ih (ctrPiece c v st p) (n + 1) (by rw [hctrv, hn, Nat.mod_add_mod])
    rw [List.foldl_cons, List.length_cons, hctrv', hj', hj]
    exact ⟨by rw [Nat.add_assoc, Nat.add_comm 1], by omega⟩

/-- The counter registers after a stream: `CTRV` has moved on by the number of pieces from `BE(N) + t`, `J` is that number
(R143). -/
theorem ctrRegs_counter (c : Config) (v : Variant) (nonce : Bytes) (t : Nat) (d : Bytes) (wk : Work) (ht : c.t v ≤ 34) :
    (ctrRegs c v nonce t d wk).1.ctrv.toNat =
        (be nonce + t + (d.length + v.blockBytes - 1) / v.blockBytes) % 2 ^ (2 * v.w) ∧
      (ctrRegs c v nonce t d wk).1.j = (d.length + v.blockBytes - 1) / v.blockBytes := by
  have hload : (ctrLoad v nonce t wk).ctrv.toNat = (be nonce + t) % 2 ^ (2 * v.w) := by
    rw [ctrLoad, BitVec.toNat_ofNat, Nat.mod_eq_of_lt (counter_lt v _)]
  obtain ⟨hctrv, hj⟩ :=
    foldl_ctrPiece_counter c v ht (pieces v.blockBytes d) (ctrLoad v nonce t wk, []) (be nonce + t) hload
  rw [pieces_length _ v.blockBytes_pos] at hctrv hj
  exact ⟨hctrv, hj.trans (Nat.zero_add _)⟩

/-! ## The bytes of a stream -/

/-- Byte `p` of a stream is the data byte XOR its keystream byte (R151). -/
theorem ctrStream_getD (v : Variant) (ks : List (BitVec v.w)) (nonce : Bytes) (t : Nat) (d : Bytes) (p : Nat)
    (hp : p < d.length) :
    (ctrStream v ks nonce t d).getD p 0 =
      d.getD p 0 ^^^ (keystreamBlock v ks nonce t (p / v.blockBytes)).getD (p % v.blockBytes) 0 := by
  have hp' : p < (ctrStream v ks nonce t d).length := by rwa [ctrStream_length]
  rw [List.getD_eq_getElem _ _ hp', List.getD_eq_getElem _ _ hp]
  exact List.getElem_mapIdx ..

/-! ## The statements -/

/-- Settles O27: the bytes of a block are the numbers below `2^(2w)`, so `BE` and `BEbytes` undo each other on counters. -/
theorem counterBlocks : Obligations.CounterBlocks := by
  unfold Obligations.CounterBlocks
  intro v nonce j hn
  exact ⟨be_nonce_lt v nonce hn, ctrBlock_zero v nonce hn, rfl, be_ctrBlock v nonce j, blockX_ctrBlock_toNat v nonce j,
    blockY_ctrBlock_toNat v nonce j⟩

/-- Settles O28: `ctrRegs_counter`, by induction over the pieces, and `ctrBlock_wraps`. -/
theorem counterRegisterWraps : Obligations.CounterRegisterWraps := by
  unfold Obligations.CounterRegisterWraps
  exact ⟨fun c v nonce d t wk hwf => ctrRegs_counter c v nonce t d wk (c.t_bounds hwf v).2, ctrBlock_wraps⟩

/-- Settles O29: `ctrStream_length` and `ctrStream_getD`; keystream block `p div B` is the encryption named there (R144). -/
theorem streamBytes : Obligations.StreamBytes := by
  unfold Obligations.StreamBytes
  intro v ks nonce t d
  exact ⟨ctrStream_length v ks nonce t d, ctrStream_getD v ks nonce t d⟩

end Sys2Proof.Machine
end

