-- ==== Sys2Proof/Proofs/CtrCrypt.lean ====
section
/-! SUPPORT. Operands that pass the checks of the stream commands (spec 43_ctr.md R141, 20_memory.md R60), and `ctr_crypt`
on them (R146). -/

namespace Sys2Proof.Machine

/-- Ready operands pass `StreamChecks` (R141). -/
theorem State.StreamReady.streamChecks_ok {s : State} {v : Variant} (h : s.StreamReady v) :
    streamChecks v.code s.inp = .ok v :=
  (streamChecks_ok_iff v.code s.inp v).mpr ⟨v.ofStreamCode_code h.capable, h.key, h.nonce⟩

/-- Ready data are within the length limit (R60). -/
theorem State.StreamReady.dataTooLong_false {s : State} {v : Variant} (h : s.StreamReady v) : s.dataTooLong = false :=
  decide_eq_false (Nat.not_lt.mpr h.data)

/-- Phase `CRYPT` right after the checks and `EXPAND` leaves the stream under the expanded key in `OUT.data` (R146, R188). -/
theorem State.cryptPhase_expandIntoTK_data (s : State) (v : Variant) (t : Nat) (hwf : s.cfg.wf = true) :
    ((s.begin.expandIntoTK v).cryptPhase v t).out.data =
      ctrStream v (expand s.cfg v s.inp.key) s.inp.nonce t s.inp.data := by
  have ht := s.cfg.t_bounds hwf v
  have hkeys := s.begin.expandIntoTK_keys v (by rw [State.begin_cfg]; omega) ht.2
  obtain ⟨hout, -, -⟩ := (s.begin.expandIntoTK v).cryptPhase_spec v t (by simpa using ht.2)
  rw [State.begin_cfg, State.begin_inp] at hkeys
  rw [hout]
  simp only [State.expandIntoTK_cfg, State.expandIntoTK_inp, State.begin_cfg, State.begin_inp, hkeys]

/-- `ctr_crypt` on ready operands ends with `OK` and the stream from the nonce under the expanded key (R146). -/
theorem execCtrCrypt_ok (s : State) (v : Variant) (h : s.StreamReady v) :
    execCtrCrypt v.code s = .next (s.ended .ok { OutBufs.empty with
      data := ctrStream v (expand s.cfg v s.inp.key) s.inp.nonce 0 s.inp.data } s.slots) := by
  rcases execCtrCrypt_cases v.code s with ⟨hlong, -⟩ | ⟨-, st, hst, -⟩ | ⟨-, u, hu, hexec⟩
  · simp [h.dataTooLong_false] at hlong
  · simp [h.streamChecks_ok] at hst
  · obtain rfl : v = u := Except.ok.inj (h.streamChecks_ok.symm.trans hu)
    rw [hexec, s.cryptPhase_expandIntoTK_data v 0 h.cfg]

/-- Settles O32: `execCtrCrypt_ok`; `State.ended` names every field a command can change. -/
theorem ctrCryptResult : Obligations.CtrCryptResult := by
  unfold Obligations.CtrCryptResult
  intro s v h
  exact execCtrCrypt_ok s v h

end Sys2Proof.Machine
end

