-- ==== Sys2Proof/Proofs/MacMessage.lean ====
section
/-! SUPPORT. The MAC message as a code for its two operands (spec 44_mac.md R160 to R162): its shape, and that the length
suffix makes it injective within the length limit. -/

namespace Sys2Proof.Machine

/-- `LE` undoes `LEbytes_n` up to reduction modulo `256^n` (00_scope.md R11). -/
theorem le_leBytes (n v : Nat) : le (leBytes n v) = v % 256 ^ n := by
  induction n generalizing v with
  | zero => simp [leBytes, le, Nat.mod_one]
  | succ n ih =>
    have hbyte : (BitVec.ofNat 8 v).toNat = v % 256 := BitVec.toNat_ofNat v 8
    rw [leBytes, le, ih, hbyte, pow_succ', Nat.mod_mul]

/-- The 8-byte length field of an operand within the limit determines the operand's length (R162). -/
theorem length_eq_of_leBytes_bits_eq {s t : Bytes} (hs : s.length ≤ 2 ^ 61 - 1) (ht : t.length ≤ 2 ^ 61 - 1)
    (h : leBytes 8 (8 * s.length) = leBytes 8 (8 * t.length)) : s.length = t.length := by
  have hmod := congrArg le h
  rw [le_leBytes, le_leBytes] at hmod
  omega

/-- A padded operand and its length determine the operand, whatever follows it (R160). -/
theorem pad16_append_inj {s t x y : Bytes} (hlen : s.length = t.length) (h : pad16 s ++ x = pad16 t ++ y) :
    s = t ∧ x = y := by
  rw [pad16, pad16, hlen, List.append_assoc, List.append_assoc] at h
  obtain ⟨hst, hrest⟩ := List.append_inj h hlen
  exact ⟨hst, List.append_cancel_left hrest⟩

/-- The MAC message is two padded operands and a 16-byte length suffix (R161). -/
theorem macMsg_eq (aad ct : Bytes) :
    macMsg aad ct = (pad16 aad ++ pad16 ct) ++ (leBytes 8 (8 * aad.length) ++ leBytes 8 (8 * ct.length)) :=
  List.append_assoc _ _ _

/-- The length suffix alone is one unit of the MAC message (R161, R162). -/
theorem sixteen_le_macMsg_length (aad ct : Bytes) : 16 ≤ (macMsg aad ct).length := by
  rw [macMsg_eq, List.length_append, List.length_append (as := leBytes _ _), leBytes_length, leBytes_length]
  omega

/-- Equal MAC messages end in equal length fields and begin with equal padded operands (R161). -/
theorem macMsg_parts_eq {a1 c1 a2 c2 : Bytes} (h : macMsg a1 c1 = macMsg a2 c2) :
    pad16 a1 ++ pad16 c1 = pad16 a2 ++ pad16 c2 ∧
      leBytes 8 (8 * a1.length) = leBytes 8 (8 * a2.length) ∧ leBytes 8 (8 * c1.length) = leBytes 8 (8 * c2.length) := by
  rw [macMsg_eq, macMsg_eq] at h
  obtain ⟨hparts, hsuffix⟩ := List.append_inj' h (by simp)
  obtain ⟨haad, hct⟩ := List.append_inj hsuffix (by simp)
  exact ⟨hparts, haad, hct⟩

/-- Within the length limit the MAC message determines both operands: first their lengths, from the suffix, and then their
bytes, from the padded parts (R161). -/
theorem macMsg_injective {a1 c1 a2 c2 : Bytes} (ha1 : a1.length ≤ 2 ^ 61 - 1) (hc1 : c1.length ≤ 2 ^ 61 - 1)
    (ha2 : a2.length ≤ 2 ^ 61 - 1) (hc2 : c2.length ≤ 2 ^ 61 - 1) (h : macMsg a1 c1 = macMsg a2 c2) :
    a1 = a2 ∧ c1 = c2 := by
  obtain ⟨hparts, haad, hct⟩ := macMsg_parts_eq h
  obtain ⟨ha, hrest⟩ := pad16_append_inj (length_eq_of_leBytes_bits_eq ha1 ha2 haad) hparts
  have hpadded : pad16 c1 ++ [] = pad16 c2 ++ [] := congrArg (· ++ []) hrest
  exact ⟨ha, (pad16_append_inj (length_eq_of_leBytes_bits_eq hc1 hc2 hct) hpadded).1⟩

/-- Settles O35: `macMsg_eq` (R160 to R162), `macMsg_length`, `sixteen_le_macMsg_length` and `macMsg_injective`. -/
theorem macMessageShapeAndUniqueness : Obligations.MacMessageShapeAndUniqueness := by
  unfold Obligations.MacMessageShapeAndUniqueness
  refine ⟨fun aad ct => ⟨macMsg_eq aad ct, ?_, sixteen_le_macMsg_length aad ct⟩, ?_⟩
  · obtain ⟨q, hq⟩ := macMsg_length aad ct
    rw [hq, Nat.mul_mod_left]
  · intro a1 c1 a2 c2 ha1 hc1 ha2 hc2 h
    exact macMsg_injective ha1 hc1 ha2 hc2 h

end Sys2Proof.Machine
end

