-- ==== Sys2Proof/Proofs/MacFeeding.lean ====
section
/-! SUPPORT. The feeding sequence as one function of the working registers (spec 44_mac.md R165, R166). -/

namespace Sys2Proof.Machine

/-- With both padded operands absorbed and both lengths counted, `MAC_LEN` leaves the tag of the MAC message (R165). -/
theorem macLenRegs_tag (h : UHash) (key aad ct : Bytes) (wk : Work) (h0 : wk.mfill = 0)
    (hacc : wk.acc = (pieces 16 (pad16 ct)).foldl macAbsorb ((pieces 16 (pad16 aad)).foldl macAbsorb (macInit h key)))
    (haad : wk.aadbits = BitVec.ofNat 64 (8 * aad.length)) (hct : wk.ctbits = BitVec.ofNat 64 (8 * ct.length)) :
    (macLenRegs wk).tagreg.toList = uhash h key (macMsg aad ct) := by
  obtain ⟨mbuf, acc, hfinal, hregs⟩ := macLenRegs_spec wk h0
  obtain ⟨q, hq⟩ := macMsg_length aad ct
  have hmsg : acc = (pieces 16 (macMsg aad ct)).foldl macAbsorb (macInit h key) := by
    rw [hfinal, hacc, haad, hct, leBytes_bits, leBytes_bits, absorb_macMsg]
  rw [hregs, loadReg_toList _ _ (macFinal_length acc), hmsg, macFinal_units h key _ q hq]

/-- Settles O36: the rules of the three phases give the registers after each (R165, R166), and `macLenRegs_tag` the tag. -/
theorem feedingComputesTheTag : Obligations.FeedingComputesTheTag := by
  unfold Obligations.FeedingComputesTheTag
  intro h wk aad ct w1 w2 w3
  obtain ⟨_, hw1 : w1 = _⟩ := macAadRegs_spec h aad wk
  have hfill1 : w1.mfill = 0 := by rw [hw1]
  obtain ⟨_, hw2 : w2 = _⟩ := macCtRegs_spec ct w1 hfill1
  have hfill2 : w2.mfill = 0 := by rw [hw2]
  have haad : w2.aadbits = BitVec.ofNat 64 (8 * aad.length) := by rw [hw2, hw1]
  have hct : w2.ctbits = BitVec.ofNat 64 (8 * ct.length) := by rw [hw2, hw1]; exact BitVec.zero_add _
  have hkey : w2.mackey = wk.mackey := by rw [hw2, hw1]
  have htag := macLenRegs_tag h wk.mackey.toList aad ct w2 hfill2 (by rw [hw2, hw1]) haad hct
  obtain ⟨_, _, -, hw3 : w3 = _⟩ := macLenRegs_spec w2 hfill2
  exact ⟨htag, hfill1, hfill2, by rw [hw3], by rw [hw3, haad], by rw [hw3, hct], by rw [hw3, hkey]⟩

end Sys2Proof.Machine
end

