-- ==== Sys2Proof/Proofs/AeadCommands.lean ====
section
/-! SUPPORT. `aead_encrypt` and `aead_decrypt` on operands that pass the checks (spec 45_aead.md R183 to R187): ciphertext and
tag, and the two ends of a decryption, told apart by the tag alone. -/

namespace Sys2Proof.Machine

/-! ## The tag comparison -/

/-- The OR of a list of bytes is zero exactly when every byte is (R186). -/
theorem foldl_or_eq_zero_iff (ds : Bytes) (d : Byte) :
    ds.foldl (fun d e => d ||| e) d = 0 ↔ d = 0 ∧ ∀ e ∈ ds, e = 0 := by
  induction ds generalizing d with
  | nil => simp
  | cons e es ih =>
    rw [List.foldl_cons, ih, List.forall_mem_cons, ← and_assoc]
    exact and_congr_left' BitVec.or_eq_zero_iff

/-- Two strings of one length are equal exactly when all their byte differences are zero. -/
theorem forall_zipWith_xor_eq_zero_iff {t u : Bytes} (hlen : t.length = u.length) :
    (∀ e ∈ List.zipWith (fun a b => a ^^^ b) t u, e = 0) ↔ t = u := by
  induction t generalizing u with
  | nil => simp [List.eq_nil_of_length_eq_zero hlen.symm]
  | cons a t ih =>
    cases u with
    | nil => simp at hlen
    | cons b u =>
      rw [List.zipWith_cons_cons, List.forall_mem_cons, ih (Nat.succ.inj hlen), List.cons.injEq]
      exact and_congr_left' BitVec.xor_eq_zero_iff

/-- The comparison of two strings of one length is equality (R186). -/
theorem tagEq_iff {t u : Bytes} (hlen : t.length = u.length) : tagEq t u = true ↔ t = u := by
  rw [tagEq, decide_eq_true_iff, foldl_or_eq_zero_iff, forall_zipWith_xor_eq_zero_iff hlen]
  exact and_iff_right rfl

/-! ## The commands on ready operands -/

theorem aeadTag_length (h : UHash) (v : Variant) (ks : List (BitVec v.w)) (nonce aad ct : Bytes) :
    (aeadTag h v ks nonce aad ct).length = 16 := uhash_length _ _ _

/-- Ready data and associated data are both within the length limit (R60). -/
theorem State.StreamReady.operandsTooLong_false {s : State} {v : Variant} (h : s.StreamReady v)
    (haad : s.inp.aad.length ≤ s.cfg.maxlen) : (s.dataTooLong || s.aadTooLong) = false := by
  rw [h.dataTooLong_false, Bool.false_or]
  exact decide_eq_false (Nat.not_lt.mpr haad)

/-- `aead_encrypt` on ready operands ends with `OK`, the stream from the counter after the nonce, and the tag of it (R183). -/
theorem execAeadEncrypt_ok (s : State) (v : Variant) (h : s.StreamReady v) (haad : s.inp.aad.length ≤ s.cfg.maxlen) :
    execAeadEncrypt v.code s = .next (s.ended .ok { OutBufs.empty with
      data := ctrStream v (expand s.cfg v s.inp.key) s.inp.nonce 1 s.inp.data
      tag := aeadTag s.cfg.uhash v (expand s.cfg v s.inp.key) s.inp.nonce s.inp.aad
        (ctrStream v (expand s.cfg v s.inp.key) s.inp.nonce 1 s.inp.data) } s.slots) := by
  have ht := s.cfg.t_bounds h.cfg v
  rcases execAeadEncrypt_cases v.code s with ⟨hlong, -⟩ | ⟨-, st, hst, -⟩ | ⟨-, u, hu, hexec⟩
  · simp [h.operandsTooLong_false haad] at hlong
  · simp [h.streamChecks_ok] at hst
  · obtain rfl : v = u := Except.ok.inj (h.streamChecks_ok.symm.trans hu)
    rw [hexec, s.begin.sealPhases_out v (by rw [State.begin_cfg]; omega) ht.2, State.begin_cfg, State.begin_inp,
      State.begin_out]

/-- The tag `aead_decrypt` computes on ready operands, over the received ciphertext (R184, R190). -/
def State.expectedTag (s : State) (v : Variant) : Bytes :=
  aeadTag s.cfg.uhash v (expand s.cfg v s.inp.key) s.inp.nonce s.inp.aad s.inp.data

/-- `TAGOK` after `COMPARE` says whether a received tag of 16 bytes is the computed one (R186). -/
theorem State.verifyPhases_tagok_iff (s : State) (v : Variant) (hwf : s.cfg.wf = true) (hlen : s.inp.tag.length = 16) :
    (s.begin.verifyPhases v).work.tagok = true ↔ s.inp.tag = s.expectedTag v := by
  have ht := s.cfg.t_bounds hwf v
  obtain ⟨htagok, -⟩ := s.begin.verifyPhases_spec v (by rw [State.begin_cfg]; omega) ht.2
  rw [htagok, State.begin_cfg, State.begin_inp, tagEq_iff ((aeadTag_length ..).trans hlen.symm), eq_comm, State.expectedTag]

/-- Phase `CRYPT` after the verification leaves the plaintext in `OUT.data`: the schedule is still in `TK` (R184, R192). -/
theorem State.cryptPhase_verifyPhases_data (s : State) (v : Variant) (hwf : s.cfg.wf = true) :
    ((s.begin.verifyPhases v).cryptPhase v 1).out.data =
      ctrStream v (expand s.cfg v s.inp.key) s.inp.nonce 1 s.inp.data := by
  have ht := s.cfg.t_bounds hwf v
  obtain ⟨-, hkeys⟩ := s.begin.verifyPhases_spec v (by rw [State.begin_cfg]; omega) ht.2
  obtain ⟨hcfg, -, -, hinp, -⟩ := s.begin.verifyPhases_frame v
  obtain ⟨hout, -⟩ := (s.begin.verifyPhases v).cryptPhase_spec v 1 (by rw [hcfg]; exact ht.2)
  rw [State.begin_cfg, State.begin_inp] at hkeys
  rw [hout, hcfg, hinp, State.begin_cfg, State.begin_inp, hkeys]

/-- `aead_decrypt` on ready operands has two ends: `OK` and the plaintext when the received tag is the computed one,
`AUTHENTICATION_FAILED` and no output otherwise (R184, R185, R187). -/
theorem execAeadDecrypt_ready_cases (s : State) (v : Variant) (h : s.StreamReady v)
    (haad : s.inp.aad.length ≤ s.cfg.maxlen) :
    (s.inp.tag = s.expectedTag v ∧ execAeadDecrypt v.code s = .next (s.ended .ok { OutBufs.empty with
      data := ctrStream v (expand s.cfg v s.inp.key) s.inp.nonce 1 s.inp.data } s.slots)) ∨
    (s.inp.tag ≠ s.expectedTag v ∧
      execAeadDecrypt v.code s = .next (s.ended .authenticationFailed OutBufs.empty s.slots)) := by
  have hvar : ∀ {u}, streamChecks v.code s.inp = .ok u → v = u := fun hu =>
    Except.ok.inj (h.streamChecks_ok.symm.trans hu)
  rcases execAeadDecrypt_cases v.code s with
    ⟨hlong, -⟩ | ⟨-, st, hst, -⟩ | ⟨-, u, -, hlen, hexec⟩ | ⟨-, u, hu, hlen, hbad, hexec⟩ | ⟨-, u, hu, hlen, hok, hexec⟩
  · simp [h.operandsTooLong_false haad] at hlong
  · simp [h.streamChecks_ok] at hst
  · exact .inr ⟨fun htag => hlen (htag ▸ aeadTag_length ..), hexec⟩
  · obtain rfl := hvar hu
    refine .inr ⟨fun htag => ?_, hexec⟩
    exact Bool.false_ne_true (hbad.symm.trans ((s.verifyPhases_tagok_iff v h.cfg hlen).mpr htag))
  · obtain rfl := hvar hu
    rw [s.cryptPhase_verifyPhases_data v h.cfg] at hexec
    exact .inl ⟨(s.verifyPhases_tagok_iff v h.cfg hlen).mp hok, hexec⟩

/-! ## The statements -/

/-- Settles O39: `execAeadEncrypt_ok`; `State.ended` names every field a command can change. -/
theorem aeadEncryptResult : Obligations.AeadEncryptResult := by
  unfold Obligations.AeadEncryptResult
  intro s v h haad
  exact execAeadEncrypt_ok s v h haad

/-- Settles O40: the end of `execAeadDecrypt_ready_cases` with the computed tag. -/
theorem aeadDecryptResult : Obligations.AeadDecryptResult := by
  unfold Obligations.AeadDecryptResult
  intro s v h haad ks htag
  rcases execAeadDecrypt_ready_cases s v h haad with ⟨-, hexec⟩ | ⟨hne, -⟩
  · exact hexec
  · exact absurd htag hne

/-- Settles O41: the end of `execAeadDecrypt_ready_cases` with any other tag, whatever its length. -/
theorem wrongTagRejected : Obligations.WrongTagRejected := by
  unfold Obligations.WrongTagRejected
  intro s v h haad htag
  rcases execAeadDecrypt_ready_cases s v h haad with ⟨heq, -⟩ | ⟨-, hexec⟩
  · exact absurd heq htag
  · exact hexec

end Sys2Proof.Machine
end

