-- ==== Sys2Proof/Proofs/AeadStreams.lean ====
section
/-! SUPPORT. The two streams of an AEAD command as runs of `ctr_crypt` (spec 45_aead.md R181, R182): the data from the counter
block after the nonce, and the MAC subkey from 32 zero bytes at the nonce. -/

namespace Sys2Proof.Machine

/-! ## Where a stream starts -/

/-- Counting on from a counter block is counting on from the nonce: the wraps add up (R142). -/
theorem ctrBlock_ctrBlock (v : Variant) (nonce : Bytes) (i j : Nat) :
    ctrBlock v (ctrBlock v nonce i) j = ctrBlock v nonce (i + j) := by
  rw [ctrBlock, be_ctrBlock, Nat.mod_add_mod, Nat.add_assoc, ctrBlock]

/-- A stream with a start offset is the stream from the counter block at that offset (R144). -/
theorem ctrStream_ctrBlock (v : Variant) (ks : List (BitVec v.w)) (nonce : Bytes) (t : Nat) (d : Bytes) :
    ctrStream v ks (ctrBlock v nonce t) 0 d = ctrStream v ks nonce t d := by
  simp only [ctrStream, keystreamBlock, ctrBlock_ctrBlock, Nat.zero_add]

/-! ## The stream of zero bytes -/

/-- Zero bytes leave the keystream block they are XORed with (R145). -/
theorem xorBytes_zeros_loadReg {n : Nat} {s : Bytes} (hs : s.length ≤ n) :
    xorBytes (zeros s.length) (loadReg n s).toList = s := by
  apply List.ext_getElem
  · simp [xorBytes_length, hs]
  · intro i _ hi
    simp [xorBytes, zeros, loadReg, hi]

/-- The stream of whole blocks of zero bytes is the keystream itself, block after block (R144, R151). -/
theorem ctrStream_zeros (v : Variant) (ks : List (BitVec v.w)) (nonce : Bytes) (t n : Nat) :
    ctrStream v ks nonce t (zeros (n * v.blockBytes)) =
      ((List.range n).map fun j => encrypt v ks (ctrBlock v nonce (t + j))).flatten := by
  induction n generalizing t with
  | zero => simp [ctrStream, zeros]
  | succ n ih =>
    have hfirst : (zeros ((n + 1) * v.blockBytes)).take v.blockBytes = zeros v.blockBytes := by
      rw [zeros, List.take_replicate, Nat.min_eq_left (Nat.le_mul_of_pos_left _ n.succ_pos), zeros]
    have hrest : (zeros ((n + 1) * v.blockBytes)).drop v.blockBytes = zeros (n * v.blockBytes) := by
      rw [zeros, List.drop_replicate, Nat.succ_mul, Nat.add_sub_cancel, zeros]
    have hlen := encrypt_length v ks (ctrBlock v nonce t)
    have hxor := xorBytes_zeros_loadReg (hlen.trans_le v.blockBytes_le)
    rw [hlen] at hxor
    rw [← streamFrom_eq_ctrStream, streamFrom_split, hfirst, hrest, hxor, streamFrom_eq_ctrStream, ih,
      List.range_succ_eq_map, List.map_cons, List.flatten_cons, List.map_map]
    simp only [Function.comp_def, Nat.add_zero, Nat.succ_eq_add_one, Nat.add_assoc, Nat.add_comm 1]

/-- The 32 bytes of the MAC subkey are whole blocks of every stream-capable variant (R140, R181). -/
theorem subkey_whole_blocks (v : Variant) (h : v.streamCapable = true) : 32 / v.blockBytes * v.blockBytes = 32 := by
  revert h
  cases v <;> decide

/-- The MAC subkey is the first `32 / B` keystream blocks at the nonce (R181). -/
theorem macSubkey_eq_keystream (v : Variant) (ks : List (BitVec v.w)) (nonce : Bytes) (h : v.streamCapable = true) :
    macSubkey v ks nonce =
      ((List.range (32 / v.blockBytes)).map fun j => encrypt v ks (ctrBlock v nonce j)).flatten := by
  have hzeros := ctrStream_zeros v ks nonce 0 (32 / v.blockBytes)
  simp only [subkey_whole_blocks v h, Nat.zero_add] at hzeros
  exact hzeros

/-! ## The statements -/

/-- Ready operands are ready with the nonce moved on to a later counter block (R141, R142). -/
theorem State.StreamReady.with_ctrBlock {s : State} {v : Variant} (h : s.StreamReady v) (j : Nat) :
    ({ s with inp := { s.inp with nonce := ctrBlock v s.inp.nonce j } } : State).StreamReady v :=
  ⟨h.cfg, h.capable, h.key, beBytes_length _ _, h.data⟩

/-- Ready operands are ready with other data within the limit (R60). -/
theorem State.StreamReady.with_data {s : State} {v : Variant} (h : s.StreamReady v) {d : Bytes}
    (hd : d.length ≤ s.cfg.maxlen) : ({ s with inp := { s.inp with data := d } } : State).StreamReady v :=
  ⟨h.cfg, h.capable, h.key, h.nonce, hd⟩

/-- Settles O43: the data stream of `execAeadEncrypt_ok`, its bytes by `ctrStream_getD`, and the same stream from
`ctr_crypt` by `ctrStream_ctrBlock`. -/
theorem aeadDataIsCtrFromNextCounter : Obligations.AeadDataIsCtrFromNextCounter := by
  unfold Obligations.AeadDataIsCtrFromNextCounter
  intro s v h haad
  refine ⟨_, _, execAeadEncrypt_ok s v h haad, rfl, ctrStream_length .., fun p hp => ?_,
    execCtrCrypt_ok _ v (h.with_ctrBlock 1), ctrStream_ctrBlock ..⟩
  rw [Nat.add_assoc]
  exact ctrStream_getD v _ _ 1 _ p hp

/-- Settles O44: `ctr_crypt` of 32 zero bytes returns `macSubkey`, whose blocks are those of `macSubkey_eq_keystream`. -/
theorem subkeyIsFirstKeystream : Obligations.SubkeyIsFirstKeystream := by
  unfold Obligations.SubkeyIsFirstKeystream
  intro s v h haad hmax
  have hzeros : (zeros 32).length ≤ s.cfg.maxlen := (zeros_length 32).trans_le hmax
  refine ⟨_, _, execAeadEncrypt_ok s v h haad, execCtrCrypt_ok _ v (h.with_data hzeros), ?_⟩
  simp only [State.ended]
  rw [← macSubkey]
  exact ⟨rfl, macSubkey_eq_keystream v _ _ h.capable, (ctrStream_length ..).trans (zeros_length 32)⟩

end Sys2Proof.Machine
end

