-- ==== Sys2Proof/Proofs/FailureOrder.lean ====
section
/-! SUPPORT. The status each command ends with is that of the first failing condition of spec 60_exceptions.md R211 in the
order of R216: the conditions in terms of the tests the commands make, and each command's outcomes against its conditions. -/

namespace Sys2Proof.Machine

/-! ## The first failing condition -/

@[simp] theorem firstFailure_nil : firstFailure [] = .ok := rfl

@[simp] theorem firstFailure_cons_true (st : Status) (l : List (Status × Bool)) : firstFailure ((st, true) :: l) = st := rfl

@[simp] theorem firstFailure_cons_false (st : Status) (l : List (Status × Bool)) :
    firstFailure ((st, false) :: l) = firstFailure l := rfl

/-! ## The conditions on a variant code -/

theorem keySizeWrong_eq {var : BitVec 4} {v : Variant} (h : Variant.ofCode var = some v) (inp : InBufs) :
    keySizeWrong var inp = decide (inp.key.length ≠ v.keyBytes) := by
  simp only [keySizeWrong, h]

theorem nonceSizeWrong_eq {var : BitVec 4} {v : Variant} (h : Variant.ofCode var = some v) (inp : InBufs) :
    nonceSizeWrong var inp = decide (inp.nonce.length ≠ v.blockBytes) := by
  simp only [nonceSizeWrong, h]

theorem tagMismatch_eq {var : BitVec 4} {v : Variant} (h : Variant.ofCode var = some v) (s : State) :
    tagMismatch var s = decide (s.inp.tag ≠ s.expectedTag v) := by
  simp only [tagMismatch, h]
  rfl

/-- A code that names a variant is not above 9 (R73, R95). -/
theorem Variant.ofCode_some_not_lt {var : BitVec 4} {v : Variant} (h : Variant.ofCode var = some v) : ¬ 9 < var.toNat := by
  rw [← Variant.ofCode_eq_none_iff, h]
  exact Option.some_ne_none v

/-- The variant a code names to the stream unit is the variant it names (R95, R140). -/
theorem Variant.ofCode_of_ofStreamCode {var : BitVec 4} {v : Variant} (h : Variant.ofStreamCode var = some v) :
    Variant.ofCode var = some v := by
  cases hc : Variant.ofCode var with
  | none => simp [Variant.ofStreamCode, hc] at h
  | some u =>
    simp only [Variant.ofStreamCode, hc, Option.ite_none_right_eq_some] at h
    exact h.2

/-- The stream unit knows exactly the codes of the stream set (R140). -/
theorem notStreamCode_eq_isNone (var : BitVec 4) : notStreamCode var = (Variant.ofStreamCode var).isNone := by
  revert var
  decide

/-! ## The checks the stream commands share -/

/-- Every outcome of `StreamChecks`, in the order of its tests (R141). -/
theorem streamChecks_cases (var : BitVec 4) (inp : InBufs) :
    (Variant.ofStreamCode var = none ∧ streamChecks var inp = .error .unknownVariant) ∨
    (∃ v, Variant.ofStreamCode var = some v ∧ inp.key.length ≠ v.keyBytes ∧
      streamChecks var inp = .error .invalidKeySize) ∨
    (∃ v, Variant.ofStreamCode var = some v ∧ inp.key.length = v.keyBytes ∧ inp.nonce.length ≠ v.blockBytes ∧
      streamChecks var inp = .error .invalidNonceSize) ∨
    (∃ v, streamChecks var inp = .ok v) := by
  cases h : Variant.ofStreamCode var with
  | none => exact .inl ⟨rfl, by simp only [streamChecks, h]⟩
  | some v =>
    by_cases hk : inp.key.length = v.keyBytes
    · by_cases hn : inp.nonce.length = v.blockBytes
      · exact .inr (.inr (.inr ⟨v, (streamChecks_ok_iff var inp v).mpr ⟨h, hk, hn⟩⟩))
      · exact .inr (.inr (.inl ⟨v, rfl, hk, hn, by simp [streamChecks, h, hk, hn]⟩))
    · exact .inr (.inl ⟨v, rfl, hk, by simp [streamChecks, h, hk]⟩)

/-- When `StreamChecks` fails, its status is that of the first stream condition that holds, whatever follows (R141, R216). -/
theorem firstFailure_streamConditions_of_error {var : BitVec 4} {s : State} {st : Status}
    (h : streamChecks var s.inp = .error st) (rest : List (Status × Bool)) :
    firstFailure (statusConditions.streamConditions s var ++ rest) = st := by
  rcases streamChecks_cases var s.inp with ⟨hv, e⟩ | ⟨v, hv, hk, e⟩ | ⟨v, hv, hk, hn, e⟩ | ⟨v, e⟩ <;> cases e.symm.trans h
  · simp [statusConditions.streamConditions, notStreamCode_eq_isNone, hv]
  · have hc := Variant.ofCode_of_ofStreamCode hv
    simp [statusConditions.streamConditions, notStreamCode_eq_isNone, hv, keySizeWrong_eq hc, hk]
  · have hc := Variant.ofCode_of_ofStreamCode hv
    simp [statusConditions.streamConditions, notStreamCode_eq_isNone, hv, keySizeWrong_eq hc, hk, nonceSizeWrong_eq hc, hn]

/-- When `StreamChecks` succeeds, no stream condition holds, and those that follow decide (R141, R216). -/
theorem firstFailure_streamConditions_of_ok {var : BitVec 4} {s : State} {v : Variant}
    (h : streamChecks var s.inp = .ok v) (rest : List (Status × Bool)) :
    firstFailure (statusConditions.streamConditions s var ++ rest) = firstFailure rest := by
  obtain ⟨hv, hk, hn⟩ := (streamChecks_ok_iff var s.inp v).mp h
  have hc := Variant.ofCode_of_ofStreamCode hv
  simp [statusConditions.streamConditions, notStreamCode_eq_isNone, hv, keySizeWrong_eq hc, hk, nonceSizeWrong_eq hc, hn]

/-! ## Command by command -/

/-- The outcome is a next state whose `STATUS` is that of the first condition of the list that holds. -/
def ReportsFirst (r : Result) (l : List (Status × Bool)) : Prop :=
  ∃ t, r = .next t ∧ t.status = (firstFailure l).word

/-- A command that ended with the status of the first failing condition reports it. -/
theorem reportsFirst_of_ended {r : Result} {l : List (Status × Bool)} {s : State} {st : Status} {o : OutBufs}
    {slots : List Slot} (h : r = .next (s.ended st o slots)) (hst : firstFailure l = st) : ReportsFirst r l :=
  ⟨_, h, by rw [hst]; rfl⟩

theorem execVariantInfo_reportsFirst (var : BitVec 4) (s : State) :
    ReportsFirst (execVariantInfo var s) (statusConditions (.variantInfo var) s) := by
  rcases execVariantInfo_cases var s with ⟨hc, e⟩ | ⟨v, hc, e⟩ <;> refine reportsFirst_of_ended e ?_
  · simp [statusConditions, (Variant.ofCode_eq_none_iff var).mp hc]
  · simp [statusConditions, Variant.ofCode_some_not_lt hc]

theorem execSchedule_reportsFirst (var slot : BitVec 4) (s : State) :
    ReportsFirst (execSchedule var slot s) (statusConditions (.schedule var slot) s) := by
  rcases execSchedule_cases var slot s with
    ⟨hs, e⟩ | ⟨hs, hc, e⟩ | ⟨v, hs, hc, hk, e⟩ | ⟨v, hs, hc, hk, e⟩ <;> refine reportsFirst_of_ended e ?_
  · simp [statusConditions, hs]
  · simp [statusConditions, Nat.not_le.mpr hs, (Variant.ofCode_eq_none_iff var).mp hc]
  · simp [statusConditions, Nat.not_le.mpr hs, Variant.ofCode_some_not_lt hc, keySizeWrong_eq hc, hk]
  · simp [statusConditions, Nat.not_le.mpr hs, Variant.ofCode_some_not_lt hc, keySizeWrong_eq hc, hk]

theorem execRelease_reportsFirst (slot : BitVec 4) (s : State) :
    ReportsFirst (execRelease slot s) (statusConditions (.release slot) s) := by
  rcases execRelease_cases slot s with ⟨hs, e⟩ | ⟨hs, e⟩ <;> refine reportsFirst_of_ended e ?_
  · simp [statusConditions, hs]
  · simp [statusConditions, Nat.not_le.mpr hs]

/-- Both block commands make the checks of R124 in the order of R216. -/
theorem blockCommand_reportsFirst (slot : BitVec 4) (run : Config → Variant → RoundKeys → Work → Work) (s : State) :
    ReportsFirst (blockCommand slot run s) (statusConditions.blockConditions s slot) := by
  have hexists : ∀ {sl}, s.slots[slot.toNat]? = some sl → ¬ s.nslot ≤ slot.toNat := fun hsl hle =>
    Option.some_ne_none _ (hsl.symm.trans (List.getElem?_eq_none hle))
  rcases blockCommand_ends slot run s with
    ⟨hsl, e⟩ | ⟨sl, hsl, hv, e⟩ | ⟨sl, hsl, hv, hb, e⟩ | ⟨sl, hsl, hv, hb, e⟩ <;> refine reportsFirst_of_ended e ?_
  · have hle : s.nslot ≤ slot.toNat := List.getElem?_eq_none_iff.mp hsl
    simp [statusConditions.blockConditions, hle]
  · simp [statusConditions.blockConditions, hexists hsl, hsl, hv]
  · simp [statusConditions.blockConditions, hexists hsl, hsl, hv, hb]
  · simp [statusConditions.blockConditions, hexists hsl, hsl, hv, hb]

theorem execCtrCrypt_reportsFirst (var : BitVec 4) (s : State) (hlen : s.dataTooLong = false) :
    ReportsFirst (execCtrCrypt var s) (statusConditions (.ctrCrypt var) s) := by
  rcases execCtrCrypt_cases var s with ⟨hlong, -⟩ | ⟨-, st, hst, e⟩ | ⟨-, v, hv, e⟩
  · simp [hlen] at hlong
  · exact reportsFirst_of_ended e (firstFailure_streamConditions_of_error hst [])
  · exact reportsFirst_of_ended e (firstFailure_streamConditions_of_ok hv [])

theorem execAeadEncrypt_reportsFirst (var : BitVec 4) (s : State) (hlen : (s.dataTooLong || s.aadTooLong) = false) :
    ReportsFirst (execAeadEncrypt var s) (statusConditions (.aeadEncrypt var) s) := by
  rcases execAeadEncrypt_cases var s with ⟨hlong, -⟩ | ⟨-, st, hst, e⟩ | ⟨-, v, hv, e⟩
  · simp [hlen] at hlong
  · exact reportsFirst_of_ended e (firstFailure_streamConditions_of_error hst [])
  · exact reportsFirst_of_ended e (firstFailure_streamConditions_of_ok hv [])

/-- After the stream checks come the tag's length (R185) and the tag itself, which `TAGOK` tells (R186). -/
theorem execAeadDecrypt_reportsFirst (var : BitVec 4) (s : State) (hwf : s.cfg.wf = true)
    (hlen : (s.dataTooLong || s.aadTooLong) = false) :
    ReportsFirst (execAeadDecrypt var s) (statusConditions (.aeadDecrypt var) s) := by
  have hmismatch : ∀ {v}, streamChecks var s.inp = .ok v →
      tagMismatch var s = decide (s.inp.tag ≠ s.expectedTag v) := fun hv =>
    tagMismatch_eq (Variant.ofCode_of_ofStreamCode ((streamChecks_ok_iff var s.inp _).mp hv).1) s
  rcases execAeadDecrypt_cases var s with
    ⟨hlong, -⟩ | ⟨-, st, hst, e⟩ | ⟨-, v, hv, htag, e⟩ | ⟨-, v, hv, htag, hbad, e⟩ | ⟨-, v, hv, htag, hok, e⟩
  · simp [hlen] at hlong
  · exact reportsFirst_of_ended e (firstFailure_streamConditions_of_error hst _)
  all_goals refine reportsFirst_of_ended e ((firstFailure_streamConditions_of_ok hv _).trans ?_)
  · simp [htag]
  · have hne : s.inp.tag ≠ s.expectedTag v := fun heq =>
      Bool.false_ne_true (hbad.symm.trans ((s.verifyPhases_tagok_iff v hwf htag).mpr heq))
    simp [htag, hmismatch hv, hne]
  · have heq := (s.verifyPhases_tagok_iff v hwf htag).mp hok
    simp [htag, hmismatch hv, ← heq]

/-! ## The statement -/

/-- Settles O47: each command's outcomes against its own conditions; the length limits exclude the refusals, and only
`aead_decrypt` uses the ranges of the parameters, through the tag it recomputes. -/
theorem firstFailureIsReported : Obligations.FirstFailureIsReported := by
  unfold Obligations.FirstFailureIsReported
  intro i s hwf hlen
  cases i with
  | variantInfo var => exact execVariantInfo_reportsFirst var s
  | schedule var slot => exact execSchedule_reportsFirst var slot s
  | release slot => exact execRelease_reportsFirst slot s
  | encryptBlock slot => exact blockCommand_reportsFirst slot encryptXY s
  | decryptBlock slot => exact blockCommand_reportsFirst slot decryptXY s
  | ctrCrypt var => exact execCtrCrypt_reportsFirst var s (by simpa [withinMaxlen] using hlen)
  | aeadEncrypt var => exact execAeadEncrypt_reportsFirst var s (by simpa [withinMaxlen] using hlen)
  | aeadDecrypt var => exact execAeadDecrypt_reportsFirst var s hwf (by simpa [withinMaxlen] using hlen)

end Sys2Proof.Machine
end

