-- ==== Sys2Proof/Proofs/CommandWords.lean ====
section
/-! SUPPORT. The command words of spec 30_encoding.md: decoding as the inverse of encoding (R71, R72, R77), the rows of the
opcode table (R77), the words as sums of fields and their number (R82), and the illegal words (R76, R217). -/

namespace Sys2Proof

open Laws.WordFields (opCode)

/-! ## A command as its fields -/

/-- The `VAR` field of a command's word, 0 when the command does not use it (R71, R76). -/
def Instr.varBits : Instr → BitVec 4
  | .variantInfo var => var
  | .schedule var _ => var
  | .release _ => 0
  | .encryptBlock _ => 0
  | .decryptBlock _ => 0
  | .ctrCrypt var => var
  | .aeadEncrypt var => var
  | .aeadDecrypt var => var

/-- The `SLOT` field of a command's word, 0 when the command does not use it (R71, R76). -/
def Instr.slotBits : Instr → BitVec 4
  | .variantInfo _ => 0
  | .schedule _ slot => slot
  | .release slot => slot
  | .encryptBlock slot => slot
  | .decryptBlock slot => slot
  | .ctrCrypt _ => 0
  | .aeadEncrypt _ => 0
  | .aeadDecrypt _ => 0

/-- The word carries exactly the fields of the command, zeros in the fields it does not use (R71, R72, R76). -/
structure HasFields (c : CmdWord) (i : Instr) : Prop where
  zero : zeroOf c = 0
  op : (opOf c).toNat = opCode i
  var : varOf c = i.varBits
  slot : slotOf c = i.slotBits

theorem encode_eq_formatC (i : Instr) : encode i = formatC i.slotBits i.varBits (BitVec.ofNat 4 (opCode i)) := by
  cases i <;> rfl

theorem toNat_ofNat_opCode (i : Instr) : (BitVec.ofNat 4 (opCode i)).toNat = opCode i := by
  cases i <;> rfl

theorem HasFields.op_eq {c : CmdWord} {i : Instr} (h : HasFields c i) : opOf c = BitVec.ofNat 4 (opCode i) :=
  BitVec.eq_of_toNat_eq (h.op.trans (toNat_ofNat_opCode i).symm)

/-- A command's word is the one word with its fields. -/
theorem encode_eq_iff (c : CmdWord) (i : Instr) : encode i = c ↔ HasFields c i := by
  rw [encode_eq_formatC]
  constructor
  · rintro rfl
    exact ⟨zeroOf_formatC .., by rw [opOf_formatC, toNat_ofNat_opCode], varOf_formatC .., slotOf_formatC ..⟩
  · intro h
    rw [← h.var, ← h.slot, ← h.op_eq, formatC_fields c h.zero]

/-! ## The decoder -/

theorem decodeVarOnly_eq_ok {mk : BitVec 4 → Instr} {c : CmdWord} {i : Instr} :
    decodeVarOnly mk c = .ok i ↔ slotOf c = 0 ∧ mk (varOf c) = i := by
  by_cases h : slotOf c = 0
  · simp only [decodeVarOnly, h, if_true, Except.ok.injEq, true_and]
  · simp only [decodeVarOnly, h, if_false, reduceCtorEq, false_and]

theorem decodeSlotOnly_eq_ok {mk : BitVec 4 → Instr} {c : CmdWord} {i : Instr} :
    decodeSlotOnly mk c = .ok i ↔ varOf c = 0 ∧ mk (slotOf c) = i := by
  by_cases h : varOf c = 0
  · simp only [decodeSlotOnly, h, if_true, Except.ok.injEq, true_and]
  · simp only [decodeSlotOnly, h, if_false, reduceCtorEq, false_and]

/-- What the decoder answers has the fields of the word: one case for each code of `OP`, none for the codes from 8 on. -/
theorem hasFields_of_decode {c : CmdWord} {i : Instr} (h : decode c = .ok i) : HasFields c i := by
  by_cases hzero : zeroOf c = 0
  · simp only [decode, hzero, ne_eq, not_true_eq_false, if_false] at h
    split at h
    case h_2 hop => cases h; exact ⟨hzero, hop, rfl, rfl⟩
    case h_9 => cases h
    case h_1 hop | h_6 hop | h_7 hop | h_8 hop =>
      obtain ⟨hslot, rfl⟩ := decodeVarOnly_eq_ok.mp h
      exact ⟨hzero, hop, rfl, hslot⟩
    case h_3 hop | h_4 hop | h_5 hop =>
      obtain ⟨hvar, rfl⟩ := decodeSlotOnly_eq_ok.mp h
      exact ⟨hzero, hop, hvar, rfl⟩
  · simp only [decode, hzero, ne_eq, not_false_eq_true, if_true, reduceCtorEq] at h

/-- A word with the fields of a command decodes to it. -/
theorem decode_of_hasFields {c : CmdWord} {i : Instr} (h : HasFields c i) : decode c = .ok i := by
  obtain ⟨hzero, hop, hvar, hslot⟩ := h
  cases i with
  | variantInfo | ctrCrypt | aeadEncrypt | aeadDecrypt =>
    simp only [opCode, Instr.varBits, Instr.slotBits] at hop hvar hslot
    simp [decode, decodeVarOnly, hzero, hop, hvar, hslot]
  | schedule =>
    simp only [opCode, Instr.varBits, Instr.slotBits] at hop hvar hslot
    simp [decode, hzero, hop, hvar, hslot]
  | release | encryptBlock | decryptBlock =>
    simp only [opCode, Instr.varBits, Instr.slotBits] at hop hvar hslot
    simp [decode, decodeSlotOnly, hzero, hop, hvar, hslot]

/-- The decoder answers a command exactly on the word with its fields (R76, R77). -/
theorem decode_eq_ok_iff (c : CmdWord) (i : Instr) : decode c = .ok i ↔ HasFields c i :=
  ⟨hasFields_of_decode, decode_of_hasFields⟩

/-- Settles O1: both sides say that the word has the fields of the command. -/
theorem decodeExactlyInvertsEncode : Obligations.DecodeExactlyInvertsEncode := by
  unfold Obligations.DecodeExactlyInvertsEncode
  intro c i
  exact (decode_eq_ok_iff c i).trans (encode_eq_iff c i).symm

@[simp] theorem decode_encode (i : Instr) : decode (encode i) = .ok i :=
  (decodeExactlyInvertsEncode (encode i) i).mpr rfl

/-! ## A word as the sum of its fields -/

/-- The value of a word, field by field (R71). -/
theorem toNat_eq_fields (c : CmdWord) :
    c.toNat = (opOf c).toNat + 16 * (varOf c).toNat + 256 * (slotOf c).toNat + 4096 * (zeroOf c).toNat := by
  have hc := c.isLt
  simp only [opOf, varOf, slotOf, zeroOf, BitVec.extractLsb'_toNat, Nat.shiftRight_eq_div_pow]
  omega

/-- The value of a command's word: the `ZERO` field adds nothing (R82). -/
theorem toNat_encode (i : Instr) : (encode i).toNat = opCode i + 16 * i.varBits.toNat + 256 * i.slotBits.toNat := by
  obtain ⟨hzero, hop, hvar, hslot⟩ := (encode_eq_iff (encode i) i).mp rfl
  rw [toNat_eq_fields, hzero, hop, hvar, hslot]
  rfl

/-- A command word is below `0x1000` (R82). -/
theorem toNat_encode_lt (i : Instr) : (encode i).toNat < 0x1000 := by
  have hop := (BitVec.ofNat 4 (opCode i)).isLt
  have hvar := i.varBits.isLt
  have hslot := i.slotBits.isLt
  rw [toNat_ofNat_opCode] at hop
  rw [toNat_encode]
  omega

/-- The legal words are the words of the commands that name an existing slot (R76). -/
theorem legalWord_iff (n : Nat) (c : CmdWord) : legalWord n c = true ↔ ∃ i, encode i = c ∧ i.wf n = true := by
  simp only [← decodeExactlyInvertsEncode c]
  cases h : decode c with
  | error e => simp [legalWord, h]
  | ok i => simp [legalWord, h]

/-- The commands of a core with one slot: each value of a `VAR` field the command uses, and slot 0 (R82). -/
def oneSlotCommands : List Instr :=
  ((List.range 16).map (BitVec.ofNat 4)).flatMap (fun var =>
    [.variantInfo var, .schedule var 0, .ctrCrypt var, .aeadEncrypt var, .aeadDecrypt var]) ++
  [.release 0, .encryptBlock 0, .decryptBlock 0]

theorem mem_nibbles (b : BitVec 4) : b ∈ (List.range 16).map (BitVec.ofNat 4) := by
  revert b
  decide

theorem mem_oneSlotCommands_iff (i : Instr) : i ∈ oneSlotCommands ↔ i.wf 1 = true := by
  have hslot : ∀ slot : BitVec 4, slot = 0#4 ↔ slot.toNat = 0 := by decide
  simp only [oneSlotCommands, List.mem_append, List.mem_flatMap, List.mem_cons, List.not_mem_nil, or_false]
  cases i <;> simp [Instr.wf, Instr.slotField, mem_nibbles, hslot]

theorem oneSlotCommands_words_nodup : (oneSlotCommands.map fun i => (encode i).toNat).Nodup := by decide

/-- The words below `0x1000` that are legal with one slot are the words of those commands. -/
theorem filter_legalWord_perm :
    ((List.range 0x1000).filter fun k => legalWord 1 (BitVec.ofNat 32 k)).Perm
      (oneSlotCommands.map fun i => (encode i).toNat) := by
  refine (List.perm_ext_iff_of_nodup (List.nodup_range.filter _) oneSlotCommands_words_nodup).mpr fun k => ?_
  simp only [List.mem_filter, List.mem_range, legalWord_iff, List.mem_map, mem_oneSlotCommands_iff]
  constructor
  · intro ⟨hk, i, hi, hwf⟩
    refine ⟨i, hwf, ?_⟩
    rw [hi, BitVec.toNat_ofNat, Nat.mod_eq_of_lt (by omega)]
  · rintro ⟨i, hwf, rfl⟩
    exact ⟨toNat_encode_lt i, i, by rw [BitVec.ofNat_toNat, BitVec.setWidth_eq], hwf⟩

/-- Settles O3: `toNat_encode` for each command, the bound from it, and the legal words counted as the words of
`oneSlotCommands`. -/
theorem wordsAreFieldSums : Obligations.WordsAreFieldSums := by
  unfold Obligations.WordsAreFieldSums
  refine ⟨fun var slot => ?_, fun n c hc => ?_, ?_⟩
  · simp [toNat_encode, opCode, Instr.varBits, Instr.slotBits]
  · obtain ⟨i, rfl, -⟩ := (legalWord_iff n c).mp hc
    exact toNat_encode_lt i
  · rw [filter_legalWord_perm.length_eq, List.length_map]
    rfl

/-! ## The opcode table -/

/-- Two words with the same four fields are equal. -/
theorem word_eq_iff (c d : CmdWord) :
    c = d ↔ zeroOf c = zeroOf d ∧ slotOf c = slotOf d ∧ varOf c = varOf d ∧ opOf c = opOf d := by
  constructor
  · rintro rfl
    exact ⟨rfl, rfl, rfl, rfl⟩
  · intro ⟨hzero, hslot, hvar, hop⟩
    apply BitVec.eq_of_toNat_eq
    rw [toNat_eq_fields c, toNat_eq_fields d, hzero, hslot, hvar, hop]

/-- A row selects a word field by field (R77). -/
theorem OpRow.selects_iff (r : OpRow) (c : CmdWord) :
    r.selects c = true ↔
      zeroOf c &&& zeroOf r.mask = zeroOf r.pattern ∧ slotOf c &&& slotOf r.mask = slotOf r.pattern ∧
      varOf c &&& varOf r.mask = varOf r.pattern ∧ opOf c &&& opOf r.mask = opOf r.pattern := by
  simp only [OpRow.selects, decide_eq_true_iff, word_eq_iff (c &&& r.mask), zeroOf, slotOf, varOf, opOf,
    BitVec.extractLsb'_and]

/-- The row of a command (R72). -/
def Instr.row : Instr → OpRow
  | .variantInfo _ => ⟨"variant_info", 0x00000000, 0xFFFFFF0F⟩
  | .schedule _ _ => ⟨"schedule", 0x00000001, 0xFFFFF00F⟩
  | .release _ => ⟨"release", 0x00000002, 0xFFFFF0FF⟩
  | .encryptBlock _ => ⟨"encrypt_block", 0x00000003, 0xFFFFF0FF⟩
  | .decryptBlock _ => ⟨"decrypt_block", 0x00000004, 0xFFFFF0FF⟩
  | .ctrCrypt _ => ⟨"ctr_crypt", 0x00000005, 0xFFFFFF0F⟩
  | .aeadEncrypt _ => ⟨"aead_encrypt", 0x00000006, 0xFFFFFF0F⟩
  | .aeadDecrypt _ => ⟨"aead_decrypt", 0x00000007, 0xFFFFFF0F⟩

theorem Instr.row_mem (i : Instr) : i.row ∈ opcodeTable := by
  cases i <;> simp [Instr.row, opcodeTable]

theorem Instr.row_mnemonic (i : Instr) : i.row.mnemonic = i.mnemonic := by cases i <;> rfl

theorem opcodeTable_mnemonics_nodup : (opcodeTable.map OpRow.mnemonic).Nodup := by decide

/-- The mnemonic names the row: no two rows share one. -/
theorem eq_row_of_mnemonic_eq {r : OpRow} (hr : r ∈ opcodeTable) {i : Instr} (h : i.mnemonic = r.mnemonic) : r = i.row :=
  List.inj_on_of_nodup_map opcodeTable_mnemonics_nodup hr i.row_mem (h.symm.trans i.row_mnemonic.symm)

theorem and_ones_field (b : BitVec 4) : b &&& 15#4 = b := BitVec.and_allOnes

theorem and_ones_zeroField (b : BitVec 20) : b &&& 1048575#20 = b := BitVec.and_allOnes

/-- The row of a command selects its word: `ZERO` and the fields it does not use are 0, `OP` is its code (R77). -/
theorem row_selects_of_hasFields {c : CmdWord} {i : Instr} (h : HasFields c i) : i.row.selects c = true := by
  have hcode := h.op_eq
  obtain ⟨hzero, -, hvar, hslot⟩ := h
  cases i
  all_goals
    simp only [Instr.row, OpRow.selects_iff, zeroOf, slotOf, varOf, opOf, BitVec.reduceExtractLsb', and_ones_field,
      and_ones_zeroField, BitVec.and_zero, true_and]
  case schedule => exact ⟨hzero, hcode⟩
  case variantInfo | ctrCrypt | aeadEncrypt | aeadDecrypt => exact ⟨hzero, hslot, hcode⟩
  case release | encryptBlock | decryptBlock => exact ⟨hzero, hvar, hcode⟩

/-- A word a row selects has the fields of a command of that row: the fields the mask leaves open are its operands (R77). -/
theorem hasFields_of_selects {r : OpRow} (hr : r ∈ opcodeTable) {c : CmdWord} (h : r.selects c = true) :
    ∃ i, HasFields c i ∧ i.mnemonic = r.mnemonic := by
  simp only [opcodeTable, List.mem_cons, List.not_mem_nil, or_false] at hr
  rcases hr with rfl | rfl | rfl | rfl | rfl | rfl | rfl | rfl
  all_goals
    simp only [OpRow.selects_iff, zeroOf, slotOf, varOf, opOf, BitVec.reduceExtractLsb', and_ones_field,
      and_ones_zeroField, BitVec.and_zero, true_and] at h
  · obtain ⟨hzero, hslot, hop⟩ := h
    exact ⟨.variantInfo (varOf c), ⟨hzero, congrArg BitVec.toNat hop, rfl, hslot⟩, rfl⟩
  · obtain ⟨hzero, hop⟩ := h
    exact ⟨.schedule (varOf c) (slotOf c), ⟨hzero, congrArg BitVec.toNat hop, rfl, rfl⟩, rfl⟩
  · obtain ⟨hzero, hvar, hop⟩ := h
    exact ⟨.release (slotOf c), ⟨hzero, congrArg BitVec.toNat hop, hvar, rfl⟩, rfl⟩
  · obtain ⟨hzero, hvar, hop⟩ := h
    exact ⟨.encryptBlock (slotOf c), ⟨hzero, congrArg BitVec.toNat hop, hvar, rfl⟩, rfl⟩
  · obtain ⟨hzero, hvar, hop⟩ := h
    exact ⟨.decryptBlock (slotOf c), ⟨hzero, congrArg BitVec.toNat hop, hvar, rfl⟩, rfl⟩
  · obtain ⟨hzero, hslot, hop⟩ := h
    exact ⟨.ctrCrypt (varOf c), ⟨hzero, congrArg BitVec.toNat hop, rfl, hslot⟩, rfl⟩
  · obtain ⟨hzero, hslot, hop⟩ := h
    exact ⟨.aeadEncrypt (varOf c), ⟨hzero, congrArg BitVec.toNat hop, rfl, hslot⟩, rfl⟩
  · obtain ⟨hzero, hslot, hop⟩ := h
    exact ⟨.aeadDecrypt (varOf c), ⟨hzero, congrArg BitVec.toNat hop, rfl, hslot⟩, rfl⟩

/-- A row selects a word exactly when the word decodes to a command of the row (R77). -/
theorem selects_iff_decode {r : OpRow} (hr : r ∈ opcodeTable) (c : CmdWord) :
    r.selects c = true ↔ ∃ i, decode c = .ok i ∧ i.mnemonic = r.mnemonic := by
  simp only [decode_eq_ok_iff]
  refine ⟨hasFields_of_selects hr, fun ⟨i, hi, hname⟩ => ?_⟩
  rw [eq_row_of_mnemonic_eq hr hname]
  exact row_selects_of_hasFields hi

/-- A list without repetitions whose members are all equal has at most one. -/
theorem length_le_one_of_nodup {α : Type} {l : List α} (hl : l.Nodup) {a : α} (h : ∀ x ∈ l, x = a) : l.length ≤ 1 := by
  rw [List.eq_replicate_length.mpr h, List.nodup_replicate] at hl
  exact hl

theorem opcodeTable_nodup : opcodeTable.Nodup := opcodeTable_mnemonics_nodup.of_map _

/-- Settles O2: `selects_iff_decode`; every row that selects a word is then the row of the one command it decodes to. -/
theorem tableRowSelectsItsCommands : Obligations.TableRowSelectsItsCommands := by
  unfold Obligations.TableRowSelectsItsCommands
  intro c
  refine ⟨fun r hr => selects_iff_decode hr c, ?_⟩
  cases hc : decode c with
  | error e =>
    have hnone : (opcodeTable.filter fun r => r.selects c) = [] := by
      rw [List.filter_eq_nil_iff]
      intro r hr
      simp [selects_iff_decode hr, hc]
    simp [hnone]
  | ok i =>
    refine length_le_one_of_nodup (opcodeTable_nodup.filter _) (a := i.row) fun r hr => ?_
    obtain ⟨hmem, hsel⟩ := List.mem_filter.mp hr
    obtain ⟨j, hj, hname⟩ := (selects_iff_decode hmem c).mp hsel
    obtain rfl : i = j := Except.ok.inj (hc.symm.trans hj)
    exact eq_row_of_mnemonic_eq hmem hname

end Sys2Proof

namespace Sys2Proof.Machine

open Laws.WordFields (opCode)

/-! ## Words that run a command, and illegal words -/

/-- A pending write of `CMD` issues the word (R27). -/
theorem step_writeCmd {s : State} {c : CmdWord} {rest : List HostReq} (h : s.host = .writeReg 0 c :: rest) :
    step s = issue c { s with host := rest } := step_cons s _ rest h

theorem issue_ok {c : CmdWord} {i : Instr} (h : decode c = .ok i) (s : State) : issue c s = exec i s := by
  simp only [issue, h]

/-- A word that decodes to nothing ends with `ILLEGAL_COMMAND` (R76, R217). -/
theorem issue_error {c : CmdWord} {e : DecodeError} (h : decode c = .error e) (s : State) :
    issue c s = .next (s.ended .illegalCommand OutBufs.empty s.slots) := by
  simp only [issue, h, State.begin_raise]

/-- Settles O6: the step takes the write of `CMD` from the queue and issues its word. -/
theorem stepRunsDecodedCommand : Obligations.StepRunsDecodedCommand := by
  unfold Obligations.StepRunsDecodedCommand
  refine ⟨fun s c i rest hs hc => (step_writeCmd hs).trans (issue_ok hc _), fun s c i hc => ?_⟩
  have hword : BitVec.ofNat 32 (c.toNat % 2 ^ 32) = c := by
    rw [Nat.mod_eq_of_lt c.isLt, BitVec.ofNat_toNat, BitVec.setWidth_eq]
  have hhost := s.withFetchWord_host 32 c.toNat
  rw [hword] at hhost
  exact (step_writeCmd hhost).trans (issue_ok hc _)

/-- A command on a slot that does not exist ends with `ILLEGAL_COMMAND` (R76, R77). -/
theorem exec_noSuchSlot {i : Instr} {slot : BitVec 4} (hi : i.slotField = some slot) {s : State}
    (hs : s.nslot ≤ slot.toNat) : exec i s = .next (s.ended .illegalCommand OutBufs.empty s.slots) := by
  have hblock : ∀ run, blockCommand slot run s = .next (s.ended .illegalCommand OutBufs.empty s.slots) := fun run => by
    simp only [blockCommand, List.getElem?_eq_none hs, State.begin_raise]
  cases i with
  | schedule var slot =>
    cases hi
    simp only [exec, execSchedule, Nat.not_lt.mpr hs, if_false, State.begin_raise]
  | release slot =>
    cases hi
    simp only [exec, execRelease, Nat.not_lt.mpr hs, if_false, State.begin_raise]
  | encryptBlock slot => cases hi; exact hblock encryptXY
  | decryptBlock slot => cases hi; exact hblock decryptXY
  | variantInfo | ctrCrypt | aeadEncrypt | aeadDecrypt => cases hi

/-- A word that decodes to a command is illegal only by naming a slot that does not exist: the decoder has tested the other
conditions of R76. -/
theorem slot_missing_of_illegal {c : CmdWord} {i : Instr} (hc : HasFields c i) {n : Nat}
    (h : zeroOf c ≠ 0 ∨ 8 ≤ (opOf c).toNat ∨ ((opOf c).toNat ∉ [0, 1, 5, 6, 7] ∧ varOf c ≠ 0) ∨
      ((opOf c).toNat ∉ [1, 2, 3, 4] ∧ slotOf c ≠ 0) ∨ ((opOf c).toNat ∈ [1, 2, 3, 4] ∧ n ≤ (slotOf c).toNat)) :
    ∃ slot, i.slotField = some slot ∧ n ≤ slot.toNat := by
  obtain ⟨hzero, hop, hvar, hslot⟩ := hc
  rw [hzero, hop, hvar, hslot] at h
  cases i with
  | variantInfo | ctrCrypt | aeadEncrypt | aeadDecrypt => simp [opCode, Instr.varBits, Instr.slotBits] at h
  | schedule | release | encryptBlock | decryptBlock =>
    simpa [opCode, Instr.varBits, Instr.slotBits, Instr.slotField] using h

/-- Settles O5: a word that decodes to nothing by `issue_error`, one that decodes by `slot_missing_of_illegal` and
`exec_noSuchSlot`. -/
theorem illegalWordsEndIllegal : Obligations.IllegalWordsEndIllegal := by
  unfold Obligations.IllegalWordsEndIllegal
  intro c s rest hs hillegal
  rw [step_writeCmd hs]
  cases hc : decode c with
  | error e => exact issue_error hc _
  | ok i =>
    obtain ⟨slot, hslot, hn⟩ := slot_missing_of_illegal (hasFields_of_decode hc) hillegal
    exact (issue_ok hc _).trans (exec_noSuchSlot hslot hn)

end Sys2Proof.Machine
end

