-- ==== Sys2Proof/Proofs/CommandFrames.lean ====
section
/-! SUPPORT. What any command can do to the state (spec 10_state.md R44, 20_memory.md R52, R60, R61, 60_exceptions.md R214): it is
refused for an over-long operand, fails, or completes with its own outputs and its own slot. -/

namespace Sys2Proof.Machine

/-! ## The two ends of a command -/

/-- The slot `schedule` leaves for variant `v` (R104). -/
def State.scheduledSlot (s : State) (v : Variant) : Slot :=
  { valid := true, var := v, rk := (expandRegs s.cfg v s.inp.key { s.work with phase := .expand }).2 }

/-- The slots a command that ends with `OK` leaves (R24): only `schedule` and `release` change one. -/
def SlotsAfter (i : Instr) (s : State) (slots : List Slot) : Prop :=
  match i with
  | .schedule var slot => ∃ v, Variant.ofCode var = some v ∧ s.inp.key.length = v.keyBytes ∧
      slots = s.slots.set slot.toNat (s.scheduledSlot v)
  | .release slot => slots = s.slots.set slot.toNat Slot.empty
  | .variantInfo _ => slots = s.slots
  | .encryptBlock _ => slots = s.slots
  | .decryptBlock _ => slots = s.slots
  | .ctrCrypt _ => slots = s.slots
  | .aeadEncrypt _ => slots = s.slots
  | .aeadDecrypt _ => slots = s.slots

/-- The command fails: a status, no output, no slot changed (R214). -/
def Fails (s t : State) : Prop := ∃ st : Status, t = s.ended st OutBufs.empty s.slots

/-- The command ends with `OK`, its own outputs and its own slot (R24, R52). -/
def Completes (i : Instr) (s t : State) : Prop :=
  ∃ o slots, UnlistedEmpty i o ∧ SlotsAfter i s slots ∧ t = s.ended .ok o slots

/-- An outcome that is a failure, or a completion. -/
def EndsAs (i : Instr) (s : State) (r : Result) : Prop := ∃ t, r = .next t ∧ (Fails s t ∨ Completes i s t)

theorem endsAs_of_failed {i : Instr} {s : State} {r : Result} {st : Status}
    (h : r = .next (s.ended st OutBufs.empty s.slots)) : EndsAs i s r := ⟨_, h, .inl ⟨st, rfl⟩⟩

theorem endsAs_of_completed {i : Instr} {s : State} {r : Result} {o : OutBufs} {slots : List Slot}
    (h : r = .next (s.ended .ok o slots)) (ho : UnlistedEmpty i o) (hslots : SlotsAfter i s slots) : EndsAs i s r :=
  ⟨_, h, .inr ⟨o, slots, ho, hslots, rfl⟩⟩

/-- `aead_encrypt`'s phases write `OUT.data` and `OUT.tag` only (R52, R183). -/
theorem State.sealPhases_unlisted (s : State) (v : Variant) :
    (s.sealPhases v).out.block = s.out.block ∧ (s.sealPhases v).out.info = s.out.info := by
  simp [State.sealPhases, State.cryptPhase]

theorem blockCommand_endsAs {i : Instr} {s : State} {slot : BitVec 4}
    {run : Config → Variant → RoundKeys → Work → Work}
    (ho : ∀ b, UnlistedEmpty i { OutBufs.empty with block := b }) (hslots : SlotsAfter i s s.slots) :
    EndsAs i s (blockCommand slot run s) := by
  rcases blockCommand_ends slot run s with ⟨-, e⟩ | ⟨_, -, -, e⟩ | ⟨_, -, -, -, e⟩ | ⟨_, -, -, -, e⟩
  · exact endsAs_of_failed e
  · exact endsAs_of_failed e
  · exact endsAs_of_failed e
  · exact endsAs_of_completed e (ho _) hslots

/-- Every outcome of every command: refused exactly when an operand it reads is longer than `MAXLEN`, otherwise failed or
completed (R60, R214). -/
theorem exec_outcomes (i : Instr) (s : State) :
    (withinMaxlen i s = false ∧ exec i s = .refused .operandTooLong) ∨
    (withinMaxlen i s = true ∧ EndsAs i s (exec i s)) := by
  cases i with
  | variantInfo var =>
    refine .inr ⟨rfl, ?_⟩
    rcases execVariantInfo_cases var s with ⟨-, e⟩ | ⟨_, -, e⟩
    · exact endsAs_of_failed e
    · exact endsAs_of_completed e ⟨rfl, rfl, rfl⟩ rfl
  | schedule var slot =>
    refine .inr ⟨rfl, ?_⟩
    rcases execSchedule_cases var slot s with ⟨-, e⟩ | ⟨-, -, e⟩ | ⟨_, -, -, -, e⟩ | ⟨v, -, hv, hk, e⟩
    · exact endsAs_of_failed e
    · exact endsAs_of_failed e
    · exact endsAs_of_failed e
    · exact endsAs_of_completed e rfl ⟨v, hv, hk, rfl⟩
  | release slot =>
    refine .inr ⟨rfl, ?_⟩
    rcases execRelease_cases slot s with ⟨-, e⟩ | ⟨-, e⟩
    · exact endsAs_of_failed e
    · exact endsAs_of_completed e rfl rfl
  | encryptBlock slot => exact .inr ⟨rfl, blockCommand_endsAs (fun _ => ⟨rfl, rfl, rfl⟩) rfl⟩
  | decryptBlock slot => exact .inr ⟨rfl, blockCommand_endsAs (fun _ => ⟨rfl, rfl, rfl⟩) rfl⟩
  | ctrCrypt var =>
    rcases execCtrCrypt_cases var s with ⟨hlen, e⟩ | ⟨hlen, _, -, e⟩ | ⟨hlen, _, -, e⟩
    · exact .inl ⟨by simp [withinMaxlen, hlen], e⟩
    · exact .inr ⟨by simp [withinMaxlen, hlen], endsAs_of_failed e⟩
    · exact .inr ⟨by simp [withinMaxlen, hlen], endsAs_of_completed e ⟨rfl, rfl, rfl⟩ rfl⟩
  | aeadEncrypt var =>
    have hmax : withinMaxlen (.aeadEncrypt var) s = !(s.dataTooLong || s.aadTooLong) := (Bool.not_or ..).symm
    rcases execAeadEncrypt_cases var s with ⟨hlen, e⟩ | ⟨hlen, _, -, e⟩ | ⟨hlen, v, -, e⟩
    · exact .inl ⟨by simp [hmax, hlen], e⟩
    · exact .inr ⟨by simp [hmax, hlen], endsAs_of_failed e⟩
    · exact .inr ⟨by simp [hmax, hlen], endsAs_of_completed e (s.begin.sealPhases_unlisted v) rfl⟩
  | aeadDecrypt var =>
    have hmax : withinMaxlen (.aeadDecrypt var) s = !(s.dataTooLong || s.aadTooLong) := (Bool.not_or ..).symm
    rcases execAeadDecrypt_cases var s with
      ⟨hlen, e⟩ | ⟨hlen, _, -, e⟩ | ⟨hlen, _, -, -, e⟩ | ⟨hlen, _, -, -, -, e⟩ | ⟨hlen, _, -, -, -, e⟩
    · exact .inl ⟨by simp [hmax, hlen], e⟩
    · exact .inr ⟨by simp [hmax, hlen], endsAs_of_failed e⟩
    · exact .inr ⟨by simp [hmax, hlen], endsAs_of_failed e⟩
    · exact .inr ⟨by simp [hmax, hlen], endsAs_of_failed e⟩
    · exact .inr ⟨by simp [hmax, hlen], endsAs_of_completed e ⟨rfl, rfl, rfl⟩ rfl⟩

/-- A command with a next state failed or completed. -/
theorem exec_next_cases {i : Instr} {s t : State} (h : exec i s = .next t) : Fails s t ∨ Completes i s t := by
  rcases exec_outcomes i s with ⟨-, e⟩ | ⟨-, u, e, hu⟩ <;> cases e.symm.trans h
  exact hu

/-! ## The statements -/

/-- Each status code is one of the eight, and only that of `OK` is 0 (R210). -/
theorem Status.word_lt (st : Status) : st.word.toNat < 8 := by cases st <;> decide

theorem unlistedEmpty_empty (i : Instr) : UnlistedEmpty i OutBufs.empty := by
  cases i <;> simp [UnlistedEmpty, OutBufs.empty]

/-- Settles O48: a completed command has status 0, a failed one is the old state but for the fields named. -/
theorem failureTouchesStatusOnly : Obligations.FailureTouchesStatusOnly := by
  unfold Obligations.FailureTouchesStatusOnly
  intro i s t h
  obtain ⟨st, rfl⟩ | ⟨o, slots, -, -, rfl⟩ := exec_next_cases h
  · exact ⟨st.word_lt, fun _ => rfl⟩
  · exact ⟨Status.word_lt .ok, fun hst => absurd rfl hst⟩

/-- The slots a command leaves are as many as before, and only the one it names may differ (R23, R24). -/
theorem SlotsAfter.frame {i : Instr} {s : State} {slots : List Slot} (h : SlotsAfter i s slots) :
    slots.length = s.slots.length ∧
      ∀ k, (∀ slot, i.slotField = some slot → k ≠ slot.toNat) → slots[k]? = s.slots[k]? := by
  cases i with
  | schedule var slot =>
    obtain ⟨v, -, -, rfl⟩ := h
    exact ⟨List.length_set .., fun k hk => List.getElem?_set_ne (hk slot rfl).symm⟩
  | release slot =>
    obtain rfl := h
    exact ⟨List.length_set .., fun k hk => List.getElem?_set_ne (hk slot rfl).symm⟩
  | variantInfo | encryptBlock | decryptBlock | ctrCrypt | aeadEncrypt | aeadDecrypt =>
    obtain rfl := h
    exact ⟨rfl, fun _ _ => rfl⟩

/-- What every command leaves (R44, R52, R61): `exec_next_cases`, field by field. -/
theorem exec_frame {i : Instr} {s t : State} (h : exec i s = .next t) :
    t.cfg = s.cfg ∧ t.inp = s.inp ∧ t.host = s.host ∧ t.reply = s.reply ∧ t.work = Work.reset ∧
      UnlistedEmpty i t.out ∧ (t.slots = s.slots ∨ SlotsAfter i s t.slots) := by
  obtain ⟨st, rfl⟩ | ⟨o, slots, ho, hslots, rfl⟩ := exec_next_cases h
  · exact ⟨rfl, rfl, rfl, rfl, rfl, unlistedEmpty_empty i, .inl rfl⟩
  · exact ⟨rfl, rfl, rfl, rfl, rfl, ho, .inr hslots⟩

/-- Settles O49: `exec_frame`; the slots are those before, or those `SlotsAfter` allows the command. -/
theorem commandFrame : Obligations.CommandFrame := by
  unfold Obligations.CommandFrame
  intro i s t h
  obtain ⟨hcfg, hinp, hhost, hreply, hwork, hout, hslots⟩ := exec_frame h
  have hkept : t.slots.length = s.slots.length ∧
      ∀ k, (∀ slot, i.slotField = some slot → k ≠ slot.toNat) → t.slots[k]? = s.slots[k]? := by
    rcases hslots with heq | hafter
    · rw [heq]; exact ⟨rfl, fun _ _ => rfl⟩
    · exact hafter.frame
  refine ⟨hcfg, hinp, hhost, hreply, hwork, hout, hkept.1, ?_⟩
  cases i with
  | schedule var slot => exact fun k hk => hkept.2 k fun _ e => Option.some.inj e ▸ hk
  | release slot => exact fun k hk => hkept.2 k fun _ e => Option.some.inj e ▸ hk
  | variantInfo | encryptBlock | decryptBlock | ctrCrypt | aeadEncrypt | aeadDecrypt =>
    exact hslots.elim id id

/-! ## Length limits -/

/-- A command is refused when an operand it reads is longer than `MAXLEN` (R60). -/
theorem exec_of_tooLong {i : Instr} {s : State} (h : withinMaxlen i s = false) :
    exec i s = .refused .operandTooLong := by
  rcases exec_outcomes i s with ⟨-, e⟩ | ⟨hmax, -⟩
  · exact e
  · simp [h] at hmax

/-- Within the length limits every command has a next state (R60, R214). -/
theorem exec_of_withinMaxlen {i : Instr} {s : State} (h : withinMaxlen i s = true) : ∃ t, exec i s = .next t := by
  rcases exec_outcomes i s with ⟨hmax, -⟩ | ⟨-, t, e, -⟩
  · simp [h] at hmax
  · exact ⟨t, e⟩

/-- Settles O53: which lengths each command looks at is `withinMaxlen`. -/
theorem overlongOperandsRefused : Obligations.OverlongOperandsRefused := by
  unfold Obligations.OverlongOperandsRefused
  intro s var
  refine ⟨fun hdata => ⟨?_, ?_, ?_⟩, fun haad => ⟨?_, ?_⟩, fun hdata => exec_of_withinMaxlen ?_⟩
  · exact exec_of_tooLong (by simp [withinMaxlen, State.dataTooLong, hdata])
  · exact exec_of_tooLong (by simp [withinMaxlen, State.dataTooLong, hdata])
  · exact exec_of_tooLong (by simp [withinMaxlen, State.dataTooLong, hdata])
  · exact exec_of_tooLong (by simp [withinMaxlen, State.aadTooLong, haad])
  · exact exec_of_tooLong (by simp [withinMaxlen, State.aadTooLong, haad])
  · simp [withinMaxlen, State.dataTooLong, hdata]

/-! ## Who reads which buffer -/

/-- The state with other input buffers. -/
def State.withInp (s : State) (b : InBufs) : State := { s with inp := b }

/-- The outcome with other input buffers in its next state. -/
def Result.withInp (b : InBufs) : Result → Result
  | .next t => .next (t.withInp b)
  | .fault f => .fault f
  | .refused r => .refused r

section
variable (s : State) (b : InBufs) (v : Variant) (var slot : BitVec 4)

@[simp] theorem State.withInp_inp : (s.withInp b).inp = b := rfl

@[simp] theorem State.withInp_cfg : (s.withInp b).cfg = s.cfg := rfl

@[simp] theorem State.withInp_slots : (s.withInp b).slots = s.slots := rfl

@[simp] theorem State.withInp_nslot : (s.withInp b).nslot = s.nslot := rfl

@[simp] theorem State.withInp_work : (s.withInp b).work = s.work := rfl

@[simp] theorem State.withInp_out : (s.withInp b).out = s.out := rfl

@[simp] theorem State.withInp_begin : (s.withInp b).begin = s.begin.withInp b := rfl

@[simp] theorem State.withInp_raise (st : Status) : (s.withInp b).raise st = (s.raise st).withInp b := rfl

@[simp] theorem State.withInp_finish (st : Status) : (s.withInp b).finish st = (s.finish st).withInp b := rfl

@[simp] theorem State.withInp_setSlot (n : Nat) (sl : Slot) :
    (s.withInp b).setSlot n sl = (s.setSlot n sl).withInp b := rfl

@[simp] theorem State.withInp_macCtPhase (ct : Bytes) : (s.withInp b).macCtPhase ct = (s.macCtPhase ct).withInp b := rfl

@[simp] theorem State.withInp_macLenPhase : (s.withInp b).macLenPhase = s.macLenPhase.withInp b := rfl

@[simp] theorem State.withInp_outTag : (s.withInp b).outTag = s.outTag.withInp b := rfl

@[simp] theorem Result.withInp_next : Result.withInp b (.next s) = .next (s.withInp b) := rfl

@[simp] theorem Result.withInp_refused (r : Refusal) : Result.withInp b (.refused r) = .refused r := rfl

variable {s b}

/-- `EXPAND` reads the key (R100). -/
theorem State.withInp_expandIntoSlot (hkey : s.inp.key = b.key) (n : Nat) :
    (s.withInp b).expandIntoSlot v n = (s.expandIntoSlot v n).withInp b := by
  simp only [State.expandIntoSlot, State.withInp, State.enter, State.setSlot, hkey]

theorem State.withInp_expandIntoTK (hkey : s.inp.key = b.key) :
    (s.withInp b).expandIntoTK v = (s.expandIntoTK v).withInp b := by
  simp only [State.expandIntoTK, State.withInp, State.enter, hkey]

/-- Phase `BLOCK` reads the block (R188). -/
theorem State.withInp_blockPhase (hblock : s.inp.block = b.block) (run : Work → Work) :
    (s.withInp b).blockPhase v run = (s.blockPhase v run).withInp b := by
  simp only [State.blockPhase, State.withInp, State.enter, hblock]

/-- Phase `SUBKEY` reads the nonce (R181). -/
theorem State.withInp_subkeyPhase (hnonce : s.inp.nonce = b.nonce) :
    (s.withInp b).subkeyPhase v = (s.subkeyPhase v).withInp b := by
  simp only [State.subkeyPhase, State.withInp, State.enter, hnonce]

/-- Phase `CRYPT` reads the nonce and the data (R182). -/
theorem State.withInp_cryptPhase (hnonce : s.inp.nonce = b.nonce) (hdata : s.inp.data = b.data) (t : Nat) :
    (s.withInp b).cryptPhase v t = (s.cryptPhase v t).withInp b := by
  simp only [State.cryptPhase, State.withInp, State.enter, hnonce, hdata]

/-- Phase `MAC_AAD` reads the associated data (R165). -/
theorem State.withInp_macAadPhase (haad : s.inp.aad = b.aad) : (s.withInp b).macAadPhase = s.macAadPhase.withInp b := by
  simp only [State.macAadPhase, State.withInp, State.enter, haad]

/-- Phase `COMPARE` reads the tag (R186). -/
theorem State.withInp_comparePhase (htag : s.inp.tag = b.tag) : (s.withInp b).comparePhase = s.comparePhase.withInp b := by
  simp only [State.comparePhase, State.withInp, State.enter, htag]

theorem State.withInp_sealPhases (hkey : s.inp.key = b.key) (hnonce : s.inp.nonce = b.nonce) (hdata : s.inp.data = b.data)
    (haad : s.inp.aad = b.aad) : (s.withInp b).sealPhases v = (s.sealPhases v).withInp b := by
  simp only [State.sealPhases]
  rw [State.withInp_expandIntoTK v hkey, State.withInp_subkeyPhase v (by simpa using hnonce),
    State.withInp_cryptPhase v (by simpa using hnonce) (by simpa using hdata),
    State.withInp_macAadPhase (by simpa using haad)]
  rfl

theorem State.withInp_verifyPhases (hkey : s.inp.key = b.key) (hnonce : s.inp.nonce = b.nonce) (hdata : s.inp.data = b.data)
    (haad : s.inp.aad = b.aad) (htag : s.inp.tag = b.tag) : (s.withInp b).verifyPhases v = (s.verifyPhases v).withInp b := by
  simp only [State.verifyPhases]
  rw [State.withInp_expandIntoTK v hkey, State.withInp_subkeyPhase v (by simpa using hnonce),
    State.withInp_macAadPhase (by simpa using haad), State.withInp_macCtPhase, State.withInp_macLenPhase,
    State.withInp_comparePhase (by simpa using htag)]
  simp only [State.macAadPhase_inp, State.subkeyPhase_inp, State.expandIntoTK_inp, State.withInp_inp, hdata]

/-- The checks of the stream commands read the key and the nonce (R141). -/
theorem streamChecks_congr (hkey : s.inp.key = b.key) (hnonce : s.inp.nonce = b.nonce) :
    streamChecks var b = streamChecks var s.inp := by
  simp only [streamChecks, hkey, hnonce]

theorem State.withInp_dataTooLong (hdata : s.inp.data = b.data) : (s.withInp b).dataTooLong = s.dataTooLong := by
  rw [State.dataTooLong, State.withInp_inp, ← hdata]
  rfl

theorem State.withInp_aadTooLong (haad : s.inp.aad = b.aad) : (s.withInp b).aadTooLong = s.aadTooLong := by
  rw [State.aadTooLong, State.withInp_inp, ← haad]
  rfl

/-! ## Each command with other buffers it does not read -/

theorem execVariantInfo_withInp : execVariantInfo var (s.withInp b) = Result.withInp b (execVariantInfo var s) := by
  simp only [execVariantInfo]
  cases Variant.ofCode var <;> rfl

theorem execSchedule_withInp (hkey : s.inp.key = b.key) :
    execSchedule var slot (s.withInp b) = Result.withInp b (execSchedule var slot s) := by
  simp only [execSchedule, State.withInp_nslot, State.withInp_inp, ← hkey]
  split
  · split
    · rfl
    · split
      · rfl
      · rw [State.withInp_begin, State.withInp_expandIntoSlot (s := s.begin) _ hkey]
        rfl
  · rfl

theorem execRelease_withInp : execRelease slot (s.withInp b) = Result.withInp b (execRelease slot s) := by
  by_cases h : slot.toNat < s.nslot
  · simp [execRelease, h]
  · simp [execRelease, h]

theorem blockCommand_withInp (hblock : s.inp.block = b.block) (run : Config → Variant → RoundKeys → Work → Work) :
    blockCommand slot run (s.withInp b) = Result.withInp b (blockCommand slot run s) := by
  simp only [blockCommand, State.withInp_slots, State.withInp_inp, ← hblock]
  split
  · rfl
  · split
    · split
      · rfl
      · rw [State.withInp_begin, State.withInp_blockPhase (s := s.begin) _ hblock]
        rfl
    · rfl

theorem execCtrCrypt_withInp (hkey : s.inp.key = b.key) (hnonce : s.inp.nonce = b.nonce) (hdata : s.inp.data = b.data) :
    execCtrCrypt var (s.withInp b) = Result.withInp b (execCtrCrypt var s) := by
  simp only [execCtrCrypt, State.withInp_dataTooLong hdata, State.withInp_inp, streamChecks_congr var hkey hnonce]
  split
  · rfl
  · split
    · rfl
    · rw [State.withInp_begin, State.withInp_expandIntoTK (s := s.begin) _ hkey,
        State.withInp_cryptPhase _ (by simpa using hnonce) (by simpa using hdata)]
      rfl

theorem execAeadEncrypt_withInp (hkey : s.inp.key = b.key) (hnonce : s.inp.nonce = b.nonce) (hdata : s.inp.data = b.data)
    (haad : s.inp.aad = b.aad) :
    execAeadEncrypt var (s.withInp b) = Result.withInp b (execAeadEncrypt var s) := by
  simp only [execAeadEncrypt, State.withInp_dataTooLong hdata, State.withInp_aadTooLong haad, State.withInp_inp,
    streamChecks_congr var hkey hnonce]
  split
  · rfl
  · split
    · rfl
    · rw [State.withInp_begin, State.withInp_sealPhases (s := s.begin) _ hkey hnonce hdata haad]
      rfl

theorem execAeadDecrypt_withInp (hkey : s.inp.key = b.key) (hnonce : s.inp.nonce = b.nonce) (hdata : s.inp.data = b.data)
    (haad : s.inp.aad = b.aad) (htag : s.inp.tag = b.tag) :
    execAeadDecrypt var (s.withInp b) = Result.withInp b (execAeadDecrypt var s) := by
  have hverify := fun v => State.withInp_verifyPhases (s := s.begin) v hkey hnonce hdata haad htag
  simp only [execAeadDecrypt, State.withInp_dataTooLong hdata, State.withInp_aadTooLong haad, State.withInp_inp,
    streamChecks_congr var hkey hnonce, ← htag, State.withInp_begin, hverify, State.withInp_work]
  split
  · rfl
  · split
    · rfl
    next v _ =>
      obtain ⟨-, -, -, hinp, -⟩ := s.begin.verifyPhases_frame v
      split
      · rfl
      · split
        · rw [State.withInp_cryptPhase _ (by rw [hinp]; exact hnonce) (by rw [hinp]; exact hdata)]
          rfl
        · rfl

end

/-- A command commutes with replacing the buffers it does not read (R52). -/
theorem exec_withInp (i : Instr) (s : State) (b : InBufs) (h : SameReads i s.inp b) :
    exec i (s.withInp b) = Result.withInp b (exec i s) := by
  cases i with
  | variantInfo var => exact execVariantInfo_withInp var
  | schedule var slot => exact execSchedule_withInp var slot h
  | release slot => exact execRelease_withInp slot
  | encryptBlock slot => exact blockCommand_withInp slot h encryptXY
  | decryptBlock slot => exact blockCommand_withInp slot h decryptXY
  | ctrCrypt var =>
    obtain ⟨hkey, hnonce, hdata⟩ := h
    exact execCtrCrypt_withInp var hkey hnonce hdata
  | aeadEncrypt var =>
    obtain ⟨hkey, hnonce, hdata, haad⟩ := h
    exact execAeadEncrypt_withInp var hkey hnonce hdata haad
  | aeadDecrypt var =>
    obtain ⟨hkey, hnonce, hdata, haad, htag⟩ := h
    exact execAeadDecrypt_withInp var hkey hnonce hdata haad htag

/-- Settles O51: `exec_withInp`, read off for a next state and for a refusal. -/
theorem unlistedBuffersIgnored : Obligations.UnlistedBuffersIgnored := by
  unfold Obligations.UnlistedBuffersIgnored
  intro i s b hreads
  have hexec := exec_withInp i s b hreads
  exact ⟨fun t h => hexec.trans (congrArg (Result.withInp b) h), fun r h => hexec.trans (congrArg (Result.withInp b) h)⟩

end Sys2Proof.Machine
end

