-- ==== Sys2Proof/Proofs/HostAccesses.lean ====
section
/-! SUPPORT. The host's accesses (spec 10_state.md R26 to R28, 20_memory.md R50, R61, R62, 70_reset_and_hazards.md R240): what each
returns or sets, which have a meaning, and the invariant of 10_state.md every one of them keeps. -/

namespace Sys2Proof.Machine

/-! ## Reads, fills and reset -/

theorem serve_readReg_ok {n : Nat} {s : State} {v : BitVec 32} (h : readRegister n s = .ok v) :
    serve (.readReg n) s = .next { s with reply := .word v } := by
  simp only [serve, h]

theorem serve_readReg_error {n : Nat} {s : State} {e : Refusal} (h : readRegister n s = .error e) :
    serve (.readReg n) s = .refused e := by
  simp only [serve, h]

/-- `SLOTINFO` as a number: bit 0 `VALID`, bits 4 to 7 `VAR` when valid (R28). -/
theorem Slot.info_eq (sl : Slot) : sl.info = if sl.valid then BitVec.ofNat 32 (1 + 16 * sl.var.code.toNat) else 0 := by
  rw [Slot.info]
  cases sl.var <;> rfl

/-- The view of an existing slot (R28, R62). -/
theorem readRegister_slotInfo {s : State} {k : Nat} {sl : Slot} (h : s.slots[k]? = some sl) :
    readRegister (16 + k) s = .ok sl.info := by
  have hk : k < s.nslot := (List.getElem?_eq_some_iff.mp h).1
  rw [readRegister, if_neg (by omega), if_neg (by omega), if_pos ⟨by omega, by omega⟩, Nat.add_sub_cancel_left, h]
  rfl

/-- A reserved number reads as zero (U16). -/
theorem readRegister_reserved {s : State} {n : Nat} (h2 : 2 ≤ n) (h32 : n < 32) (hn : n < 16 ∨ 16 + s.nslot ≤ n) :
    readRegister n s = .ok 0 := by
  rw [readRegister, if_neg (by omega), if_neg (by omega), if_neg (by omega), if_pos h32]

/-- A number above all registers names nothing (log 10). -/
theorem readRegister_noSuch {s : State} {n : Nat} (h32 : 32 ≤ n) (hn : 16 + s.nslot ≤ n) :
    readRegister n s = .error .noSuchRegister := by
  rw [readRegister, if_neg (by omega), if_neg (by omega), if_neg (by omega), if_neg (by omega)]

/-- Settles O7: `readRegister` number by number, on the state the access has left the queue of. -/
theorem hostReadsRegisters : Obligations.HostReadsRegisters := by
  unfold Obligations.HostReadsRegisters
  intro s n rest hs
  rw [step_cons s _ rest hs]
  refine ⟨?cmd, ?status, ?slotInfo, ?reserved, ?noSuch⟩
  case cmd => rintro rfl; exact serve_readReg_error rfl
  case status => rintro rfl; exact serve_readReg_ok rfl
  case slotInfo =>
    rintro k sl rfl hsl
    rw [← sl.info_eq]
    exact serve_readReg_ok (readRegister_slotInfo hsl)
  case reserved => exact fun h2 h32 hn => serve_readReg_ok (readRegister_reserved h2 h32 hn)
  case noSuch => exact fun h32 hn => serve_readReg_error (readRegister_noSuch h32 hn)

/-- Settles O8: each access is served from the queue, and `InBufs.fill` and `OutBufs.get` name one buffer each. -/
theorem hostBufferAccesses : Obligations.HostBufferAccesses := by
  unfold Obligations.HostBufferAccesses
  intro s b rest
  refine ⟨?_, ?_, ?_, ?_, ?_, ?_, ?_, ?_, ?_, ?_⟩ <;> exact step_cons s _ rest

/-- Settles O10: the reset event is served from the queue; the other values are the definitions of the reset state. -/
theorem resetEventState : Obligations.ResetEventState := by
  unfold Obligations.ResetEventState
  refine ⟨fun s rest => step_cons s _ rest, ?_⟩
  and_intros <;> rfl

/-! ## Accesses with a meaning -/

/-- A register read succeeds exactly on the numbers that name a register, but for `CMD` (U15, U16; log 10). -/
theorem readRegister_cases (n : Nat) (s : State) :
    ((∃ v, readRegister n s = .ok v) ∧ (HostReq.readReg n).meaningful s = true) ∨
    ((∃ e, readRegister n s = .error e) ∧ (HostReq.readReg n).meaningful s = false) := by
  simp only [readRegister, HostReq.meaningful, Bool.and_eq_true, Bool.and_eq_false_iff, Bool.or_eq_true,
    Bool.or_eq_false_iff, decide_eq_true_iff, decide_eq_false_iff_not]
  split_ifs with h0 h1 h16 h32
  · exact .inr ⟨⟨_, rfl⟩, .inl (not_not.mpr h0)⟩
  · exact .inl ⟨⟨_, rfl⟩, h0, .inl (by omega)⟩
  · exact .inl ⟨⟨_, rfl⟩, h0, .inr h16.2⟩
  · exact .inl ⟨⟨_, rfl⟩, h0, .inl h32⟩
  · exact .inr ⟨⟨_, rfl⟩, .inr ⟨h32, by omega⟩⟩

/-- Only `CMD` is written (R27, U15, U16). -/
theorem writeRegister_refused {n : Nat} (hn : n ≠ 0) (v : BitVec 32) (s : State) :
    ∃ q, writeRegister n v s = .refused q := by
  simp only [writeRegister, hn, if_false]
  split_ifs <;> exact ⟨_, rfl⟩

/-- A command word is served exactly when it is illegal or its command is within the length limits (R60). -/
theorem issue_cases (c : CmdWord) (s : State) :
    ((∃ t, issue c s = .next t) ∧ (HostReq.writeReg 0 c).meaningful s = true) ∨
    ((∃ q, issue c s = .refused q) ∧ (HostReq.writeReg 0 c).meaningful s = false) := by
  cases hc : decode c with
  | error e => exact .inl ⟨⟨_, issue_error hc s⟩, by simp [HostReq.meaningful, hc]⟩
  | ok i =>
    rw [issue_ok hc]
    cases hmax : withinMaxlen i s with
    | true => exact .inl ⟨exec_of_withinMaxlen hmax, by simp [HostReq.meaningful, hc, hmax]⟩
    | false => exact .inr ⟨⟨_, exec_of_tooLong hmax⟩, by simp [HostReq.meaningful, hc, hmax]⟩

/-- An access is served when it has a meaning and refused when it has none; none faults (R60, U13, U15, U16). -/
theorem serve_cases (r : HostReq) (s : State) :
    ((∃ t, serve r s = .next t) ∧ r.meaningful s = true) ∨ ((∃ q, serve r s = .refused q) ∧ r.meaningful s = false) := by
  cases r with
  | writeReg n v =>
    by_cases hn : n = 0
    · subst hn; exact issue_cases v s
    · exact .inr ⟨writeRegister_refused hn v s, by simp [HostReq.meaningful, hn]⟩
  | readReg n =>
    rcases readRegister_cases n s with ⟨⟨v, hv⟩, hm⟩ | ⟨⟨e, he⟩, hm⟩
    · exact .inl ⟨⟨_, serve_readReg_ok hv⟩, hm⟩
    · exact .inr ⟨⟨_, serve_readReg_error he⟩, hm⟩
  | fill | readOut | reset => exact .inl ⟨⟨_, rfl⟩, rfl⟩

/-- Whether an access has a meaning does not depend on the queue behind it. -/
theorem meaningful_withHost (r : HostReq) (s : State) (rest : List HostReq) :
    r.meaningful { s with host := rest } = r.meaningful s := by
  cases r with
  | writeReg n c =>
    cases hc : decode c with
    | error e => simp only [HostReq.meaningful, hc]
    | ok i => cases i <;> simp only [HostReq.meaningful, hc] <;> rfl
  | readReg | fill | readOut | reset => rfl

/-- Settles O9: `serve_cases`; the three outcomes exclude one another. -/
theorem stepCompletesExactlyWhenMeaningful : Obligations.StepCompletesExactlyWhenMeaningful := by
  unfold Obligations.StepCompletesExactlyWhenMeaningful
  intro s r rest hs
  rw [step_cons s r rest hs, ← meaningful_withHost r s rest]
  rcases serve_cases r { s with host := rest } with ⟨⟨t, e⟩, hm⟩ | ⟨⟨q, e⟩, hm⟩ <;> simp [e, hm]

/-! ## The invariant -/

/-- Settles O54: one empty slot, status `OK`, the default parameters. -/
theorem resetStateInvariant : Obligations.ResetStateInvariant := by
  unfold Obligations.ResetStateInvariant
  refine ⟨by decide, by decide, fun sl hsl => ?_, ⟨.ok, rfl⟩, rfl⟩
  exact .inl ⟨by rw [List.eq_of_mem_replicate hsl]; rfl, List.eq_of_mem_replicate hsl⟩

/-- The invariant speaks of the parameters, the slots, the status and the working registers only. -/
theorem State.Inv.congr {s t : State} (h : s.Inv) (hcfg : t.cfg = s.cfg) (hslots : t.slots = s.slots)
    (hstatus : t.status = s.status) (hwork : t.work = s.work) : t.Inv := by
  obtain ⟨hwf, hnslot, hsl, hst, hwk⟩ := h
  rw [State.nslot, ← hslots] at hnslot
  exact ⟨hcfg ▸ hwf, hnslot, by rw [hcfg, hslots]; exact hsl, hstatus ▸ hst, hwork ▸ hwk⟩

/-- A command that leaves as many slots, all well formed, keeps the invariant: the status it records is one of the eight,
and the working registers are cleared (R26, R44). -/
theorem State.Inv.ended {s : State} (h : s.Inv) (st : Status) (o : OutBufs) {slots : List Slot}
    (hlen : slots.length = s.slots.length) (hslots : ∀ sl ∈ slots, Slot.Wf s.cfg sl) : (s.ended st o slots).Inv := by
  have hnslot := h.nslot
  rw [State.nslot, ← hlen] at hnslot
  exact ⟨h.cfg, hnslot, hslots, ⟨st, rfl⟩, rfl⟩

theorem Slot.wf_empty (c : Config) : Slot.Wf c Slot.empty := .inl ⟨rfl, rfl⟩

/-- `schedule` leaves a well-formed slot: the registers hold the image of the expansion (R23, R104). -/
theorem State.scheduledSlot_wf {s : State} (hwf : s.cfg.wf = true) {v : Variant} (hkey : s.inp.key.length = v.keyBytes) :
    Slot.Wf s.cfg (s.scheduledSlot v) := by
  have ht := s.cfg.t_bounds hwf v
  exact .inr ⟨rfl, s.inp.key, hkey, expandRegs_keys s.cfg v s.inp.key _ (by omega) ht.2⟩

/-- The slots a completed command leaves are well formed when those before it are (R25). -/
theorem SlotsAfter.wf {i : Instr} {s : State} {slots : List Slot} (h : SlotsAfter i s slots) (hinv : s.Inv) :
    ∀ sl ∈ slots, Slot.Wf s.cfg sl := by
  have hset : ∀ n sl', Slot.Wf s.cfg sl' → ∀ sl ∈ s.slots.set n sl', Slot.Wf s.cfg sl := fun n sl' hwf sl hsl =>
    (List.mem_or_eq_of_mem_set hsl).elim (hinv.slots sl) fun e => e ▸ hwf
  cases i with
  | schedule var slot =>
    obtain ⟨v, -, hkey, rfl⟩ := h
    exact hset _ _ (State.scheduledSlot_wf hinv.cfg hkey)
  | release slot =>
    obtain rfl := h
    exact hset _ _ (Slot.wf_empty s.cfg)
  | variantInfo | encryptBlock | decryptBlock | ctrCrypt | aeadEncrypt | aeadDecrypt =>
    obtain rfl := h
    exact hinv.slots

/-- Every command keeps the invariant. -/
theorem exec_keeps_inv {i : Instr} {s t : State} (hinv : s.Inv) (h : exec i s = .next t) : t.Inv := by
  obtain ⟨st, rfl⟩ | ⟨o, slots, -, hslots, rfl⟩ := exec_next_cases h
  · exact hinv.ended st _ rfl hinv.slots
  · exact hinv.ended .ok o hslots.frame.1 (hslots.wf hinv)

/-- Every command word keeps the invariant, legal or not. -/
theorem issue_keeps_inv {c : CmdWord} {s t : State} (hinv : s.Inv) (h : issue c s = .next t) : t.Inv := by
  cases hc : decode c with
  | error e =>
    cases (issue_error hc s).symm.trans h
    exact hinv.ended .illegalCommand _ rfl hinv.slots
  | ok i => exact exec_keeps_inv hinv ((issue_ok hc s).symm.trans h)

/-- The reset event establishes the invariant, given the parameters and the number of slots (R46). -/
theorem resetEvent_inv {s : State} (hinv : s.Inv) : s.resetEvent.Inv := by
  refine ⟨hinv.cfg, by rw [State.nslot_resetEvent]; exact hinv.nslot, fun sl hsl => ?_, ⟨.ok, rfl⟩, rfl⟩
  rw [List.eq_of_mem_replicate hsl]
  exact Slot.wf_empty s.cfg

/-- Every access of the host keeps the invariant. -/
theorem serve_keeps_inv {r : HostReq} {s t : State} (hinv : s.Inv) (h : serve r s = .next t) : t.Inv := by
  cases r with
  | writeReg n v => exact issue_keeps_inv hinv (writeRegister_next h).2
  | readReg n =>
    simp only [serve] at h
    split at h <;> cases h
    exact hinv.congr rfl rfl rfl rfl
  | fill | readOut => cases h; exact hinv.congr rfl rfl rfl rfl
  | reset => cases h; exact resetEvent_inv hinv

/-- Settles O55: the step waits or serves an access; taking the access from the queue is no part of the invariant. -/
theorem stepKeepsInvariant : Obligations.StepKeepsInvariant := by
  unfold Obligations.StepKeepsInvariant
  intro s t hinv h
  cases hs : s.host with
  | nil =>
    cases (step_idle s hs).symm.trans h
    exact hinv
  | cons r rest =>
    exact serve_keeps_inv (hinv.congr (t := { s with host := rest }) rfl rfl rfl rfl) ((step_cons s r rest hs).symm.trans h)

end Sys2Proof.Machine
end

