-- ==== Sys2Proof/Proofs/BytesAndWords.lean ====
section
/-! SUPPORT. Byte strings as numbers (spec 00_scope.md R11), rotations (R13), the words of blocks and keys (20_memory.md R53, R54),
and what follows for a round (42_block_cipher.md R126), a block (R129) and the first round keys (41_key_schedule.md R107). -/

namespace Sys2Proof.Machine

/-! ## Byte strings and numbers -/

/-- `BE` is the sum of the bytes with their weights, first byte the most significant (R11). -/
theorem be_eq_sum (s : Bytes) :
    be s = ((List.range s.length).map fun i => (s.getD i 0).toNat * 256 ^ (s.length - 1 - i)).sum := by
  induction s with
  | nil => rfl
  | cons b s ih =>
    rw [be, ih, List.length_cons, List.range_succ_eq_map, List.map_cons, List.sum_cons, List.map_map]
    congr 2
    refine List.map_congr_left fun i _ => ?_
    simp only [Function.comp_apply, List.getD_cons_succ]
    congr 2
    omega

/-- `LE` is the sum of the bytes with their weights, first byte the least significant (R11). -/
theorem le_eq_sum (s : Bytes) : le s = ((List.range s.length).map fun i => (s.getD i 0).toNat * 256 ^ i).sum := by
  induction s with
  | nil => rfl
  | cons b s ih =>
    rw [le, ih, List.length_cons, List.range_succ_eq_map, List.map_cons, List.sum_cons, List.map_map,
      ← List.sum_map_mul_left]
    congr 1
    · simp
    · congr 1
      refine List.map_congr_left fun i _ => ?_
      simp only [Function.comp_apply, List.getD_cons_succ, pow_succ]
      ring

/-- `LE` of `n` bytes is below `256^n`. -/
theorem le_lt (s : Bytes) : le s < 256 ^ s.length := by
  induction s with
  | nil => simp [le]
  | cons b s ih =>
    have hb : b.toNat < 256 := b.isLt
    simp only [le, List.length_cons, pow_succ]
    omega

/-- `LEbytes_n` undoes `LE` on strings of `n` bytes (R11). -/
theorem leBytes_le (s : Bytes) : leBytes s.length (le s) = s := by
  induction s with
  | nil => rfl
  | cons b s ih =>
    have hb : b.toNat < 256 := b.isLt
    have hhead : BitVec.ofNat 8 (b.toNat + 256 * le s) = b := by
      apply BitVec.eq_of_toNat_eq
      rw [BitVec.toNat_ofNat]
      omega
    have htail : (b.toNat + 256 * le s) / 256 = le s := by omega
    rw [le, List.length_cons, leBytes, hhead, htail, ih]

/-- Settles O13: both sums by induction over the string, `beBytes_be` and `leBytes_le` one way, `be_beBytes` and
`le_leBytes` the other. -/
theorem byteStringsAndIntegersInverse : Obligations.ByteStringsAndIntegersInverse := by
  unfold Obligations.ByteStringsAndIntegersInverse
  refine ⟨fun s => ⟨be_eq_sum s, le_eq_sum s, beBytes_be s, leBytes_le s⟩, fun n v hv => ⟨?_, ?_, ?_, ?_⟩⟩
  · rw [be_beBytes, Nat.mod_eq_of_lt hv]
  · rw [le_leBytes, Nat.mod_eq_of_lt hv]
  · exact beBytes_length n v
  · exact leBytes_length n v

/-! ## Rotations -/

/-- Bit `i` of a rotation right comes from `r` places above, around the word (R13). -/
theorem getLsbD_rotr {w : Nat} (v : BitVec w) {r i : Nat} (hr : r < w) (hi : i < w) :
    (rotr v r).getLsbD i = v.getLsbD ((i + r) % w) := by
  rw [rotr_eq_rotateRight v hr, BitVec.getLsbD_rotateRight_of_lt hr]
  by_cases hir : i < w - r
  · simp [hir, Nat.add_comm i r, Nat.mod_eq_of_lt (show r + i < w by omega)]
  · have hwrap : (i + r) % w = i - (w - r) := by
      rw [Nat.mod_eq_sub_mod (by omega), Nat.mod_eq_of_lt (by omega)]
      omega
    simp [hir, hi, hwrap]

/-- Bit `i` of a word moves `r` places up in a rotation left, around the word (R13). -/
theorem getLsbD_rotl {w : Nat} (v : BitVec w) {r i : Nat} (hr : r < w) (hi : i < w) :
    (rotl v r).getLsbD ((i + r) % w) = v.getLsbD i := by
  rw [← getLsbD_rotr _ hr hi, rotr_rotl_cancel v hr]

/-- The number of a rotation right: the low `r` bits go to the top, the others down (R13). -/
theorem toNat_rotr {w : Nat} (v : BitVec w) {r : Nat} (hr : r < w) :
    (rotr v r).toNat = v.toNat / 2 ^ r + v.toNat % 2 ^ r * 2 ^ (w - r) := by
  have hw : 2 ^ w = 2 ^ r * 2 ^ (w - r) := by rw [← pow_add]; congr 1; omega
  have hhigh : v.toNat / 2 ^ r < 2 ^ (w - r) := Nat.div_lt_of_lt_mul (hw ▸ v.isLt)
  rw [rotr, BitVec.toNat_or, BitVec.toNat_ushiftRight, BitVec.toNat_shiftLeft, Nat.shiftLeft_eq, hw, Nat.mul_mod_mul_right,
    Nat.shiftRight_eq_div_pow, Nat.or_comm, ← Nat.shiftLeft_eq, ← Nat.shiftLeft_add_eq_or_of_lt hhigh, Nat.add_comm]

/-- The number of a rotation left: the low bits go up, the high `r` bits to the bottom (R13). -/
theorem toNat_rotl {w : Nat} (v : BitVec w) {r : Nat} (hr : r < w) :
    (rotl v r).toNat = v.toNat * 2 ^ r % 2 ^ w + v.toNat / 2 ^ (w - r) := by
  have hw : 2 ^ w = 2 ^ (w - r) * 2 ^ r := by rw [← pow_add]; congr 1; omega
  have hlow : v.toNat / 2 ^ (w - r) < 2 ^ r := Nat.div_lt_of_lt_mul (hw ▸ v.isLt)
  rw [rotl, BitVec.toNat_or, BitVec.toNat_ushiftRight, BitVec.toNat_shiftLeft, Nat.shiftLeft_eq, hw, Nat.mul_mod_mul_right,
    Nat.shiftRight_eq_div_pow, ← Nat.shiftLeft_eq, ← Nat.shiftLeft_add_eq_or_of_lt hlow]

/-- Settles O14: the bits by `getLsbD_rotr` and `getLsbD_rotl`, the numbers by `toNat_rotr` and `toNat_rotl`, and both
cancellations. -/
theorem rotationsAreCircular : Obligations.RotationsAreCircular := by
  unfold Obligations.RotationsAreCircular
  intro w v r _ hr
  exact ⟨fun i hi => getLsbD_rotr v hr hi, fun i hi => getLsbD_rotl v hr hi, toNat_rotr v hr, toNat_rotl v hr,
    rotl_rotr_cancel v hr, rotr_rotl_cancel v hr⟩

/-! ## The words of blocks and keys -/

/-- Settles O15: the words of a block are the numbers of its halves, and `wordsBlock` is inverse to reading them. -/
theorem blockWordsByteOrder : Obligations.BlockWordsByteOrder := by
  unfold Obligations.BlockWordsByteOrder
  intro v
  refine ⟨fun b hb => ⟨blockX_toNat v b hb, blockY_toNat v b hb, wordsBlock_blockXY v b hb⟩, fun x y => ⟨?_, ?_, ?_⟩⟩
  · rw [wordsBlock_length, v.blockBytes_eq]
  · exact blockX_wordsBlock v x y
  · exact blockY_wordsBlock v x y

/-- Key word `k_i` is the number of its own bytes (R54). -/
theorem keyWord_toNat_eq_be (v : Variant) (key : Bytes) (i : Nat) (hkey : key.length = v.keyBytes) (hi : i < v.m) :
    (keyWord v.w v.m key i).toNat = be (memRead key ((v.m - 1 - i) * v.wordBytes) v.wordBytes) := by
  refine toNat_ofNat_be v _ ?_
  have hend : (v.m - 1 - i) * (v.w / 8) + v.w / 8 ≤ key.length := by
    rw [hkey, v.keyBytes_eq, ← Nat.succ_mul]
    exact Nat.mul_le_mul_right _ (by omega)
  rw [memRead_length]
  omega

/-- Settles O16: `keyWord_toNat` by division, `keyWord_toNat_eq_be` by the bytes. -/
theorem keyWordsComeFromTheEnd : Obligations.KeyWordsComeFromTheEnd := by
  unfold Obligations.KeyWordsComeFromTheEnd
  intro v key i hkey hi
  exact ⟨keyWord_toNat v key i hkey hi, keyWord_toNat_eq_be v key i hkey hi⟩

/-! ## Rounds and blocks -/

/-- A round undoes an inverse round: `x` comes back from adding `y`, then `y'` from the new `x` (R126). -/
theorem rf_rinv (v : Variant) (k : BitVec v.w) (xy : BitVec v.w × BitVec v.w) :
    rf v.alpha v.beta (rinv v.alpha v.beta xy.1 xy.2 k).1 (rinv v.alpha v.beta xy.1 xy.2 k).2 k = xy := by
  obtain ⟨x, y⟩ := xy
  simp only [rf, rinv, rotr_rotl_cancel _ v.alpha_lt_w, rotl_rotr_cancel _ v.beta_lt_w, BitVec.sub_add_cancel,
    BitVec.xor_assoc, BitVec.xor_self, BitVec.xor_zero]

/-- Settles O22: `rinv_rf` and `rf_rinv`. -/
theorem roundAndInverseCancel : Obligations.RoundAndInverseCancel := by
  unfold Obligations.RoundAndInverseCancel
  intro v x y k
  exact ⟨rinv_rf v k (x, y), rf_rinv v k (x, y)⟩

/-- The rounds undo the inverse rounds (R129). -/
theorem rounds_invRounds (v : Variant) (ks : List (BitVec v.w)) (xy : BitVec v.w × BitVec v.w) :
    rounds v ks (invRounds v ks xy) = xy := by
  induction ks generalizing xy with
  | nil => rfl
  | cons k ks ih =>
    rw [invRounds_cons, rounds, List.foldl_cons, rf_rinv]
    exact ih xy

/-- `Encrypt` undoes `Decrypt` under the same round keys (R129). -/
theorem encrypt_decrypt (v : Variant) (ks : List (BitVec v.w)) (b : Bytes) (hb : b.length = v.blockBytes) :
    encrypt v ks (decrypt v ks b) = b := by
  rw [encrypt_eq, decrypt_eq, blockX_wordsBlock, blockY_wordsBlock, rounds_invRounds]
  exact wordsBlock_blockXY v b hb

/-- Settles O24: `decrypt_encrypt` and `encrypt_decrypt`, with the lengths. -/
theorem encryptDecryptBijection : Obligations.EncryptDecryptBijection := by
  unfold Obligations.EncryptDecryptBijection
  intro v ks b hb
  exact ⟨decrypt_encrypt v ks b hb, encrypt_decrypt v ks b hb, encrypt_length v ks b, decrypt_length v ks b⟩

/-! ## The first round keys -/

/-- `K_1` from the first two key words: link word `l_0` is the second of them and the step index is 0 (R100). -/
theorem roundKey_one (v : Variant) (key : Bytes) :
    (expandState v key 1).1 = rotl (keyWord v.w v.m key 0) v.beta ^^^
      (keyWord v.w v.m key 0 + rotr (keyWord v.w v.m key 1) v.alpha) := by
  have hm := v.m_bounds
  rw [roundKey_next, linkWord_next, linkWord_start v key 0 (by omega), roundKey_start]
  simp

/-- The first round keys of an expansion (R100). -/
theorem take_expand (c : Config) (v : Variant) (key : Bytes) (n : Nat) (hn : n ≤ c.t v) (ht : 1 ≤ c.t v) :
    (expand c v key).take n = (List.range n).map fun i => (expandState v key i).1 := by
  rw [expand_eq c v key ht, ← List.map_take, List.take_range, Nat.min_eq_left hn]

theorem be_zeros (n : Nat) : be (zeros n) = 0 := by
  induction n with
  | zero => rfl
  | succ n ih => simpa [zeros, List.replicate_succ, be] using ih

theorem keyWord_zeros (v : Variant) (i : Nat) (hi : i < v.m) : keyWord v.w v.m (zeros v.keyBytes) i = 0 := by
  apply BitVec.eq_of_toNat_eq
  rw [keyWord_toNat v _ i (zeros_length _) hi, be_zeros]
  simp

theorem rotr_zero {w : Nat} (r : Nat) : rotr (0 : BitVec w) r = 0 := by simp [rotr]

theorem rotl_zero {w : Nat} (r : Nat) : rotl (0 : BitVec w) r = 0 := by simp [rotl]

theorem roundKey_one_zeros (v : Variant) : (expandState v (zeros v.keyBytes) 1).1 = 0 := by
  have hm := v.m_bounds
  rw [roundKey_one, keyWord_zeros v 0 (by omega), keyWord_zeros v 1 (by omega), rotr_zero, rotl_zero]
  simp

/-- Link word `l_1` of the zero key is 0: the third key word, or what step 0 appends when there are only two (R100). -/
theorem linkWord_one_zeros (v : Variant) : linkWord v (zeros v.keyBytes) 1 = 0 := by
  have hm := v.m_bounds
  by_cases h2 : v.m = 2
  · have hnext := linkWord_next v (zeros v.keyBytes) 0
    rw [h2, linkWord_start v _ 0 (by omega), roundKey_start, keyWord_zeros v 0 (by omega), keyWord_zeros v _ (by omega),
      rotr_zero] at hnext
    simpa using hnext
  · rw [linkWord_start v _ 1 (by omega), keyWord_zeros v _ (by omega)]

/-- `K_2` of the zero key is the step index 1 (R107). -/
theorem roundKey_two_zeros (v : Variant) : (expandState v (zeros v.keyBytes) 2).1 = 1 := by
  rw [roundKey_next, linkWord_next, roundKey_one_zeros, linkWord_one_zeros, rotr_zero, rotl_zero]
  simp

/-- `K_0` and `K_1` as numbers, from the word size and the number of the key alone (R100, R107). -/
def earlyKeys (w n : Nat) : List Nat :=
  let k0 := BitVec.ofNat w n
  let k1 := BitVec.ofNat w (n / 2 ^ w)
  [k0.toNat, (rotl k0 (if w = 16 then 2 else 3) ^^^ (k0 + rotr k1 (if w = 16 then 7 else 8))).toNat]

theorem keyWord_eq_ofNat (v : Variant) (key : Bytes) (i : Nat) (hkey : key.length = v.keyBytes) (hi : i < v.m) :
    keyWord v.w v.m key i = BitVec.ofNat v.w (be key / 2 ^ (v.w * i)) := by
  apply BitVec.eq_of_toNat_eq
  rw [keyWord_toNat v key i hkey hi, BitVec.toNat_ofNat]

theorem expand_early (c : Config) (v : Variant) (key : Bytes) (hwf : c.wf = true) (hkey : key.length = v.keyBytes) :
    ((expand c v key).take 2).map BitVec.toNat = earlyKeys v.w (be key) := by
  have hm := v.m_bounds
  have ht := c.t_bounds hwf v
  have h0 := keyWord_eq_ofNat v key 0 hkey (by omega)
  have h1 := keyWord_eq_ofNat v key 1 hkey (by omega)
  rw [Nat.mul_zero, pow_zero, Nat.div_one] at h0
  rw [Nat.mul_one] at h1
  rw [take_expand c v key 2 (by omega) (by omega)]
  simp [List.range_succ, roundKey_start, roundKey_one, h0, h1, earlyKeys, Variant.alpha, Variant.beta]

/-- Only the last two words of a key count for `K_0` and `K_1` (R107). -/
theorem earlyKeys_mod (w n : Nat) : earlyKeys w (n % 2 ^ (2 * w)) = earlyKeys w n := by
  have hsq : 2 ^ (2 * w) = 2 ^ w * 2 ^ w := by rw [two_mul, pow_add]
  have h0 : BitVec.ofNat w (n % 2 ^ (2 * w)) = BitVec.ofNat w n := by
    rw [← ofNat_mod_self w (n % _), hsq, Nat.mod_mul_right_mod, ofNat_mod_self]
  have h1 : BitVec.ofNat w (n % 2 ^ (2 * w) / 2 ^ w) = BitVec.ofNat w (n / 2 ^ w) := by
    rw [hsq, Nat.mod_mul_right_div_self, ofNat_mod_self]
  simp only [earlyKeys, h0, h1]

/-- Settles O18: the first three round keys of the zero key step by step, and `K_0`, `K_1` through `earlyKeys`, which two
variants of one word size share. -/
theorem earlyRoundKeys : Obligations.EarlyRoundKeys := by
  unfold Obligations.EarlyRoundKeys
  refine ⟨fun c v hwf => ?_, fun c v1 v2 a b hwf hw ha hb hab => ?_⟩
  · have hm := v.m_bounds
    have ht := c.t_bounds hwf v
    rw [take_expand c v _ 3 (by omega) (by omega)]
    simp [List.range_succ, roundKey_start, keyWord_zeros v 0 (by omega), roundKey_one_zeros, roundKey_two_zeros]
  · rw [expand_early c v1 a hwf ha, expand_early c v2 b hwf hb, ← earlyKeys_mod v1.w, hab, hw, earlyKeys_mod]

end Sys2Proof.Machine
end

