-- ==== Sys2Proof/Proofs/Indistinguishable.lean ====
section
/-! SUPPORT. Two states that agree on what the host can observe behave alike (spec 10_state.md R43): what a command reports is a
function of the parameters, the input buffers and the logical round keys of valid slots. -/

namespace Sys2Proof.Machine

/-! ## What a command reports -/

/-- The status and the outputs a command ends with, and the slot it writes, if any. -/
structure Report where
  status : Status
  out : OutBufs
  write : Option (Nat × Slot)

/-- The report of a failed command (R214). -/
def Report.failed (st : Status) : Report := { status := st, out := OutBufs.empty, write := none }

/-- The report of a command that ends with `OK` and writes no slot. -/
def Report.done (o : OutBufs) : Report := { status := .ok, out := o, write := none }

/-- The slot store after a report. -/
def Report.store (r : Report) (slots : List Slot) : List Slot :=
  match r.write with
  | some (n, sl) => slots.set n sl
  | none => slots

/-- `schedule` on a store of `nslot` slots (R104). -/
def scheduleReport (c : Config) (inp : InBufs) (nslot : Nat) (var slot : BitVec 4) : Report :=
  if nslot ≤ slot.toNat then .failed .illegalCommand else
  match Variant.ofCode var with
  | none => .failed .unknownVariant
  | some v =>
    if inp.key.length ≠ v.keyBytes then .failed .invalidKeySize
    else { status := .ok, out := OutBufs.empty
           write := some (slot.toNat, { valid := true, var := v, rk := (expandRegs c v inp.key Work.reset).2 }) }

/-- `release` on a store of `nslot` slots (R106). -/
def releaseReport (nslot : Nat) (slot : BitVec 4) : Report :=
  if nslot ≤ slot.toNat then .failed .illegalCommand
  else { status := .ok, out := OutBufs.empty, write := some (slot.toNat, Slot.empty) }

/-- A block command on the slot it names, if there is one (R124, R125). -/
def blockReport (crypt : (v : Variant) → List (BitVec v.w) → Bytes → Bytes) (c : Config) (inp : InBufs) :
    Option Slot → Report
  | none => .failed .illegalCommand
  | some sl =>
    if sl.valid then
      if inp.block.length ≠ sl.var.blockBytes then .failed .invalidBlockSize
      else .done { OutBufs.empty with block := crypt sl.var (storedKeys c sl.var sl.rk) inp.block }
    else .failed .noSchedule

/-- A stream command after its checks (R141). -/
def streamReport (inp : InBufs) (var : BitVec 4) (run : Variant → Report) : Report :=
  match streamChecks var inp with
  | .error st => .failed st
  | .ok v => run v

/-- `aead_encrypt` on operands that pass the checks (R183). -/
def sealReport (c : Config) (inp : InBufs) (v : Variant) : Report :=
  .done { OutBufs.empty with
    data := ctrStream v (expand c v inp.key) inp.nonce 1 inp.data
    tag := aeadTag c.uhash v (expand c v inp.key) inp.nonce inp.aad
      (ctrStream v (expand c v inp.key) inp.nonce 1 inp.data) }

/-- `aead_decrypt` on operands that pass the checks (R184, R187). -/
def openReport (c : Config) (inp : InBufs) (v : Variant) : Report :=
  if inp.tag = aeadTag c.uhash v (expand c v inp.key) inp.nonce inp.aad inp.data then
    .done { OutBufs.empty with data := ctrStream v (expand c v inp.key) inp.nonce 1 inp.data }
  else .failed .authenticationFailed

/-- `variant_info` (R93). -/
def infoReport (c : Config) (var : BitVec 4) : Report :=
  match Variant.ofCode var with
  | none => .failed .unknownVariant
  | some v => .done { OutBufs.empty with info := infoBytes (params c v) }

/-- What each command within the length limits reports, from what the host can observe. -/
def report (i : Instr) (c : Config) (inp : InBufs) (slots : List Slot) : Report :=
  match i with
  | .variantInfo var => infoReport c var
  | .schedule var slot => scheduleReport c inp slots.length var slot
  | .release slot => releaseReport slots.length slot
  | .encryptBlock slot => blockReport encrypt c inp slots[slot.toNat]?
  | .decryptBlock slot => blockReport decrypt c inp slots[slot.toNat]?
  | .ctrCrypt var => streamReport inp var fun v =>
      .done { OutBufs.empty with data := ctrStream v (expand c v inp.key) inp.nonce 0 inp.data }
  | .aeadEncrypt var => streamReport inp var (sealReport c inp)
  | .aeadDecrypt var => streamReport inp var (openReport c inp)

/-- The state after a command that reported `r`. -/
def State.after (s : State) (r : Report) : State := s.ended r.status r.out (r.store s.slots)

/-! ## Commands report -/

section
variable {s : State}

theorem execVariantInfo_report (var : BitVec 4) : execVariantInfo var s = .next (s.after (infoReport s.cfg var)) := by
  rcases execVariantInfo_cases var s with ⟨hc, e⟩ | ⟨v, hc, e⟩ <;> rw [e, infoReport, hc] <;> rfl

/-- The schedule the registers compute does not depend on what they held before (R100, R103). -/
theorem expandRegs_keys_congr {c : Config} (hwf : c.wf = true) (v : Variant) (key : Bytes) (wk wk' : Work) :
    (expandRegs c v key wk).2 = (expandRegs c v key wk').2 := by
  have ht := c.t_bounds hwf v
  rw [← Vector.toList_inj, expandRegs_keys c v key wk (by omega) ht.2, expandRegs_keys c v key wk' (by omega) ht.2]

theorem execSchedule_report (hwf : s.cfg.wf = true) (var slot : BitVec 4) :
    execSchedule var slot s = .next (s.after (scheduleReport s.cfg s.inp s.nslot var slot)) := by
  have hkeys := fun v => expandRegs_keys_congr hwf v s.inp.key { s.work with phase := .expand } Work.reset
  rcases execSchedule_cases var slot s with
    ⟨hs, e⟩ | ⟨hs, hc, e⟩ | ⟨v, hs, hc, hk, e⟩ | ⟨v, hs, hc, hk, e⟩ <;> rw [e, scheduleReport]
  · rw [if_pos hs]; rfl
  · rw [if_neg (Nat.not_le.mpr hs), hc]; rfl
  · rw [if_neg (Nat.not_le.mpr hs), hc]; simp only [ne_eq, hk, not_false_eq_true, if_true]; rfl
  · rw [if_neg (Nat.not_le.mpr hs), hc, hkeys]; simp only [ne_eq, hk, not_true_eq_false, if_false]; rfl

theorem execRelease_report (slot : BitVec 4) :
    execRelease slot s = .next (s.after (releaseReport s.nslot slot)) := by
  rcases execRelease_cases slot s with ⟨hs, e⟩ | ⟨hs, e⟩ <;> rw [e, releaseReport]
  · rw [if_pos hs]; rfl
  · rw [if_neg (Nat.not_le.mpr hs)]; rfl

theorem blockCommand_report {run : Config → Variant → RoundKeys → Work → Work}
    {crypt : (v : Variant) → List (BitVec v.w) → Bytes → Bytes}
    (hrun : ∀ v rk wk b, storeXY v (run s.cfg v rk (loadXY v b wk)) = crypt v (storedKeys s.cfg v rk) b)
    (slot : BitVec 4) :
    blockCommand slot run s = .next (s.after (blockReport crypt s.cfg s.inp s.slots[slot.toNat]?)) := by
  rcases blockCommand_ends slot run s with ⟨hsl, e⟩ | ⟨sl, hsl, hv, e⟩ | ⟨sl, hsl, hv, hb, e⟩ | ⟨sl, hsl, hv, hb, e⟩
  · rw [e, hsl]; rfl
  · rw [e, hsl]; simp only [blockReport, hv, Bool.false_eq_true, if_false]; rfl
  · rw [e, hsl]; simp only [blockReport, hv, ne_eq, hb, not_false_eq_true, if_true]; rfl
  · rw [e, hsl, hrun]; simp only [blockReport, hv, ne_eq, hb, not_true_eq_false, if_true, if_false]; rfl

theorem streamReport_error {var : BitVec 4} {inp : InBufs} {st : Status} (h : streamChecks var inp = .error st)
    (run : Variant → Report) : streamReport inp var run = .failed st := by
  simp only [streamReport, h]

theorem streamReport_ok {var : BitVec 4} {inp : InBufs} {v : Variant} (h : streamChecks var inp = .ok v)
    (run : Variant → Report) : streamReport inp var run = run v := by
  simp only [streamReport, h]

theorem execCtrCrypt_report (hwf : s.cfg.wf = true) (var : BitVec 4) (hlen : s.dataTooLong = false) :
    execCtrCrypt var s = .next (s.after (report (.ctrCrypt var) s.cfg s.inp s.slots)) := by
  rcases execCtrCrypt_cases var s with ⟨hlong, -⟩ | ⟨-, st, hst, e⟩ | ⟨-, v, hv, e⟩
  · simp [hlen] at hlong
  · rw [e, report, streamReport_error hst]; rfl
  · rw [e, report, streamReport_ok hv, s.cryptPhase_expandIntoTK_data v 0 hwf]; rfl

theorem execAeadEncrypt_report (hwf : s.cfg.wf = true) (var : BitVec 4) (hlen : (s.dataTooLong || s.aadTooLong) = false) :
    execAeadEncrypt var s = .next (s.after (report (.aeadEncrypt var) s.cfg s.inp s.slots)) := by
  rcases execAeadEncrypt_cases var s with ⟨hlong, -⟩ | ⟨-, st, hst, e⟩ | ⟨-, v, hv, e⟩
  · simp [hlen] at hlong
  · rw [e, report, streamReport_error hst]; rfl
  · have ht := s.cfg.t_bounds hwf v
    rw [e, report, streamReport_ok hv, s.begin.sealPhases_out v (by rw [State.begin_cfg]; omega) ht.2]
    rfl

theorem execAeadDecrypt_report (hwf : s.cfg.wf = true) (var : BitVec 4) (hlen : (s.dataTooLong || s.aadTooLong) = false) :
    execAeadDecrypt var s = .next (s.after (report (.aeadDecrypt var) s.cfg s.inp s.slots)) := by
  have hrejected : ∀ {v}, s.inp.tag ≠ s.expectedTag v → openReport s.cfg s.inp v = .failed .authenticationFailed :=
    fun h => if_neg h
  have haccepted : ∀ {v}, s.inp.tag = s.expectedTag v → openReport s.cfg s.inp v = .done { OutBufs.empty with
      data := ctrStream v (expand s.cfg v s.inp.key) s.inp.nonce 1 s.inp.data } := fun h => if_pos h
  rcases execAeadDecrypt_cases var s with
    ⟨hlong, -⟩ | ⟨-, st, hst, e⟩ | ⟨-, v, hv, htag, e⟩ | ⟨-, v, hv, htag, hbad, e⟩ | ⟨-, v, hv, htag, hok, e⟩
  · simp [hlen] at hlong
  · rw [e, report, streamReport_error hst]; rfl
  · rw [e, report, streamReport_ok hv, hrejected fun h => htag (h ▸ aeadTag_length ..)]; rfl
  · rw [e, report, streamReport_ok hv, hrejected fun h =>
      Bool.false_ne_true (hbad.symm.trans ((s.verifyPhases_tagok_iff v hwf htag).mpr h))]
    rfl
  · rw [e, report, streamReport_ok hv, haccepted ((s.verifyPhases_tagok_iff v hwf htag).mp hok),
      s.cryptPhase_verifyPhases_data v hwf]
    rfl

end

/-- Within the length limits, a command's next state is given by its report. -/
theorem exec_report {s : State} (hwf : s.cfg.wf = true) {i : Instr} (hlen : withinMaxlen i s = true) :
    exec i s = .next (s.after (report i s.cfg s.inp s.slots)) := by
  have ht := fun v => (s.cfg.t_bounds hwf v).2
  cases i with
  | variantInfo var => exact execVariantInfo_report var
  | schedule var slot => exact execSchedule_report hwf var slot
  | release slot => exact execRelease_report slot
  | encryptBlock slot => exact blockCommand_report (fun v rk wk b => storeXY_encryptXY s.cfg v rk wk b (ht v)) slot
  | decryptBlock slot => exact blockCommand_report (fun v rk wk b => storeXY_decryptXY s.cfg v rk wk b (ht v)) slot
  | ctrCrypt var => exact execCtrCrypt_report hwf var (by simpa [withinMaxlen] using hlen)
  | aeadEncrypt var => exact execAeadEncrypt_report hwf var (by simpa [withinMaxlen] using hlen)
  | aeadDecrypt var => exact execAeadDecrypt_report hwf var (by simpa [withinMaxlen] using hlen)

/-! ## Alike slot stores -/

/-- Two slot stores the host cannot tell apart (R43). -/
def SlotsAlike (c : Config) (l l' : List Slot) : Prop :=
  l.length = l'.length ∧ ∀ (n : Nat) (a b : Slot), l[n]? = some a → l'[n]? = some b → Slot.Alike c a b

theorem Slot.Alike.refl (c : Config) (a : Slot) : Slot.Alike c a a := ⟨rfl, fun _ => ⟨rfl, fun _ _ => rfl⟩⟩

theorem SlotsAlike.refl (c : Config) (l : List Slot) : SlotsAlike c l l :=
  ⟨rfl, fun _ a _ ha hb => Option.some.inj (ha.symm.trans hb) ▸ Slot.Alike.refl c a⟩

/-- At each number alike stores have no slot, or alike slots. -/
theorem SlotsAlike.getElem?_cases {c : Config} {l l' : List Slot} (h : SlotsAlike c l l') (n : Nat) :
    (l[n]? = none ∧ l'[n]? = none) ∨ ∃ a b, l[n]? = some a ∧ l'[n]? = some b ∧ Slot.Alike c a b := by
  obtain ⟨hlen, hslots⟩ := h
  by_cases hn : n < l.length
  · have ha := List.getElem?_eq_getElem hn
    have hb := List.getElem?_eq_getElem (hlen ▸ hn)
    exact .inr ⟨_, _, ha, hb, hslots n _ _ ha hb⟩
  · have hn' := Nat.le_of_not_lt hn
    exact .inl ⟨List.getElem?_eq_none hn', List.getElem?_eq_none (hlen ▸ hn')⟩

/-- Writing one slot into both keeps two stores alike. -/
theorem SlotsAlike.set {c : Config} {l l' : List Slot} (h : SlotsAlike c l l') (n : Nat) (sl : Slot) :
    SlotsAlike c (l.set n sl) (l'.set n sl) := by
  refine ⟨by simpa using h.1, fun k a b ha hb => ?_⟩
  by_cases hk : n = k
  · subst hk
    obtain ⟨_, rfl⟩ := List.getElem?_eq_some_iff.mp ha
    obtain ⟨_, rfl⟩ := List.getElem?_eq_some_iff.mp hb
    rw [List.getElem_set_self, List.getElem_set_self]
    exact Slot.Alike.refl c sl
  · rw [List.getElem?_set_ne hk] at ha hb
    exact h.2 k a b ha hb

/-- A block command cannot tell alike slots apart: it reads the logical round keys of valid slots only (R43, R124). -/
theorem blockReport_alike {c : Config} {a b : Slot} (h : Slot.Alike c a b)
    (crypt : (v : Variant) → List (BitVec v.w) → Bytes → Bytes) (inp : InBufs) :
    blockReport crypt c inp (some a) = blockReport crypt c inp (some b) := by
  obtain ⟨valid, var, rk⟩ := a
  obtain ⟨valid', var', rk'⟩ := b
  obtain ⟨hvalid, hkeys⟩ := h
  dsimp only at hvalid hkeys
  subst hvalid
  cases valid with
  | false => rfl
  | true =>
    obtain ⟨rfl, hrk⟩ := hkeys rfl
    have hstored : storedKeys c var rk = storedKeys c var rk' :=
      List.map_congr_left fun i hi => hrk i (List.mem_range.mp hi)
    simp only [blockReport, hstored]

theorem blockReport_alike_at {c : Config} {l l' : List Slot} (h : SlotsAlike c l l')
    (crypt : (v : Variant) → List (BitVec v.w) → Bytes → Bytes) (inp : InBufs) (n : Nat) :
    blockReport crypt c inp l[n]? = blockReport crypt c inp l'[n]? := by
  rcases h.getElem?_cases n with ⟨ha, hb⟩ | ⟨a, b, ha, hb, hab⟩
  · rw [ha, hb]
  · rw [ha, hb]
    exact blockReport_alike hab crypt inp

/-- A command reports the same on alike slot stores (R43). -/
theorem report_alike {c : Config} {l l' : List Slot} (h : SlotsAlike c l l') (i : Instr) (inp : InBufs) :
    report i c inp l = report i c inp l' := by
  cases i with
  | schedule | release => simp only [report, h.1]
  | encryptBlock | decryptBlock => exact blockReport_alike_at h _ inp _
  | variantInfo | ctrCrypt | aeadEncrypt | aeadDecrypt => rfl

/-! ## Alike states -/

theorem State.Alike.slotsAlike {s t : State} (h : s.Alike t) : SlotsAlike s.cfg s.slots t.slots := ⟨h.nslot, h.slots⟩

/-- Alike states stay alike when a command ends in both with one status, one output and alike slots. -/
theorem State.Alike.ended {s t : State} (h : s.Alike t) (st : Status) (o : OutBufs) {l l' : List Slot}
    (hl : SlotsAlike s.cfg l l') : (s.ended st o l).Alike (t.ended st o l') :=
  ⟨h.cfg, hl.1, hl.2, rfl, h.inp, rfl, h.host, h.reply⟩

theorem State.Alike.after {s t : State} (h : s.Alike t) (r : Report) : (s.after r).Alike (t.after r) := by
  refine h.ended r.status r.out ?_
  obtain ⟨st, o, _ | ⟨n, sl⟩⟩ := r
  · exact h.slotsAlike
  · exact h.slotsAlike.set n sl

theorem State.Alike.withinMaxlen_eq {s t : State} (h : s.Alike t) (i : Instr) : withinMaxlen i s = withinMaxlen i t := by
  cases i <;> simp only [withinMaxlen, State.dataTooLong, State.aadTooLong, h.cfg, h.inp]

/-- A command has the same outcome in alike states: both are refused, or their reports agree. -/
theorem exec_alike {s t : State} (hwf : s.cfg.wf = true) (h : s.Alike t) (i : Instr) :
    SameOutcome (exec i s) (exec i t) := by
  cases hlen : withinMaxlen i s with
  | false =>
    rw [exec_of_tooLong hlen, exec_of_tooLong (h.withinMaxlen_eq i ▸ hlen)]
    rfl
  | true =>
    rw [exec_report hwf hlen, exec_report (h.cfg ▸ hwf) (h.withinMaxlen_eq i ▸ hlen), ← h.cfg, ← h.inp,
      ← report_alike h.slotsAlike]
    exact h.after _

theorem issue_alike {s t : State} (hwf : s.cfg.wf = true) (h : s.Alike t) (c : CmdWord) :
    SameOutcome (issue c s) (issue c t) := by
  cases hc : decode c with
  | error e =>
    rw [issue_error hc, issue_error hc]
    exact h.ended .illegalCommand _ h.slotsAlike
  | ok i =>
    rw [issue_ok hc, issue_ok hc]
    exact exec_alike hwf h i

/-- Alike slots have the same view (R28). -/
theorem Slot.Alike.info_eq {c : Config} {a b : Slot} (h : Slot.Alike c a b) : a.info = b.info := by
  obtain ⟨hvalid, hvar⟩ := h
  rw [Slot.info, Slot.info, ← hvalid]
  cases hv : a.valid with
  | false => rfl
  | true => rw [(hvar hv).1]

/-- A register reads the same in alike states (R26, R28). -/
theorem readRegister_alike {s t : State} (h : s.Alike t) (n : Nat) : readRegister n s = readRegister n t := by
  have hinfo : s.slots[n - 16]?.map Slot.info = t.slots[n - 16]?.map Slot.info := by
    rcases h.slotsAlike.getElem?_cases (n - 16) with ⟨ha, hb⟩ | ⟨a, b, ha, hb, hab⟩
    · rw [ha, hb]
    · rw [ha, hb]
      exact congrArg some hab.info_eq
  simp only [readRegister, h.status, h.nslot, hinfo]

/-- Every access has the same outcome in alike states. -/
theorem serve_alike {s t : State} (hwf : s.cfg.wf = true) (h : s.Alike t) (r : HostReq) :
    SameOutcome (serve r s) (serve r t) := by
  cases r with
  | writeReg n v =>
    by_cases hn : n = 0
    · subst hn; exact issue_alike hwf h v
    · simp only [serve, writeRegister, hn, if_false, h.nslot]
      split_ifs <;> rfl
  | readReg n =>
    cases hr : readRegister n s with
    | error e => rw [serve_readReg_error hr, serve_readReg_error (readRegister_alike h n ▸ hr)]; rfl
    | ok v =>
      rw [serve_readReg_ok hr, serve_readReg_ok (readRegister_alike h n ▸ hr)]
      exact ⟨h.cfg, h.nslot, h.slots, h.status, h.inp, h.out, h.host, rfl⟩
  | fill b x => exact ⟨h.cfg, h.nslot, h.slots, h.status, congrArg (InBufs.fill · b x) h.inp, h.out, h.host, h.reply⟩
  | readOut b =>
    exact ⟨h.cfg, h.nslot, h.slots, h.status, h.inp, h.out, h.host, congrArg (fun o => Reply.bytes (o.get b)) h.out⟩
  | reset =>
    have hslots := SlotsAlike.refl s.cfg (List.replicate s.nslot Slot.empty)
    have hstore : t.resetEvent.slots = List.replicate s.nslot Slot.empty := by rw [State.resetEvent_slots, h.nslot]
    exact ⟨h.cfg, by rw [State.nslot, State.nslot, hstore]; rfl, by rw [hstore]; exact hslots.2, rfl, rfl, rfl, h.host,
      h.reply⟩

/-- A step has the same outcome in alike states: the same access is pending (R43). -/
theorem step_alike {s t : State} (hwf : s.cfg.wf = true) (h : s.Alike t) : SameOutcome (step s) (step t) := by
  cases hs : s.host with
  | nil =>
    rw [step_idle s hs, step_idle t (h.host ▸ hs)]
    exact h
  | cons r rest =>
    rw [step_cons s r rest hs, step_cons t r rest (h.host ▸ hs)]
    exact serve_alike (s := { s with host := rest }) (t := { t with host := rest }) hwf
      ⟨h.cfg, h.nslot, h.slots, h.status, h.inp, h.out, rfl, h.reply⟩ r

/-! ## Runs -/

/-- No command word changes the parameters (R22; log 1). -/
theorem issue_cfg {c : CmdWord} {s t : State} (h : issue c s = .next t) : t.cfg = s.cfg := by
  cases hc : decode c with
  | error e => cases (issue_error hc s).symm.trans h; rfl
  | ok i => exact (exec_frame ((issue_ok hc s).symm.trans h)).1

/-- No access changes the parameters. -/
theorem serve_cfg {r : HostReq} {s t : State} (h : serve r s = .next t) : t.cfg = s.cfg := by
  cases r with
  | writeReg n v => exact issue_cfg (writeRegister_next h).2
  | readReg n =>
    simp only [serve] at h
    split at h <;> cases h
    rfl
  | fill | readOut | reset => cases h; rfl

/-- No step changes the parameters. -/
theorem step_cfg {s t : State} (h : step s = .next t) : t.cfg = s.cfg := by
  cases hs : s.host with
  | nil => cases (step_idle s hs).symm.trans h; rfl
  | cons r rest => exact serve_cfg (s := { s with host := rest }) ((step_cons s r rest hs).symm.trans h)

/-- Settles O56: `step_alike` for every step of the run; alike next states go on, and a refusal stops both. -/
theorem alikeStatesIndistinguishable : Obligations.AlikeStatesIndistinguishable := by
  unfold Obligations.AlikeStatesIndistinguishable
  intro k
  induction k with
  | zero => exact fun s t _ h => h
  | succ k ih =>
    intro s t hwf h
    have hstep := step_alike hwf h
    cases hs : step s with
    | fault f => cases f
    | next s' =>
      cases ht : step t with
      | fault f => cases f
      | refused q => rw [hs, ht] at hstep; exact hstep.elim
      | next t' =>
        rw [hs, ht] at hstep
        rw [core_run_next k s s' hs, core_run_next k t t' ht]
        exact ih s' t' (step_cfg hs ▸ hwf) hstep
    | refused q =>
      cases ht : step t with
      | fault f => cases f
      | next t' => rw [hs, ht] at hstep; exact hstep.elim
      | refused q' =>
        rw [hs, ht] at hstep
        rw [core_run_refused k s q hs, core_run_refused k t q' ht]
        exact hstep

end Sys2Proof.Machine
end

