-- ==== Sys2Proof/Proofs/StreamLaws.lean ====
section
/-! SUPPORT. What counter mode keeps: a stream is its own inverse and is cut and shifted with its data (spec 43_ctr.md R147),
different counters give different streams (R149), and the streams of an AEAD command overlap (45_aead.md R189,
70_reset_and_hazards.md R244, R245). -/

namespace Sys2Proof.Machine

/-! ## Self-inverse, truncation, shift -/

/-- A stream is its own inverse: each byte meets its keystream byte twice (R147). -/
theorem ctrStream_ctrStream (v : Variant) (ks : List (BitVec v.w)) (nonce : Bytes) (t : Nat) (d : Bytes) :
    ctrStream v ks nonce t (ctrStream v ks nonce t d) = d := by
  apply List.ext_getElem
  · simp
  · intro p hp hp'
    simp only [ctrStream, List.getElem_mapIdx, BitVec.xor_assoc, BitVec.xor_self, BitVec.xor_zero]

/-- The stream of the first bytes is the first bytes of the stream (R147). -/
theorem take_ctrStream (v : Variant) (ks : List (BitVec v.w)) (nonce : Bytes) (t : Nat) (d : Bytes) (q : Nat) :
    (ctrStream v ks nonce t d).take q = ctrStream v ks nonce t (d.take q) := by
  apply List.ext_getElem
  · simp
  · intro p hp hp'
    simp only [ctrStream, List.getElem_mapIdx, List.getElem_take]

/-- Starting one block later is the stream of the next counter block (R147). -/
theorem ctrStream_succ (v : Variant) (ks : List (BitVec v.w)) (nonce : Bytes) (t : Nat) (d : Bytes) :
    ctrStream v ks nonce (t + 1) d = ctrStream v ks (ctrBlock v nonce 1) t d := by
  rw [← ctrStream_ctrBlock v ks (ctrBlock v nonce 1) t, ctrBlock_ctrBlock, Nat.add_comm 1, ctrStream_ctrBlock]

/-- Settles O30: `ctrStream_ctrStream`, `take_ctrStream` and `ctrStream_succ`. -/
theorem streamProperties : Obligations.StreamProperties := by
  unfold Obligations.StreamProperties
  intro v ks nonce t d
  exact ⟨ctrStream_ctrStream v ks nonce t d, fun q _ => take_ctrStream v ks nonce t d q,
    fun _ => ctrStream_succ v ks nonce t d⟩

/-- Settles O33: `ctr_crypt` on ready operands is the stream, and stays ready with its output for data. -/
theorem ctrCryptSelfInverse : Obligations.CtrCryptSelfInverse := by
  unfold Obligations.CtrCryptSelfInverse
  intro s v h
  refine ⟨_, _, execCtrCrypt_ok s v h, ctrStream_length .., execCtrCrypt_ok _ v ?ready, rfl, ctrStream_ctrStream ..⟩
  exact ⟨h.cfg, h.capable, h.key, h.nonce, (ctrStream_length ..).trans_le h.data⟩

/-! ## Different counters -/

/-- The first block of a stream is the first block of the data XOR the first keystream block (R145, R151). -/
theorem ctrStream_getD_first (v : Variant) (ks : List (BitVec v.w)) (nonce : Bytes) (t : Nat) (d : Bytes) {p : Nat}
    (hp : p < v.blockBytes) (hd : v.blockBytes ≤ d.length) :
    ((ctrStream v ks nonce t d).take v.blockBytes).getD p 0 = d.getD p 0 ^^^ (encrypt v ks (ctrBlock v nonce t)).getD p 0 := by
  have hbyte := ctrStream_getD v ks nonce t d p (by omega)
  rw [Nat.div_eq_of_lt hp, Nat.mod_eq_of_lt hp, keystreamBlock, Nat.add_zero] at hbyte
  rw [← hbyte, List.getD_eq_getElem?_getD, List.getElem?_take_of_lt hp, List.getD_eq_getElem?_getD]

/-- `Encrypt` under one schedule is one to one on blocks (R129). -/
theorem encrypt_injective (v : Variant) (ks : List (BitVec v.w)) {a b : Bytes} (ha : a.length = v.blockBytes)
    (hb : b.length = v.blockBytes) (h : encrypt v ks a = encrypt v ks b) : a = b := by
  rw [← decrypt_encrypt v ks a ha, h, decrypt_encrypt v ks b hb]

theorem ctrBlock_length (v : Variant) (nonce : Bytes) (j : Nat) : (ctrBlock v nonce j).length = v.blockBytes :=
  beBytes_length _ _

/-- Streams of one string with the same first block come from the same counter block. -/
theorem ctrBlock_eq_of_first_block_eq (v : Variant) (ks : List (BitVec v.w)) {n1 n2 : Bytes} {t1 t2 : Nat} {d : Bytes}
    (hd : v.blockBytes ≤ d.length)
    (h : (ctrStream v ks n1 t1 d).take v.blockBytes = (ctrStream v ks n2 t2 d).take v.blockBytes) :
    ctrBlock v n1 t1 = ctrBlock v n2 t2 := by
  refine encrypt_injective v ks (ctrBlock_length ..) (ctrBlock_length ..) (List.ext_getElem ?_ fun p hp hp' => ?_)
  · rw [encrypt_length, encrypt_length]
  · have hpB : p < v.blockBytes := by rwa [encrypt_length] at hp
    have hbyte := congrArg (fun s : Bytes => s.getD p 0) h
    simp only [ctrStream_getD_first v ks _ _ d hpB hd, BitVec.xor_right_inj] at hbyte
    rwa [List.getD_eq_getElem _ _ hp, List.getD_eq_getElem _ _ hp'] at hbyte

/-- Settles O31: equal first blocks would give equal counter blocks, and so equal counters. -/
theorem distinctCountersDistinctStreams : Obligations.DistinctCountersDistinctStreams := by
  unfold Obligations.DistinctCountersDistinctStreams
  intro v ks n1 n2 t1 t2 d _ _ hd hne h
  have hcounter := congrArg be (ctrBlock_eq_of_first_block_eq v ks hd h)
  rw [be_ctrBlock, be_ctrBlock] at hcounter
  exact hne hcounter

/-! ## The streams of an AEAD command -/

/-- Settles O45: byte `B + p` of the subkey and byte `p` of the data meet the same byte of keystream block `1 + p div B`. -/
theorem subkeyOverlapsDataKeystream : Obligations.SubkeyOverlapsDataKeystream := by
  unfold Obligations.SubkeyOverlapsDataKeystream
  intro v ks nonce pt p hp h32
  have hzero : (zeros 32).getD (v.blockBytes + p) 0 = 0 := List.getElem?_getD_replicate_default_eq _ 32 _
  rw [ctrStream_getD v ks nonce 0 (zeros 32) _ (by rwa [zeros_length]), ctrStream_getD v ks nonce 1 pt p hp, hzero,
    Nat.add_mod_left, Nat.add_div_left _ v.blockBytes_pos, keystreamBlock, keystreamBlock, ← BitVec.xor_assoc,
    BitVec.xor_self, Nat.zero_add, Nat.add_comm 1]
  rfl

theorem mem_streamRange (v : Variant) (nonce : Bytes) (t n c : Nat) :
    c ∈ streamRange v nonce t n ↔
      ∃ j < (n + v.blockBytes - 1) / v.blockBytes, (be nonce + (t + j)) % 2 ^ (2 * v.w) = c := by
  simp only [streamRange, List.mem_map, List.mem_range]

theorem mem_aeadRange (v : Variant) (nonce : Bytes) (n c : Nat) :
    c ∈ aeadRange v nonce n ↔
      ∃ j < max (32 / v.blockBytes) (1 + (n + v.blockBytes - 1) / v.blockBytes), (be nonce + j) % 2 ^ (2 * v.w) = c := by
  simp only [aeadRange, List.mem_map, List.mem_range]

/-- The subkey takes `32 / B` counters, at least one (R140, R181). -/
theorem subkey_blocks (v : Variant) (h : v.streamCapable = true) :
    (32 + v.blockBytes - 1) / v.blockBytes = 32 / v.blockBytes ∧ 1 ≤ 32 / v.blockBytes := by
  revert h
  cases v <;> decide

/-- Settles O46: the subkey's counters are the offsets 0 to `32 / B - 1`, the data's the offsets from 1 on, so together they
have no gap. -/
theorem aeadCounterRange : Obligations.AeadCounterRange := by
  unfold Obligations.AeadCounterRange
  intro v nonce n c hv
  obtain ⟨hsubkey, hone⟩ := subkey_blocks v hv
  rw [mem_aeadRange, mem_streamRange, mem_streamRange, hsubkey]
  constructor
  · rintro ⟨j, hj, rfl⟩
    by_cases hj' : j < 32 / v.blockBytes
    · exact .inl ⟨j, hj', by rw [Nat.zero_add]⟩
    · exact .inr ⟨j - 1, by omega, by rw [Nat.add_sub_cancel' (by omega)]⟩
  · rintro (⟨j, hj, rfl⟩ | ⟨j, hj, rfl⟩)
    · exact ⟨j, by omega, by rw [Nat.zero_add]⟩
    · exact ⟨1 + j, by omega, rfl⟩

end Sys2Proof.Machine
end

