-- ==== Sys2Proof/Proofs/HashAndTags.lean ====
section
/-! SUPPORT. The hash parameter unit by unit and the corners of the default hash (spec 44_mac.md R163, R164, R169), the tag
comparison (45_aead.md R186), and the round trip of the AEAD commands (R191). -/

namespace Sys2Proof.Machine

/-! ## The hash -/

theorem flatten_length_of_units {n : Nat} {us : List Bytes} (h : ∀ u ∈ us, u.length = n) :
    us.flatten.length = us.length * n := by
  induction us with
  | nil => simp
  | cons u us ih =>
    rw [List.flatten_cons, List.length_append, h u List.mem_cons_self, ih fun x hx => h x (List.mem_cons_of_mem u hx),
      List.length_cons, Nat.succ_mul, Nat.add_comm]

/-- Settles O34: `macFinal_units` on a message that is cut into the units it was joined from. -/
theorem hashIsAbsorbedUnitByUnit : Obligations.HashIsAbsorbedUnitByUnit := by
  unfold Obligations.HashIsAbsorbedUnitByUnit
  intro h key us hus
  have hfinal := macFinal_units h key us.flatten us.length (flatten_length_of_units hus)
  rw [pieces_flatten 16 (by norm_num) us hus] at hfinal
  exact ⟨hfinal.symm, uhash_length h key _⟩

/-! ## The default hash -/

theorem le_zeros (n : Nat) : le (zeros n) = 0 := by
  induction n with
  | zero => rfl
  | succ n ih => simpa [zeros, List.replicate_succ, le] using ih

/-- The default hash under a subkey of two 16-byte halves: the multiplier and the addend (R168). -/
theorem poly1305_halves (r a msg : Bytes) (hr : r.length = 16) (ha : a.length = 16) :
    poly1305 (r ++ a) msg = leBytes 16
      ((poly1305From (BitVec.ofNat 128 (le r) &&& polyMask).toNat 0 (pieces 16 msg) + le a) % 2 ^ 128) := by
  have hmul : memRead (r ++ a) 0 16 = r := by rw [memRead, List.drop_zero, List.take_left' hr]
  have hadd : memRead (r ++ a) 16 16 = a := by rw [memRead, List.drop_left' hr, List.take_of_length_le ha.le]
  rw [poly1305, hmul, hadd]

/-- Under a zero multiplier every unit leaves the running value at 0 (R169). -/
theorem poly1305From_zero (us : List Bytes) : poly1305From 0 0 us = 0 := by
  induction us with
  | nil => rfl
  | cons u us ih => simpa [poly1305From] using ih

/-- 16 bytes come back from their number (R11). -/
theorem leBytes_le_mod {a : Bytes} (ha : a.length = 16) : leBytes 16 (le a % 2 ^ 128) = a := by
  have hlt := le_lt a
  have hle := leBytes_le a
  rw [ha] at hlt hle
  rw [Nat.mod_eq_of_lt (show le a < 2 ^ 128 from hlt), hle]

/-- With a zero multiplier the tag is the addend (R169). -/
theorem uhash_zero_multiplier (a msg : Bytes) (ha : a.length = 16) : uhash .poly1305 (zeros 16 ++ a) msg = a := by
  have hmask : (BitVec.ofNat 128 0 &&& polyMask).toNat = 0 := rfl
  rw [uhash, poly1305_halves _ _ _ (zeros_length 16) ha, le_zeros, hmask, poly1305From_zero, Nat.zero_add,
    leBytes_le_mod ha]

/-- With multiplier 1 and addend 0 the running value after one unit is the unit with a bit above it, below the prime, and the
tag is the unit (R169). -/
theorem uhash_one_multiplier (u : Bytes) (hu : u.length = 16) : uhash .poly1305 (1 :: zeros 31) u = u := by
  have hsplit : (1 :: zeros 31 : Bytes) = (1 :: zeros 15) ++ zeros 16 := by decide
  have hmask : (BitVec.ofNat 128 (le (1 :: zeros 15)) &&& polyMask).toNat = 1 := by decide
  have hpiece : pieces 16 u = [u] := by simpa using pieces_unit_append 16 (by norm_num) u [] hu
  have hlt := le_lt u
  rw [hu] at hlt
  have hone : poly1305From 1 0 [u] = le u + 2 ^ 128 := by
    simp only [poly1305From, Nat.zero_add, Nat.mul_one]
    exact Nat.mod_eq_of_lt (by rw [polyPrime]; omega)
  rw [uhash, hsplit, poly1305_halves _ _ _ (by simp) (zeros_length 16), hmask, hpiece, hone, le_zeros, Nat.add_zero,
    Nat.add_mod_right, leBytes_le_mod hu]

/-- Settles O37: `uhash_zero_multiplier` and `uhash_one_multiplier`. -/
theorem defaultHashCorners : Obligations.DefaultHashCorners := by
  unfold Obligations.DefaultHashCorners
  exact ⟨uhash_zero_multiplier, uhash_one_multiplier⟩

/-! ## Tags and the round trip -/

/-- Settles O38: `tagEq_iff` for two strings of 16 bytes. -/
theorem tagComparisonIsExact : Obligations.TagComparisonIsExact := by
  unfold Obligations.TagComparisonIsExact
  intro t u ht hu
  exact tagEq_iff (ht.trans hu.symm)

/-- `aead_decrypt` on ready operands with the computed tag ends with `OK` and the plaintext (R184). -/
theorem execAeadDecrypt_ok (s : State) (v : Variant) (h : s.StreamReady v) (haad : s.inp.aad.length ≤ s.cfg.maxlen)
    (htag : s.inp.tag = s.expectedTag v) :
    execAeadDecrypt v.code s = .next (s.ended .ok { OutBufs.empty with
      data := ctrStream v (expand s.cfg v s.inp.key) s.inp.nonce 1 s.inp.data } s.slots) := by
  rcases execAeadDecrypt_ready_cases s v h haad with ⟨-, hexec⟩ | ⟨hne, -⟩
  · exact hexec
  · exact absurd htag hne

/-- Settles O42: what `aead_encrypt` leaves is ready for `aead_decrypt`, its tag is the one computed over its ciphertext, and
the second stream undoes the first. -/
theorem aeadRoundTrip : Obligations.AeadRoundTrip := by
  unfold Obligations.AeadRoundTrip
  intro s v h haad
  refine ⟨_, _, execAeadEncrypt_ok s v h haad, execAeadDecrypt_ok _ v ?ready haad rfl, rfl, ctrStream_ctrStream .., rfl⟩
  exact ⟨h.cfg, h.capable, h.key, h.nonce, (ctrStream_length ..).trans_le h.data⟩

end Sys2Proof.Machine
end

