-- ==== Sys2Proof/Proofs/WrapperCalls.lean ====
section
/-! SUPPORT. The wrapper's calls (spec 46_wrapper.md R200 to R204): which it refuses, what running its accesses comes to, its
counter blocks, and the round trip of its encrypting and decrypting calls. -/

namespace Sys2Proof.Machine

/-! ## Refusals -/

theorem hlAdmits_iff (var : BitVec 4) : hlAdmits var = true ↔ var.toNat ∈ [7, 8, 9] := by
  revert var
  decide

/-- The expansion of a call the wrapper does not refuse (R203). -/
def HlCall.accesses (c : HlCall) (draw : BitVec 96) : List HostReq :=
  c.fills ++ [.fill .nonce (hlNonce (c.nonce96 draw)), .writeReg 0 (encode c.instr)]

theorem HlCall.expand_unknownVariant {c : HlCall} (h : c.var.toNat ∉ [7, 8, 9]) (draw : BitVec 96) :
    c.expand draw = .error .unknownVariant := by
  have hnot : ¬ hlAdmits c.var = true := fun hadmits => h ((hlAdmits_iff c.var).mp hadmits)
  rw [HlCall.expand, if_neg hnot]

theorem HlCall.expand_wrongNonce {c : HlCall} (h : c.var.toNat ∈ [7, 8, 9]) {draw : BitVec 96}
    (hn : (c.nonce96 draw).length ≠ 12) : c.expand draw = .error .invalidNonceSize := by
  rw [HlCall.expand, if_pos ((hlAdmits_iff c.var).mpr h), if_pos hn]

theorem HlCall.expand_ok {c : HlCall} (h : c.var.toNat ∈ [7, 8, 9]) {draw : BitVec 96}
    (hn : (c.nonce96 draw).length = 12) : c.expand draw = .ok (c.accesses draw) := by
  rw [HlCall.expand, if_pos ((hlAdmits_iff c.var).mpr h), if_neg (not_not.mpr hn)]
  rfl

/-- Settles O58: the tests of the expansion in their order. -/
theorem wrapperRefusals : Obligations.WrapperRefusals := by
  unfold Obligations.WrapperRefusals
  intro call draw
  exact ⟨fun h => HlCall.expand_unknownVariant h draw, fun h hn => HlCall.expand_wrongNonce h hn,
    fun h hn => ⟨_, HlCall.expand_ok h hn⟩⟩

/-- A call that is expanded has an admitted variant, a nonce of 12 bytes, and the accesses of `HlCall.accesses`. -/
theorem HlCall.of_expand_ok {c : HlCall} {draw : BitVec 96} {reqs : List HostReq} (h : c.expand draw = .ok reqs) :
    c.var.toNat ∈ [7, 8, 9] ∧ (c.nonce96 draw).length = 12 ∧ reqs = c.accesses draw := by
  by_cases hvar : c.var.toNat ∈ [7, 8, 9]
  · by_cases hn : (c.nonce96 draw).length = 12
    · exact ⟨hvar, hn, Except.ok.inj (h.symm.trans (HlCall.expand_ok hvar hn))⟩
    · cases h.symm.trans (HlCall.expand_wrongNonce hvar hn)
  · cases h.symm.trans (HlCall.expand_unknownVariant hvar draw)

/-! ## Running a call -/

/-- A run of one step is the step. -/
theorem core_run_one (s : State) : core.run 1 s = step s := by
  cases h : step s with
  | next t => exact core_run_next 0 s t h
  | refused r => exact core_run_refused 0 s r h
  | fault f => cases f

/-- A run through a buffer fill goes on from the filled buffers (R50). -/
theorem core_run_fill (k : Nat) {s : State} {b : InBuf} {x : Bytes} {rest : List HostReq} (h : s.host = .fill b x :: rest) :
    core.run (k + 1) s = core.run k { s with host := rest, inp := s.inp.fill b x } :=
  core_run_next k s _ (step_cons s _ rest h)

/-- A run of one step with a command's word pending is the command (R27). -/
theorem core_run_command {s : State} {i : Instr} {rest : List HostReq} (h : s.host = .writeReg 0 (encode i) :: rest) :
    core.run 1 s = exec i { s with host := rest } := by
  rw [core_run_one, step_writeCmd h, issue_ok (decode_encode i)]

/-- Running the accesses of a call is its command on its operands (R203): the fills one by one, then the word. -/
theorem core_run_accesses (c : HlCall) (draw : BitVec 96) (s : State) (rest : List HostReq)
    (h : s.host = c.accesses draw ++ rest) :
    core.run (c.accesses draw).length s = exec c.instr { s with inp := c.operands draw s.inp, host := rest } := by
  cases c with
  | ctrCrypt var key nonce data =>
    exact (core_run_fill 3 h).trans ((core_run_fill 2 rfl).trans ((core_run_fill 1 rfl).trans (core_run_command rfl)))
  | aeadEncrypt var key nonce data aad =>
    exact (core_run_fill 4 h).trans ((core_run_fill 3 rfl).trans ((core_run_fill 2 rfl).trans ((core_run_fill 1 rfl).trans
      (core_run_command rfl))))
  | aeadDecrypt var key nonce data aad tag =>
    exact (core_run_fill 5 h).trans ((core_run_fill 4 rfl).trans ((core_run_fill 3 rfl).trans ((core_run_fill 2 rfl).trans
      ((core_run_fill 1 rfl).trans (core_run_command rfl)))))

/-- Settles O57: the accesses of an expanded call are those of `core_run_accesses`. -/
theorem wrapperRunsOneCommand : Obligations.WrapperRunsOneCommand := by
  unfold Obligations.WrapperRunsOneCommand
  intro call draw reqs rest s hexpand hhost
  obtain ⟨-, -, rfl⟩ := HlCall.of_expand_ok hexpand
  exact core_run_accesses call draw s rest hhost

/-! ## Counter blocks -/

theorem be_hlNonce (n96 : Bytes) : be (hlNonce n96) = be n96 * 256 ^ 4 := by
  rw [hlNonce, be_append, be_zeros, zeros_length, Nat.add_zero]

/-- Counter block `j` of a 12-byte nonce is the nonce followed by `j`: counting does not reach the nonce (R201, R202). -/
theorem ctrBlock_hlNonce (v : Variant) (n96 : Bytes) (j : Nat) (hv : v.blockBytes = 16) (hn : n96.length = 12)
    (hj : j < 2 ^ 32) : ctrBlock v (hlNonce n96) j = n96 ++ beBytes 4 j := by
  have hj' : j < 256 ^ 4 := hj
  have htake : (beBytes (12 + 4) (be n96 * 256 ^ 4 + j)).take 12 = n96 := by
    rw [take_beBytes, Nat.mul_comm, Nat.mul_add_div (by positivity), Nat.div_eq_of_lt hj', Nat.add_zero, ← hn, beBytes_be]
  have hdrop : (beBytes (12 + 4) (be n96 * 256 ^ 4 + j)).drop 12 = beBytes 4 j := by
    rw [drop_beBytes, ← beBytes_mod, Nat.mul_add_mod', beBytes_mod]
  rw [ctrBlock, ← pow_blockBytes, beBytes_mod, be_hlNonce, hv, ← List.take_append_drop 12 (beBytes 16 _), htake, hdrop]

/-- Settles O59: `ctrBlock_hlNonce` for both blocks; 12 bytes of nonce and 4 bytes of suffix can be read back. -/
theorem wrapperCounterSuffix : Obligations.WrapperCounterSuffix := by
  unfold Obligations.WrapperCounterSuffix
  intro v n96 j hv hn hj
  refine ⟨ctrBlock_hlNonce v n96 j hv hn hj, fun m96 k hm hk heq => ?_⟩
  rw [ctrBlock_hlNonce v n96 j hv hn hj, ctrBlock_hlNonce v m96 k hv hm hk] at heq
  obtain ⟨hnonce, hsuffix⟩ := List.append_inj heq (hn.trans hm.symm)
  have hcount := congrArg be hsuffix
  rw [be_beBytes, be_beBytes, Nat.mod_eq_of_lt (show j < 256 ^ 4 from hj), Nat.mod_eq_of_lt (show k < 256 ^ 4 from hk)]
    at hcount
  exact ⟨hnonce, hcount⟩

/-! ## The round trip -/

/-- The variants the wrapper admits are stream-capable and have 16-byte blocks (R200). -/
theorem admitted_variant (v : Variant) (h : v.code.toNat ∈ [7, 8, 9]) : v.streamCapable = true ∧ v.blockBytes = 16 := by
  revert h
  cases v <;> decide

theorem hlNonce_length {n96 : Bytes} (hn : n96.length = 12) : (hlNonce n96).length = 16 := by
  rw [hlNonce, List.length_append, hn, zeros_length]

/-- The encrypting call with the given key, operands and nonce leaves the ciphertext and the tag of `aead_encrypt` (R183,
R203). -/
theorem core_run_sealCall {s : State} {v : Variant} {key data aad : Bytes} {nonce : Option Bytes} {draw : BitVec 96}
    (hwf : s.cfg.wf = true) (hvar : v.code.toNat ∈ [7, 8, 9]) (hkey : key.length = v.keyBytes)
    (hdata : data.length ≤ s.cfg.maxlen) (haad : aad.length ≤ s.cfg.maxlen) {n96 : Bytes} (hn : n96.length = 12)
    (hnonce : (HlCall.aeadEncrypt v.code key nonce data aad).nonce96 draw = n96)
    (hhost : s.host = (HlCall.aeadEncrypt v.code key nonce data aad).accesses draw) :
    ∃ t, core.run ((HlCall.aeadEncrypt v.code key nonce data aad).accesses draw).length s = .next t ∧ t.cfg = s.cfg ∧
      t.out.data = ctrStream v (expand s.cfg v key) (hlNonce n96) 1 data ∧
      t.out.tag = aeadTag s.cfg.uhash v (expand s.cfg v key) (hlNonce n96) aad t.out.data := by
  subst hnonce
  obtain ⟨hcapable, hblock⟩ := admitted_variant v hvar
  have hrun := core_run_accesses _ draw s [] (hhost.trans (List.append_nil _).symm)
  exact ⟨_, hrun.trans (execAeadEncrypt_ok _ v
    ⟨hwf, hcapable, hkey, (hlNonce_length hn).trans hblock.symm, hdata⟩ haad), rfl, rfl, rfl⟩

/-- The decrypting call with the computed tag ends with `OK` and the plaintext of `aead_decrypt` (R184, R203). -/
theorem core_run_openCall {s : State} {v : Variant} {key n96 data aad tag : Bytes} {draw : BitVec 96}
    (hwf : s.cfg.wf = true) (hvar : v.code.toNat ∈ [7, 8, 9]) (hkey : key.length = v.keyBytes)
    (hdata : data.length ≤ s.cfg.maxlen) (haad : aad.length ≤ s.cfg.maxlen) (hn : n96.length = 12)
    (htag : tag = aeadTag s.cfg.uhash v (expand s.cfg v key) (hlNonce n96) aad data)
    (hhost : s.host = (HlCall.aeadDecrypt v.code key n96 data aad tag).accesses draw) :
    ∃ u, core.run ((HlCall.aeadDecrypt v.code key n96 data aad tag).accesses draw).length s = .next u ∧ u.status = 0 ∧
      u.out.data = ctrStream v (expand s.cfg v key) (hlNonce n96) 1 data := by
  obtain ⟨hcapable, hblock⟩ := admitted_variant v hvar
  have hrun := core_run_accesses _ draw s [] (hhost.trans (List.append_nil _).symm)
  exact ⟨_, hrun.trans (execAeadDecrypt_ok _ v
    ⟨hwf, hcapable, hkey, (hlNonce_length hn).trans hblock.symm, hdata⟩ haad htag), rfl, rfl⟩

/-- Settles O60: the decrypting call gets the nonce, ciphertext and tag the encrypting call returned, so its stream undoes
the first. -/
theorem wrapperAeadRoundTrip : Obligations.WrapperAeadRoundTrip := by
  unfold Obligations.WrapperAeadRoundTrip
  intro s v key data aad nonce draw reqs hwf hkey hdata haad hexpand hhost
  obtain ⟨hvar, hn, rfl⟩ := HlCall.of_expand_ok hexpand
  generalize hn96 : (HlCall.aeadEncrypt v.code key nonce data aad).nonce96 draw = n96 at hn
  obtain ⟨t, hseal, hcfg, hct, htag⟩ := core_run_sealCall hwf hvar hkey hdata haad hn hn96 hhost
  have hlen : t.out.data.length = data.length := by rw [hct, ctrStream_length]
  rw [← hcfg] at hwf hdata haad htag hct
  obtain ⟨u, hopen, hstatus, hpt⟩ := core_run_openCall
    (s := { t with host := (HlCall.aeadDecrypt v.code key n96 t.out.data aad t.out.tag).accesses 0 })
    hwf hvar hkey (hlen.trans_le hdata) haad hn htag rfl
  refine ⟨t, u, n96, _, hseal, congrArg some hn96, ?expanded, hopen, hstatus, ?plaintext⟩
  case expanded => exact HlCall.expand_ok (c := .aeadDecrypt v.code key n96 t.out.data aad t.out.tag) hvar hn
  case plaintext => rw [hpt, hct, ctrStream_ctrStream]

end Sys2Proof.Machine
end
